-- ==== Sys2Proof/Word.lean ====
section
/-! DEFINITION. The widths every other file uses: command and bus words, bytes, symbols, bus
addresses and canonical code values (00_scope.md R6 and R7, 10_state.md R52, 20_memory.md R80). -/

namespace Sys2Proof

/-- A 32-bit command word or host-bus word (R6 "command word", R80). -/
abbrev Word := BitVec 32

/-- One byte of a stream (R86). -/
abbrev Byte := BitVec 8

/-- A symbol: one channel's 8-bit intensity, 0..255 (R6, glossary). -/
abbrev Symbol := BitVec 8

/-- A host-bus word address `a[15:2]`: the only addresses the bus can name (R80). -/
abbrev WordAddr := BitVec 14

/-- A host-bus byte address; ERRADDR holds one (R38, R80). -/
abbrev ByteAddr := BitVec 16

/-- A canonical code value, below 2^255 (R6, R52). -/
abbrev Code := BitVec 255

end Sys2Proof
end

