-- ==== Sys2Proof/Config.lean ====
section
/-! DEFINITION. What is fixed for the block, and the values the spec leaves free
(00_scope.md R6, 10_state.md R44, 20_memory.md R85, 92_eei_decisions.md D43). -/

namespace Sys2Proof.Config

/-- The constant the ID register reads: ASCII "PIF", revision 1 (R2, R44). -/
def idValue : Word := 0x50494601#32

/-- The free draw of R85: what the host gets from a read, while BUSY = 1, of an address whose value
the spec leaves open. The argument numbers the draws. Nothing constrains it: every statement about
such a read holds whatever this is (93_implementation_defined.md I2). See log entry 4. -/
opaque freeRead : Nat → Word

/-- The parameter `BASE` of D43: the platform's address of byte 0 of the block's window. No rule
depends on it (R294). See log entry 14. -/
opaque windowBase : Nat

end Sys2Proof.Config
end

