-- ==== Sys2Proof/Syntax.lean ====
section
/-! DEFINITION. The command set as syntax: one constructor per row of the opcode map
(30_encoding.md R116), with the operands its format gives it (R111 to R115). -/

namespace Sys2Proof

/-- A colour channel: R = 0, G = 1, B = 2 (00_scope.md R6; 30_encoding.md R112). The fourth value of
the 2-bit CH field is illegal, so it has no constructor (log entry 13). -/
inductive Channel where
  | r
  | g
  | b
deriving DecidableEq, Repr

/-- A command of the block (R116). Channels and symbols are all the operands there are (R115). -/
inductive Instr where
  /-- R270, format N -/
  | nop
  /-- R271, format N -/
  | sreset
  /-- R272, format N -/
  | clrerr
  /-- R145, format C -/
  | build (c : Channel)
  /-- R164, format C -/
  | assign (c : Channel)
  /-- R181, format C -/
  | wrlt (c : Channel)
  /-- R182, format C -/
  | rdlt (c : Channel)
  /-- R205, format CS -/
  | encsym (c : Channel) (y : Symbol)
  /-- R207, format P: the red, green and blue symbols of one pixel -/
  | encpx (pr pg pb : Symbol)
  /-- R203, format N -/
  | flush
  /-- R226, format C -/
  | decsym (c : Channel)
  /-- R228, format N -/
  | decpx
  /-- R244, format N -/
  | hdrw
  /-- R245, format N -/
  | hdrr
deriving DecidableEq, Repr

end Sys2Proof
end

