-- ==== Sys2Proof/Machine/State.lean ====
section
/-! DEFINITION. The architectural state: every element of the table of 10_state.md R30 under its own
name, plain data throughout, and the host agent's side of the interface (60_exceptions.md R300).
ID is a constant and no state (R44): it is `Config.idValue`. -/

namespace Sys2Proof.Machine

/-- One value per channel (R50 to R53). -/
structure PerChannel (α : Type) where
  r : α
  g : α
  b : α
deriving DecidableEq, Repr

/-- One value per symbol 0..255 of a channel (R50 to R52). -/
abbrev Table (α : Type) := Vector α 256

/-- The error codes of 60_exceptions.md R281, by name. -/
inductive ErrorKind where
  | invalidHeader
  | truncatedLengthTable
  | unexpectedEndOfStream
  | corruptTree
  | oversubscribedLengths
  | symbolAbsent
  | codesNotReady
  | streamNotAligned
  | illegalCommand
  | overrun
deriving DecidableEq, Repr

/-- The events of the one total order of 20_memory.md R95, and the host's other moves of R300. -/
inductive Event where
  /-- the host writes a word at a word address (R80, R82, R84) -/
  | write (wa : WordAddr) (v : Word)
  /-- the host reads a word address (R80, R82, R85) -/
  | read (wa : WordAddr)
  /-- the host delivers one byte on IN (R86) -/
  | deliver (x : Byte)
  /-- the host ends the input (R86) -/
  | endInput
  /-- the host receives the next byte of OUT, where there is one (R86, R300) -/
  | receive
  /-- power-on reset is asserted (R311) -/
  | powerOnReset
  /-- the core's turn: its completion step, where that is enabled (R121) -/
  | coreTurn
deriving DecidableEq, Repr

/-- A word a host read returned, with the address it was read at. -/
structure BusRead where
  addr : WordAddr
  data : Word
deriving DecidableEq, Repr

/-- The host agent's side, the model's own fields and no state of the block (log entries 1, 4, 6). -/
structure HostSide where
  /-- the events still to come, in the total order of R95, the earliest first -/
  pending : List Event
  /-- what the host's reads returned, the oldest first -/
  reads : List BusRead
  /-- how many bytes of this session's OUT the host has received -/
  taken : Nat
  /-- every byte the host has received, over all sessions, the oldest first -/
  received : List Byte
  /-- how many free draws of R85 have been made -/
  draws : Nat
deriving DecidableEq, Repr

/-- The machine's state (R30), and the host's side of it. -/
@[ext]
structure State where
  /-- R32 -/
  busy : Bool
  /-- R33 -/
  pend : Word
  /-- R36 -/
  errCode : BitVec 4
  /-- R37 -/
  errCmd : Word
  /-- R38 -/
  errAddr : ByteAddr
  /-- R39 -/
  width : BitVec 16
  /-- R40 -/
  height : BitVec 16
  /-- R41 -/
  result : BitVec 24
  /-- R42 -/
  acc : BitVec 8
  /-- R42 -/
  cnt : BitVec 3
  /-- R43: unbounded -/
  inptr : Nat
  /-- R43 -/
  inbit : BitVec 3
  /-- R53 -/
  cvalid : PerChannel Bool
  /-- R50 -/
  freq : PerChannel (Table Word)
  /-- R51 -/
  len : PerChannel (Table (BitVec 8))
  /-- R52 -/
  code : PerChannel (Table Code)
  /-- R45 -/
  inbuf : List Byte
  /-- R45 -/
  eos : Bool
  /-- R46 -/
  out : List Byte
  /-- the model's own: what the environment does and has seen -/
  host : HostSide
deriving DecidableEq, Repr

/-- Reasons the machine stops with a fault. There is none: every error of the spec is a value latched
in ERRCODE after which the block goes on (60_exceptions.md R283 to R289), so no step of this model
faults. Safe: nothing can be proved of a run past a fault that cannot happen. -/
inductive Fault where
deriving DecidableEq, Repr

/-- Reasons a step has no transition. -/
inductive Refusal where
  /-- An instruction with no meaning yet, by its table mnemonic. Raised by an arm of `exec` only; no
  arm raises it now. Safe: nothing is claimed of the instruction. -/
  | notModelled (mnemonic : String)
  /-- The host delivers a byte after it ended the input. Raised by the delivery event only: R86 "the
  port does not accept them", and 93_implementation_defined.md I10 gives the treatment "refuse: the
  model has no transition for it". Safe: the run stops where the spec assumes it never goes. -/
  | deliveryAfterEndOfInput
deriving DecidableEq, Repr

/-- What a command's rule returns (30_encoding.md R121). -/
inductive CmdResult where
  /-- ok(new state) -/
  | ok (s : State)
  /-- err(E) -/
  | err (e : ErrorKind)
  /-- the completion step is not enabled (20_memory.md R87) -/
  | hold
deriving DecidableEq, Repr

/-- The same value for every channel. -/
def PerChannel.all {α : Type} (v : α) : PerChannel α := ⟨v, v, v⟩

/-- The state after power-on reset: every element at the value R310 gives. The host's side, which is
no state of the block, starts with nothing to come and nothing seen (log entry 18). -/
def State.reset : State where
  busy := false
  pend := 0#32
  errCode := 0#4
  errCmd := 0#32
  errAddr := 0#16
  width := 0#16
  height := 0#16
  result := 0#24
  acc := 0#8
  cnt := 0#3
  inptr := 0
  inbit := 0#3
  cvalid := .all false
  freq := .all (Vector.replicate 256 0#32)
  len := .all (Vector.replicate 256 0#8)
  code := .all (Vector.replicate 256 0#255)
  inbuf := []
  eos := false
  out := []
  host := { pending := [], reads := [], taken := 0, received := [], draws := 0 }

end Sys2Proof.Machine
end

