-- ==== Sys2Proof/Machine/Operands.lean ====
section
/-! DEFINITION. Reading and writing what commands and host accesses name: the per-channel arrays
(10_state.md R50 to R53, 00_scope.md R9) and the host address map (20_memory.md R80 to R83). -/

namespace Sys2Proof.Machine

/-- The symbols 0..255 in ascending order. -/
def allSymbols : List Symbol := (List.range 256).map (BitVec.ofNat 8)

/-- The channels in the order R, G, B. -/
def allChannels : List Channel := [.r, .g, .b]

/-- The channel's number 0, 1 or 2 (00_scope.md R6). -/
def channelNumber : Channel → Nat
  | .r => 0
  | .g => 1
  | .b => 2

namespace PerChannel

/-- The entry of channel c. -/
def get {α : Type} (p : PerChannel α) : Channel → α
  | .r => p.r
  | .g => p.g
  | .b => p.b

/-- The same, with the entry of channel c replaced. -/
def set {α : Type} (p : PerChannel α) (c : Channel) (v : α) : PerChannel α :=
  match c with
  | .r => { p with r := v }
  | .g => { p with g := v }
  | .b => { p with b := v }

end PerChannel

namespace Table

/-- Entry s of a table. -/
def get {α : Type} (t : Table α) (y : Symbol) : α := t[y.toNat]'y.isLt

/-- The table with entry s replaced. -/
def set {α : Type} (t : Table α) (y : Symbol) (v : α) : Table α := Vector.set t y.toNat v y.isLt

/-- The table whose entry s is `f s`. -/
def ofFn {α : Type} (f : Symbol → α) : Table α := ⟨⟨allSymbols.map f⟩, by simp [allSymbols]⟩

/-- The entries in symbol order. -/
def entries {α : Type} (t : Table α) : List α := t.toList

/-- Every symbol with its entry, in symbol order. -/
def rows {α : Type} (t : Table α) : List (Symbol × α) := allSymbols.zip t.toList

end Table

namespace State

/-- FREQ[c][s] (R50). -/
def freqAt (s : State) (c : Channel) (y : Symbol) : Word := Table.get (s.freq.get c) y

/-- LEN[c][s] (R51). -/
def lenAt (s : State) (c : Channel) (y : Symbol) : BitVec 8 := Table.get (s.len.get c) y

/-- CODE[c][s] (R52). -/
def codeAt (s : State) (c : Channel) (y : Symbol) : Code := Table.get (s.code.get c) y

/-- CVALID[c] (R53). -/
def cvalidAt (s : State) (c : Channel) : Bool := s.cvalid.get c

/-- LEN[c][s] as the code length it is, 0..255. -/
def lenNat (s : State) (c : Channel) (y : Symbol) : Nat := (s.lenAt c y).toNat

/-- CODE[c][s] as the integer it is. -/
def codeNat (s : State) (c : Channel) (y : Symbol) : Nat := (s.codeAt c y).toNat

/-- FREQ[c][s] <- v. -/
def setFreqAt (s : State) (c : Channel) (y : Symbol) (v : Word) : State :=
  { s with freq := s.freq.set c (Table.set (s.freq.get c) y v) }

/-- LEN[c][s] <- v. -/
def setLenAt (s : State) (c : Channel) (y : Symbol) (v : BitVec 8) : State :=
  { s with len := s.len.set c (Table.set (s.len.get c) y v) }

/-- LEN[c][0..255] <- t. -/
def setLenTable (s : State) (c : Channel) (t : Table (BitVec 8)) : State :=
  { s with len := s.len.set c t }

/-- CODE[c][0..255] <- t. -/
def setCodeTable (s : State) (c : Channel) (t : Table Code) : State :=
  { s with code := s.code.set c t }

/-- CVALID[c] <- b. -/
def setCValid (s : State) (c : Channel) (v : Bool) : State :=
  { s with cvalid := s.cvalid.set c v }

end State

/-- The byte address a word address stands for: `a[15:2]` is the word address and `a[1:0] = 0` (R80). -/
def byteAddr (wa : WordAddr) : ByteAddr := BitVec.ofNat 16 (4 * wa.toNat)

/-- What an address of the map of R82 names. -/
inductive BusTarget where
  | cmd
  | status
  | errCode
  | errCmd
  | errAddr
  | width
  | height
  | result
  | pack
  | inptr
  | inbit
  | id
  | freq (c : Channel) (y : Symbol)
  | len (c : Channel) (y : Symbol)
  | code (c : Channel) (y : Symbol) (j : Nat)
  | reserved
deriving DecidableEq, Repr

/-- The channel with a number; called with numbers below 3 only. -/
def channelOfNumber : Nat → Channel
  | 0 => .r
  | 1 => .g
  | _ => .b

/-- The address map of R82, by byte address. -/
def busTargetAt (a : Nat) : BusTarget :=
  if a = 0x0000 then .cmd
  else if a = 0x0004 then .status
  else if a = 0x0008 then .errCode
  else if a = 0x000C then .errCmd
  else if a = 0x0010 then .errAddr
  else if a = 0x0014 then .width
  else if a = 0x0018 then .height
  else if a = 0x001C then .result
  else if a = 0x0020 then .pack
  else if a = 0x0024 then .inptr
  else if a = 0x0028 then .inbit
  else if a = 0x002C then .id
  else if a < 0x1000 then .reserved
  else if a < 0x1C00 then
    .freq (channelOfNumber ((a - 0x1000) / 0x400)) (BitVec.ofNat 8 ((a - 0x1000) % 0x400 / 4))
  else if a < 0x2000 then .reserved
  else if a < 0x2C00 then
    .len (channelOfNumber ((a - 0x2000) / 0x400)) (BitVec.ofNat 8 ((a - 0x2000) % 0x400 / 4))
  else if a < 0x4000 then .reserved
  else if a < 0xA000 then
    .code (channelOfNumber ((a - 0x4000) / 0x2000)) (BitVec.ofNat 8 ((a - 0x4000) % 0x2000 / 32))
      ((a - 0x4000) % 32 / 4)
  else .reserved

/-- What a word address of the bus names (R80, R82). -/
def busTarget (wa : WordAddr) : BusTarget := busTargetAt (byteAddr wa).toNat

/-- The platform's address of a word of the block's window: the window starts at the platform's `BASE`
(R294, 92_eei_decisions.md D43). No rule depends on it. -/
def platformAddress (wa : WordAddr) : Nat := Config.windowBase + (byteAddr wa).toNat

end Sys2Proof.Machine
end

