-- ==== Sys2Proof/Machine/Flags.lean ====
section
/-! DEFINITION. The status bits and the packed read-only registers: STATUS (10_state.md R34), PACK
(R42), CVALID (R53), the error codes as numbers (60_exceptions.md R281), and which words a command
may be while an error is latched (30_encoding.md R120). -/

namespace Sys2Proof.Machine

/-- The number of an error code (R281). -/
def errorNumber : ErrorKind → BitVec 4
  | .invalidHeader => 1#4
  | .truncatedLengthTable => 2#4
  | .unexpectedEndOfStream => 3#4
  | .corruptTree => 4#4
  | .oversubscribedLengths => 5#4
  | .symbolAbsent => 6#4
  | .codesNotReady => 7#4
  | .streamNotAligned => 8#4
  | .illegalCommand => 9#4
  | .overrun => 10#4

/-- STATUS.ERR: 1 exactly when ERRCODE is not 0 (R34). -/
def errFlag (s : State) : Bool := s.errCode != 0#4

/-- STATUS: CVALID in bits 6:4 with R lowest, ERR in bit 1, BUSY in bit 0, every other bit 0 (R34). -/
def statusWord (s : State) : Word :=
  0#25 ++ BitVec.ofBool s.cvalid.b ++ BitVec.ofBool s.cvalid.g ++ BitVec.ofBool s.cvalid.r ++ 0#2 ++
    BitVec.ofBool (errFlag s) ++ BitVec.ofBool s.busy

/-- PACK: CNT in bits 10:8, ACC in bits 7:0, every other bit 0 (R42, R82). -/
def packWord (s : State) : Word := 0#21 ++ s.cnt ++ s.acc

/-- The error latch is free (R36). -/
def noError (s : State) : Bool := s.errCode == 0#4

/-- The exact words accepted while an error is latched: SRESET and CLRERR (R120, R285). -/
def acceptedInError (w : Word) : Bool := w == 0x01000000#32 || w == 0x02000000#32

/-- Every channel has valid codes (R207, R228). -/
def allCodesReady (s : State) : Bool := allChannels.all s.cvalidAt

end Sys2Proof.Machine
end

