-- ==== Sys2Proof/Machine/Ops.lean ====
section
/-! DEFINITION. The operations the commands share: the streams (20_memory.md R86 to R88), the bit
packer's and bit reader's primitives (43_bit_packer.md R201, R202; 44_bit_reader.md R221), the error
latch (60_exceptions.md R283, R284; 20_memory.md R84), the session reset (70_reset_and_hazards.md
R310) and the completion of a command (30_encoding.md R121). -/

namespace Sys2Proof.Machine

/-- `Emit(x)`: append the byte x to OUT (R88). -/
def emit (x : Byte) (s : State) : State := { s with out := s.out ++ [x] }

/-- Emit every byte of a list, in order. -/
def emitAll (xs : List Byte) (s : State) : State := xs.foldl (fun t x => emit x t) s

/-- `PutBit(b)` (R201). ACC << 1 is below 2^8 wherever ACC < 2^CNT holds (R42; log entry 11). -/
def putBit (b : Bool) (s : State) : State :=
  let a : BitVec 8 := (s.acc <<< 1) ||| BitVec.setWidth 8 (BitVec.ofBool b)
  if s.cnt = 7#3 then { emit a s with acc := 0#8, cnt := 0#3 }
  else { s with acc := a, cnt := s.cnt + 1#3 }

/-- `PutCode(v, l)`: the bits l-1 down to 0 of v (R202). -/
def putCode (v : Code) : Nat → State → State
  | 0, s => s
  | i + 1, s => putCode v i (putBit (v.getLsbD i) s)

/-- `InAvail()`: the delivered bytes not yet reached by the reader (00_scope.md R9). -/
def inAvail (s : State) : Nat := s.inbuf.length - s.inptr

/-- `InByte(i)` (00_scope.md R9). Every caller has checked that byte i was delivered (R87), so the
default is never read (log entry 10). -/
def inByte (s : State) (i : Nat) : Byte := s.inbuf.getD i 0#8

/-- The reader moved past one bit: to the next bit of the byte, or to the next byte (R221). -/
def advanceBit (s : State) : State :=
  if s.inbit = 7#3 then { s with inbit := 0#3, inptr := s.inptr + 1 }
  else { s with inbit := s.inbit + 1#3 }

/-- `NextBit()`: bit 7 - INBIT of the byte at INPTR, and the state with the reader past it (R221).
`none` where no bit has been delivered, in which case R221 does not call it. -/
def nextBit (s : State) : Option (Bool × State) :=
  match s.inbuf[s.inptr]? with
  | none => none
  | some x => some (x.getLsbD (7 - s.inbit.toNat), advanceBit s)

/-- A command that needs n more input bytes and lacks them holds until the input ends; then it raises
the error its rule names (R87). -/
def whenInputShort (s : State) (e : ErrorKind) : CmdResult := if s.eos then .err e else .hold

/-- `Latch(E, w)`: the first error latched is kept (R284). -/
def latch (e : ErrorKind) (w : Word) (s : State) : State :=
  if noError s then { s with errCode := errorNumber e, errCmd := w, errAddr := 0#16 } else s

/-- The latch of a host write while BUSY = 1: Overrun with the byte address (R84, R284). -/
def latchOverrun (wa : WordAddr) (s : State) : State :=
  if noError s then
    { s with errCode := errorNumber .overrun, errCmd := 0#32, errAddr := byteAddr wa }
  else s

/-- The return from an error that CLRERR makes: the latch cleared, all else kept (46_control.md R272,
60_exceptions.md R289). -/
def clearLatch (s : State) : State := { s with errCode := 0#4, errCmd := 0#32, errAddr := 0#16 }

/-- The host's side at the start of a session: OUT is new, so no byte of it has been received. What
the host has seen and what it will do are its own and stay (R86, R271; log entry 6). -/
def newSession (h : HostSide) : HostSide := { h with taken := 0 }

/-- The reset of R310, by SRESET or by power-on: every element at its reset value. -/
def resetBlock (s : State) : State := { State.reset with host := newSession s.host }

/-- Raising an error ends the command with no effect but the latch (R283): ERRCODE, ERRCMD and
ERRADDR take the error, the command word PEND and 0 when no error is latched, and BUSY falls. -/
def raiseError (e : ErrorKind) (s : State) : State := { latch e s.pend s with busy := false }

/-- The completion step (R121): ok makes the command's effect visible and clears BUSY; err latches;
hold is no step, so nothing changes and BUSY stays 1 (R87; log entry 3). -/
def complete (s : State) : CmdResult → Host.Outcome State Fault Refusal
  | .ok t => .next { t with busy := false }
  | .err e => .next (raiseError e s)
  | .hold => .next s

end Sys2Proof.Machine
end

