-- ==== Sys2Proof/Machine/Canonical.lean ====
section
/-! DEFINITION. The Canonical Code Assigner: ASSIGN (41_canonical.md R160 to R169). -/

namespace Sys2Proof.Machine

/-- The order of R161 on (length, symbol) pairs: by length, then by symbol. -/
abbrev pairLe (a b : Nat × Symbol) : Prop := a.1 < b.1 ∨ (a.1 = b.1 ∧ a.2.toNat ≤ b.2.toNat)

/-- The pairs of the symbols with a code, unsorted (R160). -/
def codedPairs (t : Table (BitVec 8)) : List (Nat × Symbol) :=
  ((Table.rows t).map fun q => (q.2.toNat, q.1)).filter fun p => p.1 != 0

/-- E: the pairs sorted by length, then by symbol (R161). -/
def sortedPairs (t : Table (BitVec 8)) : List (Nat × Symbol) :=
  (codedPairs t).insertionSort pairLe

/-- The code recurrence of R162: 0 for the first pair, then increment and shift by the length's
growth. The argument is the previous pair's code and length, where there is one. -/
def nextCode : Option (Nat × Nat) → Nat → Nat
  | none, _ => 0
  | some (code, prev), l => (code + 1) <<< (l - prev)

/-- The codes of the pairs in order; none at the first code that does not fit its length (R162, R163,
R164). -/
def assignCodes : Option (Nat × Nat) → List (Nat × Symbol) → Option (List (Symbol × Nat))
  | _, [] => some []
  | prev, (l, y) :: rest =>
    if 2 ^ l ≤ nextCode prev l then none
    else
      match assignCodes (some (nextCode prev l, l)) rest with
      | none => none
      | some cs => some ((y, nextCode prev l) :: cs)

/-- newCODE of R164 for a length table; none where it is oversubscribed. A code that fits is below
2^255 (R163), so 255 bits hold it. -/
def canonicalTable (t : Table (BitVec 8)) : Option (Table Code) :=
  match assignCodes none (sortedPairs t) with
  | none => none
  | some cs => some (Table.ofFn fun y => BitVec.ofNat 255 ((cs.lookup y).getD 0))

/-- The rule of ASSIGN c (R164). -/
def cmdAssign (c : Channel) (s : State) : CmdResult :=
  match canonicalTable (s.len.get c) with
  | none => .err .oversubscribedLengths
  | some t => .ok ((s.setCodeTable c t).setCValid c true)

/-- ASSIGN c (R164). -/
def execAssign (c : Channel) (s : State) : Host.Outcome State Fault Refusal :=
  complete s (cmdAssign c s)

end Sys2Proof.Machine
end

