-- ==== Sys2Proof/Machine/Container.lean ====
section
/-! DEFINITION. The container header commands HDRW and HDRR and the container's layout
(45_container.md R240 to R246; 20_memory.md R89). -/

namespace Sys2Proof.Machine

/-- A 16-bit value as two bytes, high byte first (R89). -/
def bigEndian (v : BitVec 16) : List Byte := [v.extractLsb' 8 8, v.extractLsb' 0 8]

/-- The 4-byte container header (R240, R244). -/
def headerBytes (w h : BitVec 16) : List Byte := bigEndian w ++ bigEndian h

/-- The rule of HDRW (R244). -/
def cmdHdrw (s : State) : CmdResult :=
  if s.cnt ≠ 0#3 then .err .streamNotAligned
  else .ok (emitAll (headerBytes s.width s.height) s)

/-- HDRW (R244). -/
def execHdrw (s : State) : Host.Outcome State Fault Refusal := complete s (cmdHdrw s)

/-- The rule of HDRR (R245). -/
def cmdHdrr (s : State) : CmdResult :=
  if s.inbit ≠ 0#3 then .err .streamNotAligned
  else if inAvail s < 4 then whenInputShort s .invalidHeader
  else
    .ok { s with
      width := inByte s s.inptr ++ inByte s (s.inptr + 1)
      height := inByte s (s.inptr + 2) ++ inByte s (s.inptr + 3)
      inptr := s.inptr + 4 }

/-- HDRR (R245). -/
def execHdrr (s : State) : Host.Outcome State Fault Refusal := complete s (cmdHdrr s)

/-- The container's layout (R240): header, the three length tables, the packed bitstream. -/
def containerBytes (w h : BitVec 16) (tables : PerChannel (Table (BitVec 8))) (bits : List Byte) :
    List Byte :=
  headerBytes w h ++ Table.entries tables.r ++ Table.entries tables.g ++ Table.entries tables.b ++ bits

end Sys2Proof.Machine
end

