-- ==== Sys2Proof/Machine/Control.lean ====
section
/-! DEFINITION. The control commands NOP, SRESET and CLRERR (46_control.md R270 to R272). -/

namespace Sys2Proof.Machine

/-- NOP (R270): nothing but BUSY changes. -/
def execNop (s : State) : Host.Outcome State Fault Refusal := complete s (.ok s)

/-- SRESET (R271): the reset state of R310 and a new session. -/
def execSreset (s : State) : Host.Outcome State Fault Refusal := complete s (.ok (resetBlock s))

/-- CLRERR (R272): the error latch cleared. -/
def execClrerr (s : State) : Host.Outcome State Fault Refusal := complete s (.ok (clearLatch s))

end Sys2Proof.Machine
end

