-- ==== Sys2Proof/Machine/LengthTable.lean ====
section
/-! DEFINITION. The Length Table Codec, WRLT and RDLT, and the decode tree that the bit reader walks
(42_length_table.md R180 to R189). -/

namespace Sys2Proof.Machine

/-- The rule of WRLT c (R181): the 256 entries of LEN[c] in symbol order onto OUT. -/
def cmdWrlt (c : Channel) (s : State) : CmdResult :=
  if s.cnt ≠ 0#3 then .err .streamNotAligned
  else .ok (emitAll (Table.entries (s.len.get c)) s)

/-- WRLT c (R181). -/
def execWrlt (c : Channel) (s : State) : Host.Outcome State Fault Refusal :=
  complete s (cmdWrlt c s)

/-- The rule of RDLT c (R182): 256 bytes of the input into LEN[c]. -/
def cmdRdlt (c : Channel) (s : State) : CmdResult :=
  if s.inbit ≠ 0#3 then .err .streamNotAligned
  else if inAvail s < 256 then whenInputShort s .truncatedLengthTable
  else
    let t := s.setLenTable c (Table.ofFn fun y => inByte s (s.inptr + y.toNat))
    .ok ({ t with inptr := s.inptr + 256 }.setCValid c false)

/-- RDLT c (R182). -/
def execRdlt (c : Channel) (s : State) : Host.Outcome State Fault Refusal :=
  complete s (cmdRdlt c s)

/-- A node of the decode tree, other than the root, is one of these (R185). -/
inductive NodeKind where
  | leaf (y : Symbol)
  | internal
  | unpopulated
deriving DecidableEq, Repr

/-- Every symbol with its length and its code, in symbol order. -/
def codeRows (s : State) (c : Channel) : List (Symbol × BitVec 8 × Code) :=
  allSymbols.zip ((s.len.get c).toList.zip (s.code.get c).toList)

/-- The symbol whose code is the k-bit string numbered p, where one is (R185). Codes of a valid channel
are distinct (R166); the lowest symbol is taken (log entry 9). -/
def leafAt (s : State) (c : Channel) (k p : Nat) : Option Symbol :=
  ((codeRows s c).find? fun q => q.2.1.toNat == k && q.2.2.toNat == p).map Prod.fst

/-- Whether the k-bit string numbered p is a proper beginning of some code (R185). -/
def internalAt (s : State) (c : Channel) (k p : Nat) : Bool :=
  (codeRows s c).any fun q => decide (k < q.2.1.toNat) && q.2.2.toNat >>> (q.2.1.toNat - k) == p

/-- What the node p of depth k ≥ 1 of channel c's decode tree is (R185, R186). -/
def nodeKind (s : State) (c : Channel) (k p : Nat) : NodeKind :=
  match leafAt s c k p with
  | some y => .leaf y
  | none => if internalAt s c k p then .internal else .unpopulated

/-- The decode tree has no node but the root (R185, R188). -/
def emptyTree (s : State) (c : Channel) : Bool := (s.len.get c).toList.all fun l => l == 0#8

end Sys2Proof.Machine
end

