-- ==== Sys2Proof/Machine/Packer.lean ====
section
/-! DEFINITION. The Bit Packer: ENCSYM, ENCPX and FLUSH (43_bit_packer.md R200 to R210). -/

namespace Sys2Proof.Machine

/-- The symbol has a code in the channel (R205, R207). -/
def hasCode (s : State) (c : Channel) (y : Symbol) : Bool := s.lenAt c y != 0#8

/-- The code of a symbol into the packer: `PutCode(CODE[c][s], LEN[c][s])` (R205). -/
def putSymbol (c : Channel) (y : Symbol) (s : State) : State := putCode (s.codeAt c y) (s.lenNat c y) s

/-- The rule of FLUSH (R203): left-align the partial byte, fill it with zeros and emit it. -/
def cmdFlush (s : State) : CmdResult :=
  if s.cnt = 0#3 then .ok s
  else .ok { emit (s.acc <<< (8 - s.cnt.toNat)) s with acc := 0#8, cnt := 0#3 }

/-- FLUSH (R203). -/
def execFlush (s : State) : Host.Outcome State Fault Refusal := complete s (cmdFlush s)

/-- The rule of ENCSYM c, s (R205). -/
def cmdEncsym (c : Channel) (y : Symbol) (s : State) : CmdResult :=
  if !s.cvalidAt c then .err .codesNotReady
  else if !hasCode s c y then .err .symbolAbsent
  else .ok (putSymbol c y s)

/-- ENCSYM c, s (R205). -/
def execEncsym (c : Channel) (y : Symbol) (s : State) : Host.Outcome State Fault Refusal :=
  complete s (cmdEncsym c y s)

/-- The rule of ENCPX r, g, b (R207): all CVALID checks, then all LEN checks, then the three codes in
the order R, G, B. -/
def cmdEncpx (pr pg pb : Symbol) (s : State) : CmdResult :=
  if !allCodesReady s then .err .codesNotReady
  else if !(hasCode s .r pr && hasCode s .g pg && hasCode s .b pb) then .err .symbolAbsent
  else .ok (putSymbol .b pb (putSymbol .g pg (putSymbol .r pr s)))

/-- ENCPX r, g, b (R207). -/
def execEncpx (pr pg pb : Symbol) (s : State) : Host.Outcome State Fault Refusal :=
  complete s (cmdEncpx pr pg pb s)

end Sys2Proof.Machine
end

