-- ==== Sys2Proof/Machine/Reader.lean ====
section
/-! DEFINITION. The Bit Reader and Symbol Decoder: DECSYM and DECPX (44_bit_reader.md R220 to R230). -/

namespace Sys2Proof.Machine

/-- What a walk returns (R222): a symbol with the reader past its code, an error, or hold. -/
inductive WalkResult where
  | sym (y : Symbol) (s : State)
  | err (e : ErrorKind)
  | hold
deriving DecidableEq, Repr

/-- The walk needs a bit and there is none: hold, or the end of the stream (R222, R225). -/
def walkOutOfInput (s : State) : WalkResult := if s.eos then .err .unexpectedEndOfStream else .hold

/-- One turn of R222's loop at the node p of depth k, and the turns after it. The first argument
bounds the turns: a walk takes at most 255 bit steps (R223), so with 256 turns from the root the bound
is never met (log entry 8). -/
def walkFrom (c : Channel) : Nat → Nat → Nat → State → WalkResult
  | 0, _, _, _ => .err .corruptTree
  | turns + 1, k, p, s =>
    if k = 0 then
      match nextBit s with
      | none => walkOutOfInput s
      | some (b, t) => walkFrom c turns 1 b.toNat t
    else
      match nodeKind s c k p with
      | .leaf y => .sym y s
      | .unpopulated => .err .corruptTree
      | .internal =>
        match nextBit s with
        | none => walkOutOfInput s
        | some (b, t) => walkFrom c turns (k + 1) (2 * p + b.toNat) t

/-- `Walk(c)` (R222): an empty tree is corrupt before any input is asked for (R188). -/
def walk (c : Channel) (s : State) : WalkResult :=
  if emptyTree s c then .err .corruptTree else walkFrom c 256 0 0 s

/-- The rule of DECSYM c (R226). -/
def cmdDecsym (c : Channel) (s : State) : CmdResult :=
  if !s.cvalidAt c then .err .codesNotReady
  else
    match walk c s with
    | .sym y t => .ok { t with result := BitVec.setWidth 24 y }
    | .err e => .err e
    | .hold => .hold

/-- DECSYM c (R226). -/
def execDecsym (c : Channel) (s : State) : Host.Outcome State Fault Refusal :=
  complete s (cmdDecsym c s)

/-- The rule of DECPX (R228): all CVALID checks, then the R, G and B walks, each from where the one
before it stopped. -/
def cmdDecpx (s : State) : CmdResult :=
  if !allCodesReady s then .err .codesNotReady
  else
    match walk .r s with
    | .err e => .err e
    | .hold => .hold
    | .sym yr s1 =>
      match walk .g s1 with
      | .err e => .err e
      | .hold => .hold
      | .sym yg s2 =>
        match walk .b s2 with
        | .err e => .err e
        | .hold => .hold
        | .sym yb s3 => .ok { s3 with result := yr ++ yg ++ yb }

/-- DECPX (R228). -/
def execDecpx (s : State) : Host.Outcome State Fault Refusal := complete s (cmdDecpx s)

end Sys2Proof.Machine
end

