-- ==== Sys2Proof/Machine/TreeBuilder.lean ====
section
/-! DEFINITION. The Huffman Tree Builder: BUILD (40_tree_builder.md R140 to R150). -/

namespace Sys2Proof.Machine

/-- A node of the tree BUILD constructs (R141): a leaf has its symbol as id, an internal node the id
256 + k of its creation. The left child is the first node extracted, reached by bit 0 (R143).
Weights are exact; they stay below 2^40 (R146; log entry 7). -/
inductive HTree where
  | leaf (sym : Symbol) (weight : Nat)
  | node (id : Nat) (weight : Nat) (left right : HTree)
deriving DecidableEq, Repr

namespace HTree

/-- The weight of a node (R141). -/
def weight : HTree → Nat
  | .leaf _ w => w
  | .node _ w _ _ => w

/-- The 9-bit id of a node (R141). -/
def id : HTree → Nat
  | .leaf y _ => y.toNat
  | .node i _ _ _ => i

/-- The leaves below a node, each with its symbol and its depth, given the node's own depth (R144). -/
def leafDepths : HTree → Nat → List (Symbol × Nat)
  | .leaf y _, d => [(y, d)]
  | .node _ _ l r, d => l.leafDepths (d + 1) ++ r.leafDepths (d + 1)

end HTree

/-- The priority order: lexicographic on (weight, id) (R142). -/
def comesBefore (a b : HTree) : Bool := a.weight < b.weight || (a.weight == b.weight && a.id < b.id)

/-- `MinKey(Q)` and `Q minus it`, of the nonempty Q with first element t and rest q (R142). -/
def extractMin (t : HTree) : List HTree → HTree × List HTree
  | [] => (t, [])
  | u :: q =>
    match extractMin u q with
    | (m, rest) => if comesBefore t m then (t, u :: q) else (m, t :: rest)

/-- One merge (R143, R145): the two first nodes of Q become the left and right child of a new node. -/
def mergeOnce (id : Nat) (q : List HTree) : List HTree :=
  match q with
  | [] => []
  | t :: rest =>
    match extractMin t rest with
    | (a, []) => [a]
    | (a, u :: q1) =>
      match extractMin u q1 with
      | (b, q2) => .node id (a.weight + b.weight) a b :: q2

/-- The given number of merges, the first creating the given id (R145). -/
def mergeTimes : Nat → Nat → List HTree → List HTree
  | 0, _, q => q
  | n + 1, id, q => mergeTimes n (id + 1) (mergeOnce id q)

/-- Lv: the symbols with a nonzero count, ascending (R145). -/
def presentSymbols (f : Table Word) : List Symbol :=
  ((Table.rows f).filter fun q => q.2 != 0#32).map Prod.fst

/-- The leaves of R141, in ascending symbol order. -/
def leavesOf (f : Table Word) : List HTree :=
  (presentSymbols f).map fun y => .leaf y (Table.get f y).toNat

/-- The tree after the n - 1 merges of R145; none for an all-zero table. -/
def huffmanTree (f : Table Word) : Option HTree :=
  (mergeTimes ((presentSymbols f).length - 1) 256 (leavesOf f)).head?

/-- The code length of a symbol (R144): 1 for the only symbol of a table, its depth for n ≥ 2, and 0
for a symbol that does not occur. -/
def buildLength (f : Table Word) (y : Symbol) : Nat :=
  match presentSymbols f with
  | [] => 0
  | [z] => if y = z then 1 else 0
  | _ :: _ :: _ =>
    match huffmanTree f with
    | none => 0
    | some t => ((t.leafDepths 0).lookup y).getD 0

/-- newLEN of R145. Every length fits a byte (R147). -/
def buildTable (f : Table Word) : Table (BitVec 8) :=
  Table.ofFn fun y => BitVec.ofNat 8 (buildLength f y)

/-- The rule of BUILD c (R145). -/
def cmdBuild (c : Channel) (s : State) : CmdResult :=
  .ok ((s.setLenTable c (buildTable (s.freq.get c))).setCValid c false)

/-- BUILD c (R145). -/
def execBuild (c : Channel) (s : State) : Host.Outcome State Fault Refusal :=
  complete s (cmdBuild c s)

end Sys2Proof.Machine
end

