-- ==== Sys2Proof/Machine/Dispatch.lean ====
section
/-! DEFINITION. `exec`: one arm per command, each a call of its meaning (30_encoding.md R121). -/

namespace Sys2Proof.Machine

/-- The completion step of a command, on a state whose PEND holds its word (R121). -/
def exec (i : Instr) (s : State) : Host.Outcome State Fault Refusal :=
  match i with
  | .nop => Sys2Proof.Machine.execNop s
  | .sreset => Sys2Proof.Machine.execSreset s
  | .clrerr => Sys2Proof.Machine.execClrerr s
  | .build c => Sys2Proof.Machine.execBuild c s
  | .assign c => Sys2Proof.Machine.execAssign c s
  | .wrlt c => Sys2Proof.Machine.execWrlt c s
  | .rdlt c => Sys2Proof.Machine.execRdlt c s
  | .encsym c y => Sys2Proof.Machine.execEncsym c y s
  | .encpx pr pg pb => Sys2Proof.Machine.execEncpx pr pg pb s
  | .flush => Sys2Proof.Machine.execFlush s
  | .decsym c => Sys2Proof.Machine.execDecsym c s
  | .decpx => Sys2Proof.Machine.execDecpx s
  | .hdrw => Sys2Proof.Machine.execHdrw s
  | .hdrr => Sys2Proof.Machine.execHdrr s

end Sys2Proof.Machine
end

