-- ==== Sys2Proof/WellFormed.lean ====
section
/-! DEFINITION. Well-formedness. The operand types of `Instr` admit only what R111 to R115 admit, so
every term of `Instr` is well formed; what can be ill formed is a command WORD. `legal` is the total
function Legal(w) of 30_encoding.md R117, written from that rule and not from the decoder, as three
checks: the opcode is assigned, the reserved field is zero, and CH is not 3. -/

namespace Sys2Proof.WellFormed

/-- OP, bits 31:24 (R110). -/
def op (w : Word) : BitVec 8 := w.extractLsb' 24 8

/-- CH, bits 23:22 (R112). -/
def ch (w : Word) : BitVec 2 := w.extractLsb' 22 2

/-- The opcodes of format N (R111, R116). -/
def formatNOps : List (BitVec 8) := [0x00#8, 0x01#8, 0x02#8, 0x32#8, 0x41#8, 0x50#8, 0x51#8]

/-- The opcodes of format C (R112, R116). -/
def formatCOps : List (BitVec 8) := [0x10#8, 0x11#8, 0x20#8, 0x21#8, 0x40#8]

/-- The opcode of format CS, ENCSYM (R113). -/
def formatCSOp : BitVec 8 := 0x30#8

/-- The opcode of format P, ENCPX (R114). -/
def formatPOp : BitVec 8 := 0x31#8

/-- First check: OP stands in the table of R116. -/
def opcodeAssigned (w : Word) : Bool :=
  formatNOps.contains (op w) || formatCOps.contains (op w) || op w == formatCSOp || op w == formatPOp

/-- Second check: the reserved bits of the word's format are zero (R111 to R114). -/
def reservedZero (w : Word) : Bool :=
  if formatNOps.contains (op w) then w.extractLsb' 0 24 == 0#24
  else if formatCOps.contains (op w) then w.extractLsb' 0 22 == 0#22
  else if op w == formatCSOp then w.extractLsb' 8 14 == 0#14
  else true

/-- Third check: where the format has a channel, CH names one (R112, R113). -/
def channelLegal (w : Word) : Bool :=
  if formatCOps.contains (op w) || op w == formatCSOp then ch w != 3#2 else true

/-- Legal(w) of R117. -/
def legal (w : Word) : Bool := opcodeAssigned w && reservedZero w && channelLegal w

end Sys2Proof.WellFormed
end

