-- ==== Sys2Proof/Decode.lean ====
section
/-! DEFINITION. The decoder, total on every 32-bit word and rejecting by name, the encoder, and the
opcode table's rows (30_encoding.md R110 to R119). Both are written from the format tables of
R111 to R114 and the opcode map of R116. The smallest unit of a command is the word: it reaches the
block as one host write (R98), so no byte order arises (20_memory.md R91). -/

namespace Sys2Proof

/-- Why a word is no command. Every one of them is executed as IllegalCommand (R118, R121). -/
inductive DecodeReject where
  /-- OP is one of the 242 values outside the table of R116 -/
  | reservedOpcode (op : BitVec 8)
  /-- a reserved bit of the word's format is 1 -/
  | reservedBits
  /-- CH = 3 -/
  | illegalChannel
deriving DecidableEq, Repr

/-- CH to channel; 3 names none (R112). -/
def channelOfBits (ch : BitVec 2) : Option Channel :=
  match ch.toNat with
  | 0 => some .r
  | 1 => some .g
  | 2 => some .b
  | _ => none

/-- Channel to CH (R112). -/
def channelBits : Channel → BitVec 2
  | .r => 0#2
  | .g => 1#2
  | .b => 2#2

/-- Format N: bits 23:0 must be 0 (R111). -/
def decodeN (w : Word) (i : Instr) : Except DecodeReject Instr :=
  if w.extractLsb' 0 24 = 0#24 then .ok i else .error .reservedBits

/-- Format C: CH in bits 23:22, bits 21:0 must be 0 (R112). -/
def decodeC (w : Word) (mk : Channel → Instr) : Except DecodeReject Instr :=
  match channelOfBits (w.extractLsb' 22 2) with
  | none => .error .illegalChannel
  | some c => if w.extractLsb' 0 22 = 0#22 then .ok (mk c) else .error .reservedBits

/-- Format CS: CH in bits 23:22, bits 21:8 must be 0, SYM in bits 7:0 (R113). -/
def decodeCS (w : Word) (mk : Channel → Symbol → Instr) : Except DecodeReject Instr :=
  match channelOfBits (w.extractLsb' 22 2) with
  | none => .error .illegalChannel
  | some c =>
    if w.extractLsb' 8 14 = 0#14 then .ok (mk c (w.extractLsb' 0 8)) else .error .reservedBits

/-- Format P: PR in bits 23:16, PG in bits 15:8, PB in bits 7:0, no reserved bit (R114). -/
def decodeP (w : Word) (mk : Symbol → Symbol → Symbol → Instr) : Except DecodeReject Instr :=
  .ok (mk (w.extractLsb' 16 8) (w.extractLsb' 8 8) (w.extractLsb' 0 8))

/-- The decoder: OP alone selects the command and its format (R110, R116). -/
def decode (w : Word) : Except DecodeReject Instr :=
  match (w.extractLsb' 24 8).toNat with
  | 0x00 => decodeN w .nop
  | 0x01 => decodeN w .sreset
  | 0x02 => decodeN w .clrerr
  | 0x10 => decodeC w .build
  | 0x11 => decodeC w .assign
  | 0x20 => decodeC w .wrlt
  | 0x21 => decodeC w .rdlt
  | 0x30 => decodeCS w .encsym
  | 0x31 => decodeP w .encpx
  | 0x32 => decodeN w .flush
  | 0x40 => decodeC w .decsym
  | 0x41 => decodeN w .decpx
  | 0x50 => decodeN w .hdrw
  | 0x51 => decodeN w .hdrr
  | _ => .error (.reservedOpcode (w.extractLsb' 24 8))

/-- A word of format N (R111). -/
def encodeN (op : BitVec 8) : Word := op ++ 0#24

/-- A word of format C (R112). -/
def encodeC (op : BitVec 8) (c : Channel) : Word := op ++ channelBits c ++ 0#22

/-- A word of format CS (R113). -/
def encodeCS (op : BitVec 8) (c : Channel) (y : Symbol) : Word := op ++ channelBits c ++ 0#14 ++ y

/-- A word of format P (R114). -/
def encodeP (op : BitVec 8) (pr pg pb : Symbol) : Word := op ++ pr ++ pg ++ pb

/-- The encoder: every operand in its field and every reserved field 0 (R116, R122). -/
def encode : Instr → Word
  | .nop => encodeN 0x00#8
  | .sreset => encodeN 0x01#8
  | .clrerr => encodeN 0x02#8
  | .build c => encodeC 0x10#8 c
  | .assign c => encodeC 0x11#8 c
  | .wrlt c => encodeC 0x20#8 c
  | .rdlt c => encodeC 0x21#8 c
  | .encsym c y => encodeCS 0x30#8 c y
  | .encpx pr pg pb => encodeP 0x31#8 pr pg pb
  | .flush => encodeN 0x32#8
  | .decsym c => encodeC 0x40#8 c
  | .decpx => encodeN 0x41#8
  | .hdrw => encodeN 0x50#8
  | .hdrr => encodeN 0x51#8

/-- One row of the opcode map of R116: a word matches when `w &&& mask = pattern`. -/
structure OpcodeRow where
  mnemonic : String
  pattern : Word
  mask : Word
deriving DecidableEq, Repr

/-- The opcode map of R116, row by row as the spec prints it. -/
def opcodeRows : List OpcodeRow :=
  [⟨"NOP", 0x00000000#32, 0xFFFFFFFF#32⟩, ⟨"SRESET", 0x01000000#32, 0xFFFFFFFF#32⟩,
   ⟨"CLRERR", 0x02000000#32, 0xFFFFFFFF#32⟩, ⟨"BUILD", 0x10000000#32, 0xFF3FFFFF#32⟩,
   ⟨"ASSIGN", 0x11000000#32, 0xFF3FFFFF#32⟩, ⟨"WRLT", 0x20000000#32, 0xFF3FFFFF#32⟩,
   ⟨"RDLT", 0x21000000#32, 0xFF3FFFFF#32⟩, ⟨"ENCSYM", 0x30000000#32, 0xFF3FFF00#32⟩,
   ⟨"ENCPX", 0x31000000#32, 0xFF000000#32⟩, ⟨"FLUSH", 0x32000000#32, 0xFFFFFFFF#32⟩,
   ⟨"DECSYM", 0x40000000#32, 0xFF3FFFFF#32⟩, ⟨"DECPX", 0x41000000#32, 0xFFFFFFFF#32⟩,
   ⟨"HDRW", 0x50000000#32, 0xFFFFFFFF#32⟩, ⟨"HDRR", 0x51000000#32, 0xFFFFFFFF#32⟩]

/-- The name R116 gives a command. -/
def mnemonicOf : Instr → String
  | .nop => "NOP"
  | .sreset => "SRESET"
  | .clrerr => "CLRERR"
  | .build _ => "BUILD"
  | .assign _ => "ASSIGN"
  | .wrlt _ => "WRLT"
  | .rdlt _ => "RDLT"
  | .encsym _ _ => "ENCSYM"
  | .encpx _ _ _ => "ENCPX"
  | .flush => "FLUSH"
  | .decsym _ => "DECSYM"
  | .decpx => "DECPX"
  | .hdrw => "HDRW"
  | .hdrr => "HDRR"

/-- What the decoder reads from an instruction of `nbits` bits given as a number, numbered as the
opcode table numbers them. Every command is one 32-bit word (R110, R119). -/
def decodeTableWord (nbits w : Nat) : Option Instr :=
  match decode (BitVec.ofNat 32 (w % 2 ^ nbits)) with
  | .ok i => some i
  | .error _ => none

end Sys2Proof
end

