-- ==== Sys2Proof/Machine/HostBus.lean ====
section
/-! DEFINITION. What the host does to the block: bus reads and writes, command acceptance, the stream
ports and power-on reset (20_memory.md R80 to R88, 30_encoding.md R120, 60_exceptions.md R300,
70_reset_and_hazards.md R311). Each is one event of the total order of R95. -/

namespace Sys2Proof.Machine

/-- What an address reads as while BUSY = 0 (R82, R83), and at the five addresses of R85 always. -/
def busValue (s : State) (wa : WordAddr) : Word :=
  match busTarget wa with
  | .cmd => 0#32
  | .status => statusWord s
  | .errCode => BitVec.setWidth 32 s.errCode
  | .errCmd => s.errCmd
  | .errAddr => BitVec.setWidth 32 s.errAddr
  | .width => BitVec.setWidth 32 s.width
  | .height => BitVec.setWidth 32 s.height
  | .result => BitVec.setWidth 32 s.result
  | .pack => packWord s
  | .inptr => BitVec.ofNat 32 s.inptr
  | .inbit => BitVec.setWidth 32 s.inbit
  | .id => Config.idValue
  | .freq c y => s.freqAt c y
  | .len c y => BitVec.setWidth 32 (s.lenAt c y)
  | .code c y j => (s.codeAt c y).extractLsb' (32 * j) 32
  | .reserved => 0#32

/-- The addresses that read exactly while BUSY = 1: STATUS, ERRCODE, ERRCMD, ERRADDR and ID (R85). -/
def exactWhileBusy (wa : WordAddr) : Bool :=
  match busTarget wa with
  | .status | .errCode | .errCmd | .errAddr | .id => true
  | .cmd | .width | .height | .result | .pack | .inptr | .inbit | .freq _ _ | .len _ _ | .code _ _ _
  | .reserved => false

/-- Acceptance of a command word written to CMD while BUSY = 0 (R120): while an error is latched every
word but the exact SRESET and CLRERR is discarded. -/
def accept (w : Word) (s : State) : State :=
  if !noError s && !acceptedInError w then s else { s with pend := w, busy := true }

/-- A host write (R82 to R84): while BUSY = 1 it is dropped and latches Overrun; otherwise it has the
effect of its address. -/
def hostWrite (wa : WordAddr) (v : Word) (s : State) : State :=
  if s.busy then latchOverrun wa s
  else
    match busTarget wa with
    | .cmd => accept v s
    | .width => { s with width := v.extractLsb' 0 16 }
    | .height => { s with height := v.extractLsb' 0 16 }
    | .freq c y => s.setFreqAt c y v
    | .len c y => (s.setLenAt c y (v.extractLsb' 0 8)).setCValid c false
    | .status | .errCode | .errCmd | .errAddr | .result | .pack | .inptr | .inbit | .id
    | .code _ _ _ | .reserved => s

/-- The host has read a word: its side alone changes, no read touches the block (R94). -/
def recordRead (wa : WordAddr) (v : Word) (s : State) : State :=
  { s with host := { s.host with reads := s.host.reads ++ [⟨wa, v⟩] } }

/-- The next free draw has been made (R85). -/
def countDraw (s : State) : State := { s with host := { s.host with draws := s.host.draws + 1 } }

/-- A host read (R82, R83, R85): while BUSY = 1 an address outside the five returns a free draw. -/
def hostRead (wa : WordAddr) (s : State) : State :=
  if s.busy && !exactWhileBusy wa then countDraw (recordRead wa (Config.freeRead s.host.draws) s)
  else recordRead wa (busValue s wa) s

/-- The host delivers a byte on IN (R45, R86); after the end of the input the port takes none, and
there is no such move (R300, 93_implementation_defined.md I10). -/
def hostDeliver (x : Byte) (s : State) : Host.Outcome State Fault Refusal :=
  if s.eos then .refused .deliveryAfterEndOfInput else .next { s with inbuf := s.inbuf ++ [x] }

/-- The host ends the input (R45, R86). -/
def hostEndInput (s : State) : State := { s with eos := true }

/-- The host receives the next byte of OUT it has not yet had, where there is one; the block does
nothing (R86, R300). -/
def hostReceive (s : State) : State :=
  match s.out[s.host.taken]? with
  | none => s
  | some x =>
    { s with host := { s.host with taken := s.host.taken + 1, received := s.host.received ++ [x] } }

/-- Power-on reset, at any time: the command in flight is abandoned with none of its effects (R311). -/
def powerOnReset (s : State) : State := resetBlock s

/-- The word the core executes on its turn: PEND while BUSY = 1, nothing otherwise (R33, R121). -/
def wordInFlight (s : State) : Option Word := if s.busy then some s.pend else none

/-- A word that is no legal command is executed as IllegalCommand (R117, R118, R121). -/
def execIllegal (s : State) : Host.Outcome State Fault Refusal := complete s (.err .illegalCommand)

/-- The event is taken from those to come. -/
def consumeEvent (s : State) (rest : List Event) : State :=
  { s with host := { s.host with pending := rest } }

/-- The next event to come is the core's turn: the queue says so, or the host does nothing more
(R95; log entry 1). -/
def coreIsNext (s : State) : Bool :=
  match s.host.pending with
  | [] => true
  | .coreTurn :: _ => true
  | _ => false

/-- The host wrote the word to CMD, the core accepted it, and the core is next (log entry 2). -/
def placeCommand (s : State) (w : Word) : State :=
  { s with
    pend := w
    busy := true
    host := if coreIsNext s then s.host else { s.host with pending := .coreTurn :: s.host.pending } }

end Sys2Proof.Machine
end

