-- ==== Sys2Proof/Machine/Step.lean ====
section
/-! DEFINITION. One step: the next event of the total order of 20_memory.md R95, a move of the host or
the core's turn (30_encoding.md R121). -/

namespace Sys2Proof.Machine

/-- The core's turn: the completion step of the command in flight; an idle core does nothing (R121,
R297). -/
def coreStep (s : State) : Host.Outcome State Fault Refusal :=
  match wordInFlight s with
  | none => .next s
  | some w =>
    match decode w with
    | .ok i => exec i s
    | .error _ => execIllegal s

/-- One event: the earliest of those to come, and the core's turn when none is to come (log entry 1). -/
def step (s : State) : Host.Outcome State Fault Refusal :=
  match s.host.pending with
  | [] => coreStep s
  | .coreTurn :: rest => coreStep (consumeEvent s rest)
  | .write wa v :: rest => .next (hostWrite wa v (consumeEvent s rest))
  | .read wa :: rest => .next (hostRead wa (consumeEvent s rest))
  | .deliver x :: rest => hostDeliver x (consumeEvent s rest)
  | .endInput :: rest => .next (hostEndInput (consumeEvent s rest))
  | .receive :: rest => .next (hostReceive (consumeEvent s rest))
  | .powerOnReset :: rest => .next (powerOnReset (consumeEvent s rest))

/-- The state with a command word of `nbits` bits placed where the core takes its next command: in
PEND with BUSY = 1, and the core's turn next (R33, R120; log entry 2). -/
def State.withFetchWord (s : State) (nbits w : Nat) : State :=
  placeCommand s (BitVec.ofNat 32 (w % 2 ^ nbits))

end Sys2Proof.Machine
end

