-- ==== Sys2Proof/Machine/HostProgram.lean ====
section
/-! DEFINITION. The host-program notation of 30_encoding.md R123, what a run of such a program is, and the
encode and decode programs of 45_container.md R247 and R248 with their results (R250). The block runs
none of this: the host does all control flow (R124). See log entry 15 for the liberties of a host that
these definitions fix, and log entry 24 for the result of a run. -/

namespace Sys2Proof.Machine

/-! ### Notation -/

/-- The word address of a byte address written as a number (R80). -/
def wordAddr (a : Nat) : WordAddr := BitVec.ofNat 14 (a / 4)

/-- One line of a host program (R123). -/
inductive HostOp where
  /-- `wr A, V` -/
  | wr (a : Nat) (v : Word)
  /-- `rd A` -/
  | rd (a : Nat)
  /-- `wait`: polls of STATUS until one reads BUSY = 0 -/
  | wait
  /-- `chk`: ERRCODE is read, and the program stops with failure where it is not 0 -/
  | chk
  /-- `in` and `eos`, now -/
  | give (es : List Event)
  /-- `in` and `eos` overlapping the commands below: each of these is given when a command holds -/
  | later (es : List Event)
deriving DecidableEq, Repr

/-- `cmd X` (R123). -/
def cmd (i : Instr) : List HostOp := [.wr 0x0000 (encode i), .wait]

/-- `freq c, s, V` (R123). -/
def freqWr (c : Channel) (y : Symbol) (v : Word) : HostOp :=
  .wr (0x1000 + 0x400 * channelNumber c + 4 * y.toNat) v

/-- `len c, s, V` (R123). -/
def lenWr (c : Channel) (y : Symbol) (v : Word) : HostOp :=
  .wr (0x2000 + 0x400 * channelNumber c + 4 * y.toNat) v

/-- `in b0, b1, ... ; eos` (R123). -/
def inputEvents (xs : List Byte) : List Event := xs.map .deliver ++ [.endInput]

/-! ### Runs -/

/-- A run of a host program, as far as it has come (45_container.md R250). -/
structure HostRun where
  /-- the machine -/
  state : State
  /-- how many words the host had read before the run; reads of earlier runs are not this run's -/
  before : Nat
  /-- the input the host still has to give -/
  later : List Event
  /-- the first error latched in the run, whatever became of the latch since (60_exceptions.md R298) -/
  latched : Option (BitVec 4)
  /-- the ERRCODE that a `chk` read, where one failed: the program has stopped -/
  stopped : Option (BitVec 4)
  /-- no STATUS read of the run has shown BUSY = 0 since the last word written to CMD, or the last one
  showed BUSY = 1 -/
  awaiting : Bool
  /-- the program does not go on: a `wait` with no input left to give sees BUSY = 1 forever, or a move
  of the host has no transition -/
  blocked : Bool
deriving DecidableEq, Repr

namespace HostRun

/-- A run begins: the host's moves from here on are the program's. -/
def start (s : State) : HostRun where
  state := { s with host := { s.host with pending := [] } }
  before := s.host.reads.length
  later := []
  latched := none
  stopped := none
  awaiting := true
  blocked := false

/-- What the host read in this run, the oldest first. -/
def reads (r : HostRun) : List BusRead := r.state.host.reads.drop r.before

/-- The words read at an address in this run, the oldest first. -/
def readsAt (r : HostRun) (a : Nat) : List Word :=
  (r.reads.filter fun x => x.addr == wordAddr a).map BusRead.data

/-- The last word read at an address in this run. -/
def readAt? (r : HostRun) (a : Nat) : Option Word := (r.readsAt a).getLast?

/-- The run's first latched error after a step from s to t: the latch was free and is taken
(60_exceptions.md R284). -/
def noteLatch (first : Option (BitVec 4)) (s t : State) : Option (BitVec 4) :=
  match first with
  | some e => some e
  | none => if s.errCode = 0#4 ∧ t.errCode ≠ 0#4 then some t.errCode else none

/-- Whether the host still awaits BUSY = 0 after a move that left the machine at t (R250): a write to CMD
makes it so, and a read of STATUS settles it by the word read. -/
def noteAwait (awaiting : Bool) (e : Event) (t : State) : Bool :=
  match e with
  | .write wa _ => awaiting || wa == wordAddr 0x0000
  | .read wa =>
    if wa = wordAddr 0x0004 then
      match t.host.reads.getLast? with
      | some x => x.data.getLsbD 0
      | none => awaiting
    else awaiting
  | .deliver _ | .endInput | .receive | .powerOnReset | .coreTurn => awaiting

/-- One event of the run, any the host or the core may make: one step of the machine. -/
def event (e : Event) (r : HostRun) : HostRun :=
  match step { r.state with host := { r.state.host with pending := [e] } } with
  | .next t =>
    { r with
      state := t
      latched := noteLatch r.latched r.state t
      awaiting := noteAwait r.awaiting e t }
  | .fault _ => { r with blocked := true }
  | .refused _ => { r with blocked := true }

/-- Events of the run, one after another. -/
def events (es : List Event) (r : HostRun) : HostRun := es.foldl (fun q e => q.event e) r

/-- The core's turn, and the host's read of STATUS after it. -/
def poll (r : HostRun) : HostRun := (r.event .coreTurn).event (.read (wordAddr 0x0004))

/-- t[0] of `wait`: BUSY in the last STATUS word the host read in this run (R123). -/
def busyRead (r : HostRun) : Bool :=
  match r.readAt? 0x0004 with
  | some t => t.getLsbD 0
  | none => true

/-- `wait`, with this input left to give (R123): polls until one reads t[0] = 0, whatever command is in
flight and whichever run wrote it. A poll that reads t[0] = 1 was of a command that holds (20_memory.md
R87), so the next input is given, and with none left the run goes on forever (R250). -/
def waitFor : List Event → HostRun → HostRun
  | [], r => { r.poll with later := [], blocked := r.poll.blocked || r.poll.busyRead }
  | e :: es, r =>
    if r.poll.busyRead then waitFor es (r.poll.event e) else { r.poll with later := e :: es }

/-- `chk` (R123). -/
def check (r : HostRun) : HostRun :=
  let q := r.event (.read (wordAddr 0x0008))
  match q.readAt? 0x0008 with
  | none => q
  | some v => if v = 0#32 then q else { q with stopped := some (v.extractLsb' 0 4) }

/-- One line of the program, where it has not stopped. -/
def op (r : HostRun) (o : HostOp) : HostRun :=
  if r.blocked || r.stopped.isSome then r
  else
    match o with
    | .wr a v => r.event (.write (wordAddr a) v)
    | .rd a => r.event (.read (wordAddr a))
    | .wait => waitFor r.later r
    | .chk => r.check
    | .give es => r.events es
    | .later es => { r with later := r.later ++ es }

/-- The lines of a program in order. -/
def ops (os : List HostOp) (r : HostRun) : HostRun := os.foldl HostRun.op r

/-- The run has ended: the host has read STATUS with BUSY = 0 after the last word it wrote to CMD (R250). -/
def ended (r : HostRun) : Bool := !r.blocked && !r.awaiting

/-- The error the run has failed with: the first it latched, whether or not the host read it or cleared
it (60_exceptions.md R298), or else the one a `chk` found (R248). -/
def failure (r : HostRun) : Option (BitVec 4) :=
  match r.latched with
  | some e => some e
  | none => r.stopped

end HostRun

/-! ### Images -/

/-- One pixel: its red, green and blue symbols. -/
structure Pixel where
  r : Symbol
  g : Symbol
  b : Symbol
deriving DecidableEq, Repr

/-- The value of one channel of a pixel. -/
def Pixel.channel (p : Pixel) : Channel → Symbol
  | .r => p.r
  | .g => p.g
  | .b => p.b

/-- A pixel from the word RESULT reads as: R in 23:16, G in 15:8, B in 7:0 (R248). -/
def pixelOfWord (w : Word) : Pixel := ⟨w.extractLsb' 16 8, w.extractLsb' 8 8, w.extractLsb' 0 8⟩

/-- Pixel index i is the pixel at x = i mod width, y = i / width (R241). -/
def rowMajor (width height : Nat) (grid : Nat → Nat → Pixel) : List Pixel :=
  (List.range (width * height)).map fun i => grid (i % width) (i / width)

/-- The zero-size guard of R242: these lines for an image with pixels, none for one of width or height
0. -/
def unlessEmpty (w h : BitVec 16) (os : List HostOp) : List HostOp :=
  if w = 0#16 ∨ h = 0#16 then [] else os

/-! ### Encode -/

/-- F_c[s]: how many pixels have the value s in channel c (R247). -/
def frequency (px : List Pixel) (c : Channel) (y : Symbol) : Nat :=
  px.countP fun p => p.channel c == y

/-- The writes of the nonzero counts (R247). -/
def freqProgram (px : List Pixel) : List HostOp :=
  allChannels.flatMap fun c =>
    (allSymbols.filter fun y => frequency px c y != 0).map fun y =>
      freqWr c y (BitVec.ofNat 32 (frequency px c y))

/-- The pixel commands of an encode (R242, R247). -/
def pixelCommands (w h : BitVec 16) (px : List Pixel) : List HostOp :=
  unlessEmpty w h (px.flatMap fun p => cmd (.encpx p.r p.g p.b))

/-- The encode program of R247, for the pixels in row-major order. -/
def encodeProgram (w h : BitVec 16) (px : List Pixel) : List HostOp :=
  cmd .sreset ++ freqProgram px ++ allChannels.flatMap (fun c => cmd (.build c)) ++
    allChannels.flatMap (fun c => cmd (.assign c)) ++
    [.wr 0x0014 (BitVec.setWidth 32 w), .wr 0x0018 (BitVec.setWidth 32 h)] ++
    cmd .hdrw ++ allChannels.flatMap (fun c => cmd (.wrlt c)) ++
    pixelCommands w h px ++ cmd .flush ++ [.chk]

/-- The run of the encode program from any state of the machine (R247). -/
def encodeRun (w h : BitVec 16) (px : List Pixel) (s : State) : HostRun :=
  (HostRun.start s).ops (encodeProgram w h px)

/-- What an encode that has ended returns (R250). -/
inductive EncodeResult where
  /-- OUT -/
  | container (bytes : List Byte)
  /-- the latched ERRCODE -/
  | failed (e : BitVec 4)
deriving DecidableEq, Repr

/-- The result of a run of the encode program; none while it has not ended (R250). -/
def encodeResult (r : HostRun) : Option EncodeResult :=
  if r.ended then
    match r.failure with
    | some e => some (.failed e)
    | none => some (.container r.state.out)
  else none

/-- encode(grid) (R247, R250, R252). -/
def encodeImage (w h : BitVec 16) (px : List Pixel) (s : State) : Option EncodeResult :=
  encodeResult (encodeRun w h px s)

/-! ### Decode -/

/-- The beginning of the decode program for the container d (R248): the host gives so many of its input
events ahead and the others while commands hold. -/
def decodeHeader (d : List Byte) (ahead : Nat) : List HostOp :=
  cmd .sreset ++ [.give ((inputEvents d).take ahead), .later ((inputEvents d).drop ahead)] ++
    cmd .hdrr ++ [.chk, .rd 0x0014, .rd 0x0018]

/-- The tables and codes of the decode program (R248). -/
def decodeTables : List HostOp :=
  allChannels.flatMap (fun c => cmd (.rdlt c)) ++ [.chk] ++
    allChannels.flatMap (fun c => cmd (.assign c)) ++ [.chk]

/-- The pixels of the decode program: W*H of them, and none where W or H is 0 (R242, R248). -/
def decodePixels (w h : BitVec 16) : List HostOp :=
  unlessEmpty w h ((List.range (w.toNat * h.toNat)).flatMap fun _ => cmd .decpx ++ [.chk, .rd 0x001C])

/-- WIDTH and HEIGHT as the host read them in this run (R248). -/
def sizeRead? (r : HostRun) : Option (BitVec 16 × BitVec 16) :=
  match r.readAt? 0x0014, r.readAt? 0x0018 with
  | some w, some h => some (w.extractLsb' 0 16, h.extractLsb' 0 16)
  | _, _ => none

/-- The pixels of the decode program once the host has read the size (R248). -/
def decodeSized (r : HostRun) : HostRun :=
  match sizeRead? r with
  | some (w, h) => r.ops (decodePixels w h)
  | none => r

/-- The run of the decode program from any state of the machine (R248). The number of DECPX is the W*H
that the host read. -/
def decodeRun (d : List Byte) (ahead : Nat) (s : State) : HostRun :=
  decodeSized (((HostRun.start s).ops (decodeHeader d ahead)).ops decodeTables)

/-- What a decode that has ended returns (R248, R250). -/
inductive DecodeResult where
  /-- W, H and the pixels P_i in order -/
  | image (w h : BitVec 16) (px : List Pixel)
  /-- the latched ERRCODE; every pixel already read is discarded -/
  | failed (e : BitVec 4)
deriving DecidableEq, Repr

/-- The result of a decode: of the run of R248, or of any other run that reads WIDTH, HEIGHT and W*H
pixels. None while it has not ended, its last pixel included; failed where it latched any error,
whatever the host did next (R248, R250; 60_exceptions.md R298). -/
def decodeResult (r : HostRun) : Option DecodeResult :=
  if r.ended then
    match r.failure with
    | some e => some (.failed e)
    | none =>
      match sizeRead? r with
      | some (w, h) =>
        if (r.readsAt 0x001C).length = w.toNat * h.toNat then
          some (.image w h ((r.readsAt 0x001C).map pixelOfWord))
        else none
      | none => none
  else none

/-- decode(container) (R248, R250). -/
def decodeImage (d : List Byte) (ahead : Nat) (s : State) : Option DecodeResult :=
  decodeResult (decodeRun d ahead s)

end Sys2Proof.Machine
end

