-- ==== Sys2Proof/Safety.lean ====
section
/-! DEFINITION. The terms the statements use: bit strings of codes and streams, the Kraft sum,
prefix-freeness, what a failed command leaves, and the invariant of reachable states. -/

namespace Sys2Proof.Safety

open Sys2Proof.Machine

/-- The bits of a byte, bit 7 first (20_memory.md R90). -/
def byteBits (x : Byte) : List Bool := (List.range 8).map fun i => x.getLsbD (7 - i)

/-- The bits of a byte sequence in stream order (R90). -/
def bitsOf (xs : List Byte) : List Bool := xs.flatMap byteBits

/-- The l-bit string of v: its l low bits, most significant first (41_canonical.md R165). -/
def lowBits (v l : Nat) : List Bool := (List.range l).map fun i => v.testBit (l - 1 - i)

/-- The code of symbol y of channel c as the bit string it is (10_state.md R52, R165). -/
def codeString (s : State) (c : Channel) (y : Symbol) : List Bool :=
  lowBits (s.codeNat c y) (s.lenNat c y)

/-- Everything packed so far: the bits of OUT and the valid bits of ACC (10_state.md R42). -/
def packedBits (s : State) : List Bool := bitsOf s.out ++ lowBits s.acc.toNat s.cnt.toNat

/-- The delivered bits the reader has not consumed (10_state.md R43). -/
def unreadBits (s : State) : List Bool := (bitsOf (s.inbuf.drop s.inptr)).drop s.inbit.toNat

/-- 2^255 times the Kraft sum of a length table (41_canonical.md R163): every length is at most 255,
so the multiple is exact. -/
def kraft (t : Table (BitVec 8)) : Nat :=
  (allSymbols.map fun y =>
    if (Table.get t y).toNat = 0 then 0 else 2 ^ (255 - (Table.get t y).toNat)).sum

/-- The pair (len z, z) comes before (len y, y) in the order of R161. -/
def pairBefore (t : Table (BitVec 8)) (z y : Symbol) : Bool :=
  decide ((Table.get t z).toNat < (Table.get t y).toNat) ||
    ((Table.get t z).toNat == (Table.get t y).toNat && decide (z.toNat < y.toNat))

/-- The canonical code of y in closed form (R163): the sum of 2^(l_y - l_z) over the coded symbols z
before y. -/
def canonicalSum (t : Table (BitVec 8)) (y : Symbol) : Nat :=
  (allSymbols.map fun z =>
    if (Table.get t z).toNat ≠ 0 ∧ pairBefore t z y = true then
      2 ^ ((Table.get t y).toNat - (Table.get t z).toNat)
    else 0).sum

/-- No code of the coded symbols of channel c begins another (41_canonical.md R166). -/
def CodesPrefixFree (s : State) (c : Channel) : Prop :=
  ∀ y z : Symbol, y ≠ z → s.lenNat c y ≠ 0 → s.lenNat c z ≠ 0 →
    ¬ codeString s c y <+: codeString s c z

/-- Codes of equal length, in symbol order, are strictly increasing (R166). -/
def CodesIncrease (s : State) (c : Channel) : Prop :=
  ∀ y z : Symbol, s.lenNat c y ≠ 0 → s.lenNat c y = s.lenNat c z → y.toNat < z.toNat →
    s.codeNat c y < s.codeNat c z

/-- The weighted length Σ FREQ[s] * l(s) (40_tree_builder.md R148). -/
def weightedLength (f : Table Word) (l : Symbol → Nat) : Nat :=
  (allSymbols.map fun y => (Table.get f y).toNat * l y).sum

/-- What a command that raises the error with this code leaves (60_exceptions.md R283, R284): the latch
written when it was free, BUSY cleared, all else as it was. -/
def failedState (code : BitVec 4) (s : State) : State :=
  if s.errCode = 0#4 then
    { s with errCode := code, errCmd := s.pend, errAddr := 0#16, busy := false }
  else { s with busy := false }

/-- What a host write at this byte address leaves while BUSY = 1 (20_memory.md R84). -/
def overrunState (a : ByteAddr) (s : State) : State :=
  if s.errCode = 0#4 then { s with errCode := 10#4, errCmd := 0#32, errAddr := a } else s

/-- Commands executed one after another, each from the state the one before it left. -/
def execAll : List Instr → State → Host.Outcome State Fault Refusal
  | [], s => .next s
  | i :: is, s =>
    match exec i s with
    | .next t => execAll is t
    | .fault r => .fault r
    | .refused r => .refused r

/-- The codes a command can latch (60_exceptions.md R282); IllegalCommand is raised for words that are
no command, before any command is executed. -/
def listedErrors : Instr → List (BitVec 4)
  | .nop | .sreset | .clrerr | .build _ | .flush => []
  | .assign _ => [5#4]
  | .wrlt _ | .hdrw => [8#4]
  | .rdlt _ => [8#4, 2#4]
  | .hdrr => [8#4, 1#4]
  | .encsym _ _ | .encpx _ _ _ => [7#4, 6#4]
  | .decsym _ | .decpx => [7#4, 4#4, 3#4]

/-- The invariant of the states a run can reach. -/
structure Inv (s : State) : Prop where
  /-- R42: ACC < 2^CNT -/
  acc_lt : s.acc.toNat < 2 ^ s.cnt.toNat
  /-- R221: INPTR ≤ |INBUF| -/
  inptr_le : s.inptr ≤ s.inbuf.length
  /-- R221: INBIT > 0 implies INPTR < |INBUF| -/
  inbit_lt : s.inbit ≠ 0#3 → s.inptr < s.inbuf.length
  /-- R281: codes 11 to 15 are never latched -/
  err_le : s.errCode.toNat ≤ 10
  /-- R36 to R38: with no error latched nothing is recorded -/
  err_clear : s.errCode = 0#4 → s.errCmd = 0#32
  /-- R38: only an Overrun records an address -/
  err_addr : s.errCode ≠ 10#4 → s.errAddr = 0#16
  /-- R37: an Overrun records no command word -/
  err_overrun : s.errCode = 10#4 → s.errCmd = 0#32
  /-- R120: with an error latched, the command in flight is an accepted SRESET or CLRERR, or the error
  is an Overrun latched while it was in flight -/
  err_flight : s.busy = true → s.errCode ≠ 0#4 → s.errCode = 10#4 ∨ acceptedInError s.pend = true
  /-- R53: valid codes are the canonical codes of the current lengths -/
  valid_codes : ∀ c, s.cvalidAt c = true → canonicalTable (s.len.get c) = some (s.code.get c)
  /-- the host has received no byte that was not emitted -/
  taken_le : s.host.taken ≤ s.out.length

end Sys2Proof.Safety
end

