-- ==== Sys2Proof/Certificates/Slice0/Obligations.lean ====
section
/-! DEFINITION. The statements about the machine, from the numbered rules of the spec. `t` is the state
a command or event leaves; `t = { s with ... }` says that every field it does not name is unchanged. -/

open Sys2Proof Sys2Proof.Machine Sys2Proof.Safety

/-! ### Encoding -/

/-- 30_encoding.md R111 to R116: the decoder gives back every command the encoder writes, with every
operand at every value. -/
def Obligations.DecodeInvertsEncode : Prop := ∀ i : Instr, decode (encode i) = .ok i

/-- R111 to R116: a command has one word only, so the decoder drops no bit. -/
def Obligations.EncodeInvertsDecode : Prop := ∀ (w : Word) (i : Instr), decode w = .ok i → encode i = w

/-- R117: the decoder accepts exactly the legal words; and the completion step of a word that is not
legal, whatever the state it is in flight in, is IllegalCommand (R121; 60_exceptions.md R281, R283,
R284). -/
def Obligations.LegalWordsAreTheCommands : Prop :=
  (∀ w : Word, (∃ i, decode w = .ok i) ↔ WellFormed.legal w = true) ∧
  ∀ s : State, s.busy = true → WellFormed.legal s.pend = false →
    coreStep s = .next (failedState 9#4 s)

/-- R116: a word matches a row of the opcode map, CH = 3 apart, exactly when it decodes to a command
of the row's name; and every command has a row. -/
def Obligations.DecoderAgreesWithOpcodeMap : Prop :=
  (∀ r ∈ opcodeRows, ∀ w : Word,
    (w &&& r.mask = r.pattern ∧ WellFormed.channelLegal w = true) ↔
      ∃ i, decode w = .ok i ∧ mnemonicOf i = r.mnemonic) ∧
  ∀ i : Instr, ∃ r ∈ opcodeRows, r.mnemonic = mnemonicOf i

/-- Words written out from R111 to R116 and the examples of the command rules: a few of every format. -/
def Obligations.SpecWordsDecode : Prop :=
  decode 0x00000000#32 = .ok .nop ∧ decode 0x01000000#32 = .ok .sreset ∧
  decode 0x10400000#32 = .ok (.build .g) ∧ decode 0x11800000#32 = .ok (.assign .b) ∧
  decode 0x21800000#32 = .ok (.rdlt .b) ∧ decode 0x30400064#32 = .ok (.encsym .g 100#8) ∧
  decode 0x31C86432#32 = .ok (.encpx 200#8 100#8 50#8) ∧ decode 0x32000000#32 = .ok .flush ∧
  decode 0x41000000#32 = .ok .decpx ∧ decode 0x51000000#32 = .ok .hdrr ∧
  decode 0x10C00000#32 = .error .illegalChannel ∧ decode 0x30000105#32 = .error .reservedBits ∧
  decode 0x03000000#32 = .error (.reservedOpcode 3#8)

/-! ### The step -/

/-- 30_encoding.md R121, 20_memory.md R82 to R85, R95: the earliest event to come is taken and has its
effect. A write or a read of the host is `hostWrite` or `hostRead`; on the core's turn the step of a
busy machine is the completion step of the command that PEND decodes to, or IllegalCommand where it
decodes to none, and an idle core does nothing. That the events stand in a list, and that with none to
come it is the core's turn, is the model's choice (log entry 1). -/
def Obligations.StepRunsTheCommandInFlight : Prop :=
  (∀ (s : State) (i : Instr), s.busy = true → s.host.pending = [] → decode s.pend = .ok i →
    step s = exec i s) ∧
  (∀ (s : State) (i : Instr) (rest : List Event), s.busy = true →
    s.host.pending = .coreTurn :: rest → decode s.pend = .ok i →
    step s = exec i { s with host := { s.host with pending := rest } }) ∧
  (∀ s : State, s.busy = true → s.host.pending = [] → WellFormed.legal s.pend = false →
    step s = .next (failedState 9#4 s)) ∧
  (∀ (s : State) (rest : List Event), s.busy = true → s.host.pending = .coreTurn :: rest →
    WellFormed.legal s.pend = false →
    step s = .next (failedState 9#4 { s with host := { s.host with pending := rest } })) ∧
  (∀ s : State, s.busy = false → s.host.pending = [] → step s = .next s) ∧
  (∀ (s : State) (rest : List Event), s.busy = false → s.host.pending = .coreTurn :: rest →
    step s = .next { s with host := { s.host with pending := rest } }) ∧
  (∀ (s : State) (wa : WordAddr) (v : Word) (rest : List Event),
    s.host.pending = .write wa v :: rest →
    step s = .next (hostWrite wa v { s with host := { s.host with pending := rest } })) ∧
  ∀ (s : State) (wa : WordAddr) (rest : List Event), s.host.pending = .read wa :: rest →
    step s = .next (hostRead wa { s with host := { s.host with pending := rest } })

/-- 20_memory.md R86: while EOS = 0 a delivery appends its byte to INBUF, after it there is no such
move; the end of the input sets EOS; receiving takes the next byte of OUT that the host has not had. -/
def Obligations.StreamPortEvents : Prop :=
  ∀ (s : State) (rest : List Event) (x : Byte),
    (s.host.pending = .deliver x :: rest → s.eos = false →
      step s = .next { s with
        inbuf := s.inbuf ++ [x], host := { s.host with pending := rest } }) ∧
    (s.host.pending = .deliver x :: rest → s.eos = true →
      step s = .refused .deliveryAfterEndOfInput) ∧
    (s.host.pending = .endInput :: rest →
      step s = .next { s with eos := true, host := { s.host with pending := rest } }) ∧
    (s.host.pending = .receive :: rest → s.out[s.host.taken]? = some x →
      step s = .next { s with
        host := { s.host with
          pending := rest, taken := s.host.taken + 1, received := s.host.received ++ [x] } }) ∧
    (s.host.pending = .receive :: rest → s.out[s.host.taken]? = none →
      step s = .next { s with host := { s.host with pending := rest } })

/-! ### The host bus -/

/-- R120: what becomes of a word written to CMD. -/
def Obligations.CommandAcceptance : Prop :=
  ∀ (s : State) (w : Word),
    (s.busy = true → hostWrite 0#14 w s = overrunState 0#16 s) ∧
    (s.busy = false → s.errCode ≠ 0#4 → w ≠ 0x01000000#32 → w ≠ 0x02000000#32 →
      hostWrite 0#14 w s = s) ∧
    (s.busy = false → s.errCode = 0#4 ∨ w = 0x01000000#32 ∨ w = 0x02000000#32 →
      hostWrite 0#14 w s = { s with pend := w, busy := true })

/-- 60_exceptions.md R285: with an error latched every word but the exact SRESET and CLRERR written to
CMD has no effect. -/
def Obligations.ErrorsAreSticky : Prop :=
  ∀ (s : State) (w : Word), s.errCode ≠ 0#4 → w ≠ 0x01000000#32 → w ≠ 0x02000000#32 →
    hostWrite 0#14 w s = s

/-- 20_memory.md R84: a write while BUSY = 1 is dropped, at every address, and latches Overrun with its
byte address when no error is latched; the word in flight, command or not, completes or holds as it
would have, and leaves everything but the error registers as it would have left it. -/
def Obligations.WritesWhileBusyAreDropped : Prop :=
  ∀ (s : State) (wa : WordAddr) (v : Word), s.busy = true →
    hostWrite wa v s = overrunState (BitVec.ofNat 16 (4 * wa.toNat)) s ∧
    ∀ t : State, coreStep s = .next t →
      ∃ u, coreStep (hostWrite wa v s) = .next u ∧
        u = { t with errCode := u.errCode, errCmd := u.errCmd, errAddr := u.errAddr }

/-- 20_memory.md R85: a read while BUSY = 1 returns the current value at STATUS, ERRCODE, ERRCMD,
ERRADDR and ID, with BUSY reading 1, and the free draw, whatever that is, at every other address; it
changes nothing of the block. That the draw is a constant applied to a counter is the model's choice
(log entry 4), and so is the record of reads (log entry 6). -/
def Obligations.ReadsWhileBusy : Prop :=
  ∀ (s : State) (wa : WordAddr), s.busy = true →
    (wa.toNat ∈ [1, 2, 3, 4, 11] →
      hostRead wa s = { s with
        host := { s.host with reads := s.host.reads ++ [⟨wa, busValue s wa⟩] } }) ∧
    (wa.toNat ∉ [1, 2, 3, 4, 11] →
      hostRead wa s = { s with
        host := { s.host with
          reads := s.host.reads ++ [⟨wa, Config.freeRead s.host.draws⟩]
          draws := s.host.draws + 1 } }) ∧
    (busValue s 1#14).getLsbD 0 = true ∧
    busValue s 2#14 = BitVec.setWidth 32 s.errCode ∧ busValue s 3#14 = s.errCmd ∧
    busValue s 4#14 = BitVec.setWidth 32 s.errAddr ∧ busValue s 11#14 = 0x50494601#32

/-- 20_memory.md R83: while BUSY = 0 a reserved address reads 0, and a write to a reserved or read-only
address changes nothing, the error latch included. -/
def Obligations.ReservedAndReadOnlyAddresses : Prop :=
  ∀ (s : State) (wa : WordAddr) (v : Word), s.busy = false →
    let a := 4 * wa.toNat
    let reserved := (0x30 ≤ a ∧ a < 0x1000) ∨ (0x1C00 ≤ a ∧ a < 0x2000) ∨
      (0x2C00 ≤ a ∧ a < 0x4000) ∨ 0xA000 ≤ a
    let readOnly := (0x04 ≤ a ∧ a ≤ 0x10) ∨ (0x1C ≤ a ∧ a ≤ 0x2C) ∨ (0x4000 ≤ a ∧ a < 0xA000)
    (reserved → hostRead wa s =
      { s with host := { s.host with reads := s.host.reads ++ [⟨wa, 0#32⟩] } }) ∧
    (reserved ∨ readOnly → hostWrite wa v s = s)

/-- 10_state.md R34 to R44, 20_memory.md R82: while BUSY = 0 a host read of any address returns the
address's value and changes nothing of the block; what the twelve registers at 0x0000 to 0x002C read as;
and what writing WIDTH and HEIGHT stores. The record of reads is the model's (log entry 6). -/
def Obligations.RegisterWindow : Prop :=
  ∀ (s : State) (v : Word), s.busy = false →
    (∀ wa : WordAddr, hostRead wa s = { s with
      host := { s.host with reads := s.host.reads ++ [⟨wa, busValue s wa⟩] } }) ∧
    busValue s 0#14 = 0#32 ∧
    (busValue s 1#14).toNat =
      2 * (if s.errCode = 0#4 then 0 else 1) + 16 * (s.cvalidAt .r).toNat +
        32 * (s.cvalidAt .g).toNat + 64 * (s.cvalidAt .b).toNat ∧
    busValue s 2#14 = BitVec.setWidth 32 s.errCode ∧
    busValue s 3#14 = s.errCmd ∧ busValue s 4#14 = BitVec.setWidth 32 s.errAddr ∧
    busValue s 5#14 = BitVec.setWidth 32 s.width ∧ busValue s 6#14 = BitVec.setWidth 32 s.height ∧
    busValue s 7#14 = BitVec.setWidth 32 s.result ∧
    (busValue s 8#14).toNat = s.acc.toNat + 256 * s.cnt.toNat ∧
    (busValue s 9#14).toNat = s.inptr % 2 ^ 32 ∧ busValue s 10#14 = BitVec.setWidth 32 s.inbit ∧
    busValue s 11#14 = 0x50494601#32 ∧
    hostWrite 5#14 v s = { s with width := BitVec.setWidth 16 v } ∧
    hostWrite 6#14 v s = { s with height := BitVec.setWidth 16 v }

/-- R34: STATUS bit by bit, and a host write to it. -/
def Obligations.StatusRegister : Prop :=
  ∀ (s : State) (v : Word),
    (busValue s 1#14).getLsbD 0 = s.busy ∧
    (busValue s 1#14).getLsbD 1 = decide (s.errCode ≠ 0#4) ∧
    (busValue s 1#14).getLsbD 2 = false ∧ (busValue s 1#14).getLsbD 3 = false ∧
    (busValue s 1#14).getLsbD 4 = s.cvalidAt .r ∧ (busValue s 1#14).getLsbD 5 = s.cvalidAt .g ∧
    (busValue s 1#14).getLsbD 6 = s.cvalidAt .b ∧
    (∀ k, 7 ≤ k → (busValue s 1#14).getLsbD k = false) ∧
    busValue State.reset 1#14 = 0#32 ∧
    (s.busy = false → hostWrite 1#14 v s = s)

/-- 10_state.md R50, R51, R53; 20_memory.md R82: the FREQ and LEN windows. While BUSY = 0 a read gives
the entry and a write stores its low bits in that entry alone; a LEN write also clears CVALID of its
channel and of no other, a FREQ write clears none. -/
def Obligations.FreqAndLenWindows : Prop :=
  ∀ (s : State) (c : Channel) (y : Symbol) (v : Word), s.busy = false →
    let fa := BitVec.ofNat 14 ((0x1000 + 0x400 * channelNumber c + 4 * y.toNat) / 4)
    let la := BitVec.ofNat 14 ((0x2000 + 0x400 * channelNumber c + 4 * y.toNat) / 4)
    busValue s fa = s.freqAt c y ∧ busValue s la = BitVec.setWidth 32 (s.lenAt c y) ∧
    (let t := hostWrite fa v s
     t = { s with freq := t.freq } ∧
     ∀ d z, t.freqAt d z = if d = c ∧ z = y then v else s.freqAt d z) ∧
    (let t := hostWrite la v s
     t = { s with len := t.len, cvalid := t.cvalid } ∧
     (∀ d z, t.lenAt d z = if d = c ∧ z = y then BitVec.setWidth 8 v else s.lenAt d z) ∧
     ∀ d, t.cvalidAt d = if d = c then false else s.cvalidAt d)

/-- 20_memory.md R91: the eight words of a CODE entry, least significant first, spell its value, and
the top bit of word 7 reads 0. -/
def Obligations.CodeWindowSpellsTheCode : Prop :=
  ∀ (s : State) (c : Channel) (y : Symbol),
    let word := fun j =>
      busValue s (BitVec.ofNat 14 ((0x4000 + 0x2000 * channelNumber c + 32 * y.toNat + 4 * j) / 4))
    ((List.range 8).map fun j => (word j).toNat * 2 ^ (32 * j)).sum = s.codeNat c y ∧
    (word 7).getLsbD 31 = false

/-- 10_state.md R31: no register or array entry has two addresses. -/
def Obligations.AddressMapHasNoAliases : Prop :=
  ∀ wa wb : WordAddr, busTarget wa = busTarget wb → busTarget wa ≠ .reserved → wa = wb

/-- 10_state.md R50 to R52, through the host's reads: a command other than SRESET leaves every FREQ
entry, every LEN entry but those of the channel a BUILD or RDLT names, and every CODE entry but those
of the channel an ASSIGN names, reading as before. -/
def Obligations.CommandsKeepOtherArrays : Prop :=
  ∀ (i : Instr) (s t : State) (wa : WordAddr), exec i s = .next t → i ≠ .sreset →
    match busTarget wa with
    | .freq _ _ => busValue t wa = busValue s wa
    | .len c _ => i ≠ .build c → i ≠ .rdlt c → busValue t wa = busValue s wa
    | .code c _ _ => i ≠ .assign c → busValue t wa = busValue s wa
    | _ => True

/-! ### Control commands and reset -/

/-- 46_control.md R270, R272: NOP completes with no effect; CLRERR completes with the error latch
cleared and nothing else changed. -/
def Obligations.NopAndClrerrComplete : Prop :=
  ∀ s : State,
    exec .nop s = .next { s with busy := false } ∧
    exec .clrerr s =
      .next { s with errCode := 0#4, errCmd := 0#32, errAddr := 0#16, busy := false }

/-- 70_reset_and_hazards.md R310: power-on reset, in any state, and SRESET set every element to its
reset value; ID reads its constant in every state. That the host's side is kept, with no byte of the new
OUT received, is the model's choice (log entry 6). -/
def Obligations.ResetState : Prop :=
  (∀ s : State, ∃ t, exec .sreset s = .next t ∧ t = powerOnReset s ∧
    t.busy = false ∧ t.pend = 0#32 ∧ t.errCode = 0#4 ∧ t.errCmd = 0#32 ∧ t.errAddr = 0#16 ∧
    t.width = 0#16 ∧ t.height = 0#16 ∧ t.result = 0#24 ∧ t.acc = 0#8 ∧ t.cnt = 0#3 ∧ t.inptr = 0 ∧
    t.inbit = 0#3 ∧
    (∀ c, t.cvalidAt c = false) ∧
    (∀ c y, t.freqAt c y = 0#32 ∧ t.lenAt c y = 0#8 ∧ t.codeAt c y = 0#255) ∧
    t.inbuf = [] ∧ t.eos = false ∧ t.out = [] ∧ t.host = { s.host with taken := 0 }) ∧
  (∀ s : State, powerOnReset s = { State.reset with host := { s.host with taken := 0 } }) ∧
  ∀ s : State, busValue s 11#14 = 0x50494601#32

/-- R311: power-on reset takes effect whenever it is asserted, while BUSY = 1 and while a command holds
as well, and leaves nothing of the command in flight. That the host's side is kept, with no byte of the
new OUT received, is the model's choice (log entry 6). -/
def Obligations.PowerOnResetAtAnyTime : Prop :=
  ∀ (s : State) (rest : List Event), s.host.pending = .powerOnReset :: rest →
    step s = .next { State.reset with host := { s.host with pending := rest, taken := 0 } }

/-- R313: after reset, BUILD gives an all-zero LEN table and ASSIGN an all-zero CODE table with
CVALID = 1. -/
def Obligations.UntouchedChannelAfterReset : Prop :=
  ∀ c : Channel,
    (∀ y, State.reset.freqAt c y = 0#32 ∧ State.reset.lenAt c y = 0#8 ∧
      State.reset.codeAt c y = 0#255) ∧
    (∃ t, exec (.build c) State.reset = .next t ∧ t.busy = false ∧ t.errCode = 0#4 ∧
      ∀ y, t.lenAt c y = 0#8) ∧
    (∃ t, exec (.assign c) State.reset = .next t ∧ t.busy = false ∧ t.errCode = 0#4 ∧
      t.cvalidAt c = true ∧ (∀ y, t.codeAt c y = 0#255) ∧ emptyTree t c = true)

/-! ### BUILD -/

/-- 40_tree_builder.md R144, with the completion of BUILD: from every state it writes, for one present
symbol, the length 1; for two or more, the depth of the symbol's leaf in the tree; and 0 for every
symbol of frequency 0. It writes LEN and CVALID of its channel and nothing else. -/
def Obligations.BuildWritesTreeDepths : Prop :=
  ∀ (s : State) (c : Channel), ∃ t, exec (.build c) s = .next t ∧
    t = { s with len := t.len, cvalid := t.cvalid, busy := false } ∧
    t.cvalidAt c = false ∧
    (∀ d, d ≠ c → t.cvalidAt d = s.cvalidAt d ∧ ∀ y, t.lenAt d y = s.lenAt d y) ∧
    (∀ y, s.freqAt c y = 0#32 → t.lenNat c y = 0) ∧
    ((presentSymbols (s.freq.get c)).length = 1 → ∀ y, s.freqAt c y ≠ 0#32 → t.lenNat c y = 1) ∧
    (2 ≤ (presentSymbols (s.freq.get c)).length →
      ∃ tree, huffmanTree (s.freq.get c) = some tree ∧
        ∀ y d, (y, d) ∈ tree.leafDepths 0 ↔ s.freqAt c y ≠ 0#32 ∧ t.lenNat c y = d)

/-- R142, R143, R145, R150: BUILD starts from one leaf for each symbol present, and its merge k, of as
many as there are, takes the node a that comes first in (weight, id) and then the node b that comes
first of the others, and makes them the left and right child of a node of id 256 + k; after the last
merge the tree alone is left. -/
def Obligations.MergesFollowThePriorityOrder : Prop :=
  ∀ f : Table Word,
    let before := fun a b : HTree => a.weight < b.weight ∨ (a.weight = b.weight ∧ a.id < b.id)
    (∀ t, t ∈ leavesOf f ↔
      ∃ y, Table.get f y ≠ 0#32 ∧ t = .leaf y (Table.get f y).toNat) ∧
    (leavesOf f).Nodup ∧
    (∀ k, k + 1 < (leavesOf f).length → ∃ a b rest,
      (mergeTimes k 256 (leavesOf f)).Perm (a :: b :: rest) ∧ before a b ∧
      (∀ n ∈ rest, before a n ∧ before b n) ∧
      (mergeTimes (k + 1) 256 (leavesOf f)).Perm
        (.node (256 + k) (a.weight + b.weight) a b :: rest)) ∧
    (leavesOf f ≠ [] → ∃ t, mergeTimes ((leavesOf f).length - 1) 256 (leavesOf f) = [t] ∧
      huffmanTree f = some t)

/-- R147: a leaf of a tree with n leaves is at most n - 1 ≤ 255 deep, and the single-leaf case writes
1; so the byte BUILD stores is the code length itself. -/
def Obligations.BuildLengthsFitOneByte : Prop :=
  ∀ f : Table Word,
    (∀ (tree : HTree) (y : Symbol) (d : Nat), huffmanTree f = some tree →
      (y, d) ∈ tree.leafDepths 0 → d ≤ (presentSymbols f).length - 1) ∧
    (presentSymbols f).length ≤ 256 ∧
    (∀ y, presentSymbols f = [y] → (Table.get (buildTable f) y).toNat = 1) ∧
    ∀ y, (Table.get (buildTable f) y).toNat = buildLength f y

/-- R146: after any number of merges every node has a weight below 2^40, so the 40-bit weights of the
block never wrap. -/
def Obligations.BuildWeightsFitFortyBits : Prop :=
  ∀ (f : Table Word) (n : Nat), ∀ h ∈ mergeTimes n 256 (leavesOf f), h.weight < 2 ^ 40

/-- 60_exceptions.md R301: the lengths BUILD writes for two or more symbols have Kraft sum exactly 1,
for one symbol 1/2, for none 0. -/
def Obligations.BuildTablesAreComplete : Prop :=
  ∀ (s t : State) (c : Channel), exec (.build c) s = .next t →
    kraft (t.len.get c) =
      if (presentSymbols (s.freq.get c)).length = 0 then 0
      else if (presentSymbols (s.freq.get c)).length = 1 then 2 ^ 254
      else 2 ^ 255

/-- R148: for two or more symbols no prefix-free code of them has a smaller weighted length than the
lengths BUILD writes. -/
def Obligations.BuildIsOptimal : Prop :=
  ∀ (s t : State) (c : Channel) (code : Symbol → List Bool),
    exec (.build c) s = .next t → 2 ≤ (presentSymbols (s.freq.get c)).length →
    (∀ y z, y ≠ z → s.freqAt c y ≠ 0#32 → s.freqAt c z ≠ 0#32 → ¬ code y <+: code z) →
    weightedLength (s.freq.get c) (t.lenNat c) ≤
      weightedLength (s.freq.get c) fun y => (code y).length

/-- R149: BUILD's result is a function of FREQ[c] alone. -/
def Obligations.BuildIsDeterministic : Prop :=
  ∀ (s1 s2 : State) (c : Channel), (∀ y, s1.freqAt c y = s2.freqAt c y) →
    ∃ t1 t2, exec (.build c) s1 = .next t1 ∧ exec (.build c) s2 = .next t2 ∧
      ∀ y, t1.lenAt c y = t2.lenAt c y

/-! ### ASSIGN -/

/-- 41_canonical.md R163, R164: ASSIGN completes exactly when the Kraft sum of LEN[c] is at most 1, and
then gives every coded symbol the sum of 2^(l_y - l_z) over the coded symbols before it, and 0 to every
other; otherwise it raises OversubscribedLengths. It writes CODE and CVALID of its channel only. -/
def Obligations.AssignGivesCanonicalCodes : Prop :=
  ∀ (s : State) (c : Channel),
    (kraft (s.len.get c) ≤ 2 ^ 255 → ∃ t, exec (.assign c) s = .next t ∧
      t = { s with code := t.code, cvalid := t.cvalid, busy := false } ∧ t.cvalidAt c = true ∧
      (∀ d, d ≠ c → t.cvalidAt d = s.cvalidAt d ∧ ∀ y, t.codeAt d y = s.codeAt d y) ∧
      ∀ y, t.codeNat c y = if s.lenNat c y = 0 then 0 else canonicalSum (s.len.get c) y) ∧
    (2 ^ 255 < kraft (s.len.get c) → exec (.assign c) s = .next (failedState 5#4 s))

/-- 10_state.md R52: after a successful ASSIGN every code is below 2^LEN, and 0 where LEN is 0. -/
def Obligations.AssignedCodesFit : Prop :=
  ∀ (s t : State) (c : Channel), s.errCode = 0#4 → exec (.assign c) s = .next t → t.errCode = 0#4 →
    ∀ y, (t.lenNat c y ≠ 0 → t.codeNat c y < 2 ^ t.lenNat c y) ∧
      (t.lenNat c y = 0 → t.codeNat c y = 0)

/-- R166: after a successful ASSIGN no code of the channel begins another, and codes of equal length
increase with the symbol. -/
def Obligations.AssignedCodesArePrefixFree : Prop :=
  ∀ (s t : State) (c : Channel), s.errCode = 0#4 → exec (.assign c) s = .next t → t.errCode = 0#4 →
    CodesPrefixFree t c ∧ CodesIncrease t c

/-- R168: CODE[c] after a successful ASSIGN is a function of LEN[c] alone, so two machines with the
same lengths get the same codes, and running ASSIGN again changes none. -/
def Obligations.AssignIsReproducible : Prop :=
  ∀ (s1 s2 t1 t2 : State) (c : Channel), (∀ y, s1.lenAt c y = s2.lenAt c y) →
    s1.errCode = 0#4 → s2.errCode = 0#4 →
    exec (.assign c) s1 = .next t1 → exec (.assign c) s2 = .next t2 → t1.errCode = 0#4 →
    t2.errCode = 0#4 ∧ (∀ y, t1.codeAt c y = t2.codeAt c y) ∧ exec (.assign c) t1 = .next t1

/-- 43_bit_packer.md R206: once BUILD c and ASSIGN c have run on a table with FREQ[c][s] > 0, CVALID is
1, the symbol has a length, and ENCSYM packs it without an error. -/
def Obligations.EncodingHasNoInputDependentFailure : Prop :=
  ∀ (s : State) (c : Channel) (y : Symbol), s.errCode = 0#4 → s.freqAt c y ≠ 0#32 →
    ∃ t u, execAll [.build c, .assign c] s = .next t ∧ t.cvalidAt c = true ∧ 1 ≤ t.lenNat c y ∧
      exec (.encsym c y) t = .next u ∧ u.errCode = 0#4 ∧
      packedBits u = packedBits t ++ codeString t c y

/-! ### Length tables -/

/-- 42_length_table.md R181: WRLT with CNT = 0 emits the 256 entries of LEN[c] in symbol order and
changes nothing else; with a partial byte pending it raises StreamNotAligned. -/
def Obligations.WrltEmitsTheTable : Prop :=
  ∀ (s : State) (c : Channel),
    (s.cnt = 0#3 → ∃ t, exec (.wrlt c) s = .next t ∧ t = { s with out := t.out, busy := false } ∧
      t.out.length = s.out.length + 256 ∧ s.out <+: t.out ∧
      ∀ y : Symbol, t.out[s.out.length + y.toNat]? = some (s.lenAt c y)) ∧
    (s.cnt ≠ 0#3 → exec (.wrlt c) s = .next (failedState 8#4 s))

/-- R182: RDLT in all its cases: misaligned, the table there, the table not there yet, and the input
ended. That a hold is a step that answers the same state is the model's choice (log entry 3). -/
def Obligations.RdltReadsTheTable : Prop :=
  ∀ (s : State) (c : Channel),
    (s.inbit = 0#3 → s.inptr + 256 ≤ s.inbuf.length → ∃ t, exec (.rdlt c) s = .next t ∧
      t = { s with len := t.len, cvalid := t.cvalid, inptr := s.inptr + 256, busy := false } ∧
      (∀ y : Symbol, some (t.lenAt c y) = s.inbuf[s.inptr + y.toNat]?) ∧ t.cvalidAt c = false ∧
      ∀ d, d ≠ c → t.cvalidAt d = s.cvalidAt d ∧ ∀ y, t.lenAt d y = s.lenAt d y) ∧
    (s.inbit = 0#3 → s.inbuf.length < s.inptr + 256 → s.eos = false →
      exec (.rdlt c) s = .next s) ∧
    (s.inbit = 0#3 → s.inbuf.length < s.inptr + 256 → s.eos = true →
      exec (.rdlt c) s = .next (failedState 2#4 s)) ∧
    (s.inbit ≠ 0#3 → exec (.rdlt c) s = .next (failedState 8#4 s))

/-- R184: the three tables are read without an error exactly when 768 bytes are unread and the input
has ended; otherwise TruncatedLengthTable is latched, and the reader stands after the last whole
table. -/
def Obligations.ThreeTablesNeed768Bytes : Prop :=
  ∀ s : State, s.inbit = 0#3 → s.eos = true → s.errCode = 0#4 → s.inptr ≤ s.inbuf.length →
    ∃ t, execAll [.rdlt .r, .rdlt .g, .rdlt .b] s = .next t ∧
      (768 ≤ s.inbuf.length - s.inptr → t.errCode = 0#4 ∧ t.inptr = s.inptr + 768) ∧
      (s.inbuf.length - s.inptr < 768 → t.errCode = 2#4 ∧
        t.inptr = s.inptr + 256 * ((s.inbuf.length - s.inptr) / 256))

/-- R180: RDLT, reading the bytes WRLT emitted, restores the length table. -/
def Obligations.LengthTableRoundTrip : Prop :=
  ∀ (e e' d : State) (c : Channel) (bytes rest : List Byte), e.cnt = 0#3 →
    exec (.wrlt c) e = .next e' → e'.out = e.out ++ bytes → d.inbit = 0#3 →
    d.inbuf.drop d.inptr = bytes ++ rest →
    ∃ d', exec (.rdlt c) d = .next d' ∧ (∀ y, d'.lenAt c y = e.lenAt c y) ∧
      d'.inbuf.drop d'.inptr = rest

/-! ### The bit packer -/

/-- 43_bit_packer.md R201, R205: ENCSYM in all its cases. When it completes, the packed bits grow by
the code of the symbol, OUT by floor((CNT + LEN) / 8) bytes, and CNT stays the count of the bits left;
only ACC, CNT and OUT change. -/
def Obligations.EncsymPacksTheCode : Prop :=
  ∀ (s : State) (c : Channel) (y : Symbol),
    (s.cvalidAt c = true → s.lenNat c y ≠ 0 → ∃ t, exec (.encsym c y) s = .next t ∧
      t = { s with acc := t.acc, cnt := t.cnt, out := t.out, busy := false } ∧
      packedBits t = packedBits s ++ codeString s c y ∧ s.out <+: t.out ∧
      t.out.length = s.out.length + (s.cnt.toNat + s.lenNat c y) / 8 ∧
      t.cnt.toNat = (s.cnt.toNat + s.lenNat c y) % 8) ∧
    (s.cvalidAt c = false → exec (.encsym c y) s = .next (failedState 7#4 s)) ∧
    (s.cvalidAt c = true → s.lenNat c y = 0 → exec (.encsym c y) s = .next (failedState 6#4 s))

/-- R207: ENCPX in all its cases. When it completes, the packed bits grow by the R, then the G, then
the B code, with nothing between them. -/
def Obligations.EncpxPacksThePixel : Prop :=
  ∀ (s : State) (pr pg pb : Symbol),
    ((∀ c, s.cvalidAt c = true) → s.lenNat .r pr ≠ 0 → s.lenNat .g pg ≠ 0 → s.lenNat .b pb ≠ 0 →
      ∃ t, exec (.encpx pr pg pb) s = .next t ∧
        t = { s with acc := t.acc, cnt := t.cnt, out := t.out, busy := false } ∧ s.out <+: t.out ∧
        packedBits t =
          packedBits s ++ codeString s .r pr ++ codeString s .g pg ++ codeString s .b pb) ∧
    ((∃ c, s.cvalidAt c = false) → exec (.encpx pr pg pb) s = .next (failedState 7#4 s)) ∧
    ((∀ c, s.cvalidAt c = true) →
      (s.lenNat .r pr = 0 ∨ s.lenNat .g pg = 0 ∨ s.lenNat .b pb = 0) →
      exec (.encpx pr pg pb) s = .next (failedState 6#4 s))

/-- R208: an ENCPX that raises no error has exactly the effect of the three ENCSYM. -/
def Obligations.EncpxIsThreeEncsym : Prop :=
  ∀ (s t : State) (pr pg pb : Symbol), s.errCode = 0#4 → exec (.encpx pr pg pb) s = .next t →
    t.errCode = 0#4 → execAll [.encsym .r pr, .encsym .g pg, .encsym .b pb] s = .next t

/-- R203: FLUSH emits the partial byte, its bits followed by zeros, when there is one, and otherwise
nothing; it leaves ACC and CNT zero, and a second FLUSH changes nothing. -/
def Obligations.FlushPadsWithZeros : Prop :=
  ∀ s : State,
    (s.cnt = 0#3 → exec .flush s = .next { s with busy := false }) ∧
    (s.cnt ≠ 0#3 → ∃ t, exec .flush s = .next t ∧
      t = { s with acc := 0#8, cnt := 0#3, out := t.out, busy := false } ∧
      t.out.length = s.out.length + 1 ∧
      bitsOf t.out = packedBits s ++ List.replicate (8 - s.cnt.toNat) false ∧
      exec .flush t = .next t)

/-- R209: a sequence of ENCSYM and ENCPX commands that packs T bits from CNT = 0, then FLUSH, emits
exactly ceil(T / 8) bytes: the packed bits in order, then zeros. -/
def Obligations.PackedOutputLength : Prop :=
  ∀ (s t u : State) (is : List Instr),
    (∀ i ∈ is, (∃ c y, i = .encsym c y) ∨ ∃ pr pg pb, i = .encpx pr pg pb) →
    s.cnt = 0#3 → s.errCode = 0#4 → execAll is s = .next t → t.errCode = 0#4 →
    exec .flush t = .next u →
    let codes := is.flatMap fun i =>
      match i with
      | .encsym c y => codeString s c y
      | .encpx pr pg pb => codeString s .r pr ++ codeString s .g pg ++ codeString s .b pb
      | _ => []
    ∃ bytes, u.out = s.out ++ bytes ∧ bytes.length = (codes.length + 7) / 8 ∧
      bitsOf bytes = codes ++ List.replicate (8 * ((codes.length + 7) / 8) - codes.length) false

/-! ### The bit reader -/

/-- 44_bit_reader.md R222, R223: a walk that reaches a symbol has consumed exactly the bits of its code,
LEN[c][s] of them, at most 255, and nothing else changes; no node of depth 255 is internal, so more turns than the model
allows it would change no walk. The bound of 256 turns is the model's (log entry 8). -/
def Obligations.WalkConsumesTheCode : Prop :=
  (∀ (s t : State) (c : Channel) (y : Symbol), walk c s = .sym y t →
    unreadBits s = codeString s c y ++ unreadBits t ∧
      (codeString s c y).length = s.lenNat c y ∧ s.lenNat c y ≤ 255 ∧
      t = { s with inptr := t.inptr, inbit := t.inbit }) ∧
  (∀ (s : State) (c : Channel) (p : Nat), nodeKind s c 255 p ≠ .internal) ∧
  ∀ (s : State) (c : Channel) (more : Nat), walkFrom c (256 + more) 0 0 s = walkFrom c 256 0 0 s

/-- R222, R226: where the unread input begins with the code of a symbol of a channel with valid codes,
DECSYM completes, returns that symbol and moves the reader past its code. -/
def Obligations.DecsymReturnsTheNextSymbol : Prop :=
  ∀ (s : State) (c : Channel) (y : Symbol) (rest : List Bool), s.cvalidAt c = true →
    canonicalTable (s.len.get c) = some (s.code.get c) → s.lenNat c y ≠ 0 →
    unreadBits s = codeString s c y ++ rest →
    ∃ t, exec (.decsym c) s = .next t ∧
      t = { s with result := BitVec.setWidth 24 y, inptr := t.inptr, inbit := t.inbit,
                   busy := false } ∧
      unreadBits t = rest

/-- R227: DECSYM returns the symbol whose code ENCSYM packed, on another machine with the same lengths
and codes, and consumes exactly the bits that ENCSYM packed. -/
def Obligations.DecsymInvertsEncsym : Prop :=
  ∀ (e e' d : State) (c : Channel) (y : Symbol) (bits rest : List Bool),
    e.cvalidAt c = true → d.cvalidAt c = true → e.len.get c = d.len.get c →
    e.code.get c = d.code.get c → canonicalTable (d.len.get c) = some (d.code.get c) →
    e.lenNat c y ≠ 0 → exec (.encsym c y) e = .next e' → packedBits e' = packedBits e ++ bits →
    unreadBits d = bits ++ rest →
    ∃ d', exec (.decsym c) d = .next d' ∧ d'.result = BitVec.setWidth 24 y ∧ unreadBits d' = rest

/-- R222, R225: where the unread input is only the beginning of a code of channel c, at the root as
well, DECSYM holds while the input has not ended and raises UnexpectedEndOfStream once it has. That a
hold is a step that answers the same state is the model's choice (log entry 3). -/
def Obligations.DecsymAtTheEndOfInput : Prop :=
  ∀ (s : State) (c : Channel) (y : Symbol) (missing : List Bool), s.cvalidAt c = true →
    canonicalTable (s.len.get c) = some (s.code.get c) → s.lenNat c y ≠ 0 → missing ≠ [] →
    codeString s c y = unreadBits s ++ missing →
    (s.eos = false → exec (.decsym c) s = .next s) ∧
    (s.eos = true → exec (.decsym c) s = .next (failedState 3#4 s))

/-- R222, R224: DECSYM raises CorruptTree when the unread input begins with a bit string that neither
begins a code nor has a code as its beginning, and, with no test of the input, when the channel has no
code at all; with CVALID = 0 it raises CodesNotReady. -/
def Obligations.DecsymCorruptTree : Prop :=
  ∀ (s : State) (c : Channel),
    (∀ bits rest : List Bool, s.cvalidAt c = true →
      canonicalTable (s.len.get c) = some (s.code.get c) → unreadBits s = bits ++ rest →
      (∀ y, s.lenNat c y ≠ 0 → ¬ bits <+: codeString s c y ∧ ¬ codeString s c y <+: bits) →
      exec (.decsym c) s = .next (failedState 4#4 s)) ∧
    (s.cvalidAt c = true → (∀ y, s.lenNat c y = 0) →
      exec (.decsym c) s = .next (failedState 4#4 s)) ∧
    (s.cvalidAt c = false → exec (.decsym c) s = .next (failedState 7#4 s))

/-- R228: where the unread input begins with the R, then the G, then the B code of a pixel, DECPX
completes, returns the pixel and moves the reader past the three codes; with a channel not ready it
raises CodesNotReady. -/
def Obligations.DecpxReturnsThePixel : Prop :=
  ∀ s : State,
    (∀ (pr pg pb : Symbol) (rest : List Bool), (∀ c, s.cvalidAt c = true) →
      (∀ c, canonicalTable (s.len.get c) = some (s.code.get c)) →
      s.lenNat .r pr ≠ 0 → s.lenNat .g pg ≠ 0 → s.lenNat .b pb ≠ 0 →
      unreadBits s = codeString s .r pr ++ codeString s .g pg ++ codeString s .b pb ++ rest →
      ∃ t, exec .decpx s = .next t ∧
        t = { s with result := t.result, inptr := t.inptr, inbit := t.inbit, busy := false } ∧
        t.result.toNat = pr.toNat * 65536 + pg.toNat * 256 + pb.toNat ∧ unreadBits t = rest) ∧
    ((∃ c, s.cvalidAt c = false) → exec .decpx s = .next (failedState 7#4 s))

/-- R228: DECPX where one of its walks does not reach a symbol: with the codes of the channels before c
at the beginning of the unread input, and `tail` after them, DECPX holds (R87; a step that answers the
same state, log entry 3) or raises UnexpectedEndOfStream where `tail` is only the beginning of a code of
c, and raises CorruptTree where it begins with bits that neither begin a code of c nor have one as their
beginning, which with no bits at all is the empty tree. Nothing is consumed, whatever the channels
before c have read. -/
def Obligations.DecpxStopsWhereAWalkStops : Prop :=
  ∀ (s : State) (c : Channel) (pr pg : Symbol) (tail : List Bool), (∀ c, s.cvalidAt c = true) →
    (∀ c, canonicalTable (s.len.get c) = some (s.code.get c)) →
    (c ≠ .r → s.lenNat .r pr ≠ 0) → (c = .b → s.lenNat .g pg ≠ 0) →
    unreadBits s =
      (match c with
        | .r => []
        | .g => codeString s .r pr
        | .b => codeString s .r pr ++ codeString s .g pg) ++ tail →
    (∀ (y : Symbol) (missing : List Bool), s.lenNat c y ≠ 0 → missing ≠ [] →
      codeString s c y = tail ++ missing →
      (s.eos = false → exec .decpx s = .next s) ∧
      (s.eos = true → exec .decpx s = .next (failedState 3#4 s))) ∧
    ∀ bits rest : List Bool, tail = bits ++ rest →
      (∀ y, s.lenNat c y ≠ 0 → ¬ bits <+: codeString s c y ∧ ¬ codeString s c y <+: bits) →
      exec .decpx s = .next (failedState 4#4 s)

/-- R229: a DECPX that raises no error and does not hold has the effect of the three DECSYM, but for
RESULT, which holds all three symbols. -/
def Obligations.DecpxIsThreeDecsym : Prop :=
  ∀ s t : State, s.busy = true → s.errCode = 0#4 → exec .decpx s = .next t → t.busy = false →
    t.errCode = 0#4 →
    ∃ s1 s2 s3, exec (.decsym .r) s = .next s1 ∧ exec (.decsym .g) s1 = .next s2 ∧
      exec (.decsym .b) s2 = .next s3 ∧
      t = { s3 with
        result := s1.result.extractLsb' 0 8 ++ s2.result.extractLsb' 0 8 ++
          s3.result.extractLsb' 0 8 }

/-! ### The container header -/

/-- 45_container.md R244, 20_memory.md R89: HDRW with CNT = 0 emits WIDTH and HEIGHT, each high byte
first, and changes nothing else; with a partial byte pending it raises StreamNotAligned. -/
def Obligations.HdrwEmitsTheHeader : Prop :=
  ∀ s : State,
    (s.cnt = 0#3 → ∃ t, exec .hdrw s = .next t ∧ t = { s with out := t.out, busy := false } ∧
      ∃ w1 w0 h1 h0 : Byte, t.out = s.out ++ [w1, w0, h1, h0] ∧
        s.width.toNat = 256 * w1.toNat + w0.toNat ∧ s.height.toNat = 256 * h1.toNat + h0.toNat) ∧
    (s.cnt ≠ 0#3 → exec .hdrw s = .next (failedState 8#4 s))

/-- R245: HDRR in all its cases: misaligned, the header there, not there yet, and the input ended. That a
hold is a step that answers the same state is the model's choice (log entry 3). -/
def Obligations.HdrrReadsTheHeader : Prop :=
  ∀ s : State,
    (∀ (w1 w0 h1 h0 : Byte) (rest : List Byte), s.inbit = 0#3 →
      s.inbuf.drop s.inptr = w1 :: w0 :: h1 :: h0 :: rest →
      ∃ t, exec .hdrr s = .next t ∧
        t = { s with width := t.width, height := t.height, inptr := s.inptr + 4, busy := false } ∧
        t.width.toNat = 256 * w1.toNat + w0.toNat ∧ t.height.toNat = 256 * h1.toNat + h0.toNat) ∧
    (s.inbit = 0#3 → s.inbuf.length < s.inptr + 4 → s.eos = false → exec .hdrr s = .next s) ∧
    (s.inbit = 0#3 → s.inbuf.length < s.inptr + 4 → s.eos = true →
      exec .hdrr s = .next (failedState 1#4 s)) ∧
    (s.inbit ≠ 0#3 → exec .hdrr s = .next (failedState 8#4 s))

/-! ### Errors, holds and the machine as a whole -/

/-- 60_exceptions.md R286: after a completion step that latched an error, of a command or of a word that
is none, the state is what it was before it, but for the error registers and BUSY; so it is after a
host write that latched Overrun, BUSY as well. -/
def Obligations.FailedCommandHasNoEffect : Prop :=
  (∀ (i : Instr) (s t : State), s.errCode = 0#4 → exec i s = .next t → t.errCode ≠ 0#4 →
    t = { s with errCode := t.errCode, errCmd := s.pend, errAddr := 0#16, busy := false }) ∧
  (∀ s t : State, s.errCode = 0#4 → coreStep s = .next t → t.errCode ≠ 0#4 →
    t = { s with errCode := t.errCode, errCmd := s.pend, errAddr := 0#16, busy := false }) ∧
  ∀ (s : State) (wa : WordAddr) (v : Word), s.errCode = 0#4 → (hostWrite wa v s).errCode ≠ 0#4 →
    hostWrite wa v s = { s with errCode := 10#4, errCmd := 0#32, errAddr := byteAddr wa }

/-- R282: a command latches only the errors listed for it; and ENCPX has no illegal word. -/
def Obligations.CommandErrorsAreListed : Prop :=
  (∀ (i : Instr) (s t : State), s.errCode = 0#4 → exec i s = .next t → t.errCode ≠ 0#4 →
    t.errCode ∈ listedErrors i) ∧
  ∀ w : Word, w.extractLsb' 24 8 = 0x31#8 → WellFormed.legal w = true

/-- 20_memory.md R87: a command that holds is an RDLT, HDRR, DECSYM or DECPX, the input has not ended,
and nothing at all changes; every other command falls from BUSY. That a hold is a step that answers the
same state is the model's choice (log entry 3). -/
def Obligations.HeldCommandChangesNothing : Prop :=
  ∀ (i : Instr) (s t : State), exec i s = .next t → t.busy = true →
    t = s ∧ s.eos = false ∧ (i = .hdrr ∨ i = .decpx ∨ ∃ c, i = .rdlt c ∨ i = .decsym c)

/-- 10_state.md R32, R33, R36 to R46, R53, 43_bit_packer.md R210: which commands write each register.
Every command answers a next state, and BUSY falls or nothing changes. But for SRESET, WIDTH and HEIGHT
are left to HDRR, RESULT to DECSYM and DECPX, ACC and CNT to ENCSYM, ENCPX and FLUSH, INPTR and INBIT to
RDLT, HDRR, DECSYM and DECPX, CVALID of a channel to the BUILD, ASSIGN and RDLT of that channel, the
error registers to CLRERR and to the latch, which takes a first error with the word in PEND, and PEND,
INBUF, EOS and the host's side to no command; OUT only grows. That a hold and an error answer next
states is the model's form of them (log entries 3 and 16). -/
def Obligations.OnlyTheNamedCommandsWrite : Prop :=
  ∀ (i : Instr) (s : State), ∃ t, exec i s = .next t ∧ (t.busy = false ∨ t = s) ∧
    (i ≠ .sreset →
      (i ≠ .hdrr → t.width = s.width ∧ t.height = s.height) ∧
      ((∀ c, i ≠ .decsym c) → i ≠ .decpx → t.result = s.result) ∧
      ((∀ c y, i ≠ .encsym c y) → (∀ pr pg pb, i ≠ .encpx pr pg pb) → i ≠ .flush →
        t.acc = s.acc ∧ t.cnt = s.cnt) ∧
      (i ≠ .hdrr → i ≠ .decpx → (∀ c, i ≠ .rdlt c) → (∀ c, i ≠ .decsym c) →
        t.inptr = s.inptr ∧ t.inbit = s.inbit) ∧
      (∀ c, i ≠ .build c → i ≠ .assign c → i ≠ .rdlt c → t.cvalidAt c = s.cvalidAt c) ∧
      (i ≠ .clrerr →
        (t.errCode = s.errCode ∧ t.errCmd = s.errCmd ∧ t.errAddr = s.errAddr) ∨
        (s.errCode = 0#4 ∧ t.errCode ≠ 0#4 ∧ t.errCmd = s.pend ∧ t.errAddr = 0#16)) ∧
      t.pend = s.pend ∧ t.inbuf = s.inbuf ∧ t.eos = s.eos ∧ t.host = s.host ∧ s.out <+: t.out)

/-- The reset state meets the invariant. -/
def Obligations.ResetMeetsTheInvariant : Prop := Inv State.reset

/-- Every step, from every state that meets the invariant, keeps it: ACC < 2^CNT (10_state.md R42), the
reader stays inside INBUF (44_bit_reader.md R221), the error registers are consistent (R36 to R38,
60_exceptions.md R281), and valid codes are the canonical codes of the current lengths (R53). -/
def Obligations.StepKeepsTheInvariant : Prop :=
  ∀ s t : State, Inv s → step s = .next t → Inv t

/-- 10_state.md R54: in a state that meets the invariant, the codes of a channel with CVALID = 1 are
prefix-free, and those of equal length increase with the symbol. -/
def Obligations.ValidCodesArePrefixFree : Prop :=
  ∀ (s : State) (c : Channel), Inv s → s.busy = false → s.cvalidAt c = true →
    CodesPrefixFree s c ∧ CodesIncrease s c
end

