-- ==== Sys2Proof/Laws/State.lean ====
section
/-! SUPPORT. The small lemmas of the state: one per field and update, and the laws of the per-channel
arrays. -/

namespace Sys2Proof.Machine

/-! ### Symbols and channels -/

theorem mem_allSymbols (y : Symbol) : y ∈ allSymbols := by
  simp only [allSymbols, List.mem_map, List.mem_range]
  exact ⟨y.toNat, y.isLt, by simp⟩

theorem length_allSymbols : allSymbols.length = 256 := by simp [allSymbols]

theorem nodup_allSymbols : allSymbols.Nodup := by
  refine List.Nodup.map_on ?_ List.nodup_range
  intro a ha b hb h
  have := congrArg BitVec.toNat h
  simp only [BitVec.toNat_ofNat, List.mem_range] at this ha hb
  omega

/-! ### One value per channel -/

namespace PerChannel

variable {α : Type}

@[simp] theorem get_set_self (p : PerChannel α) (c : Channel) (v : α) : (p.set c v).get c = v := by
  cases c <;> rfl

theorem get_set_ne (p : PerChannel α) {c d : Channel} (v : α) (h : d ≠ c) :
    (p.set c v).get d = p.get d := by
  cases c <;> cases d <;> first | rfl | exact absurd rfl h

theorem get_set (p : PerChannel α) (c d : Channel) (v : α) :
    (p.set c v).get d = if d = c then v else p.get d := by
  cases c <;> cases d <;> rfl

@[simp] theorem get_all (v : α) (c : Channel) : (PerChannel.all v).get c = v := by cases c <;> rfl

theorem ext_get {p q : PerChannel α} (h : ∀ c, p.get c = q.get c) : p = q := by
  cases p; cases q
  exact PerChannel.mk.injEq .. ▸ ⟨h .r, h .g, h .b⟩

@[simp] theorem set_get (p : PerChannel α) (c : Channel) : p.set c (p.get c) = p := by
  cases c <;> rfl

end PerChannel

/-! ### One value per symbol -/

namespace Table

variable {α : Type}

@[simp] theorem get_ofFn (f : Symbol → α) (y : Symbol) : Table.get (Table.ofFn f) y = f y := by
  simp [Table.get, Table.ofFn, allSymbols]

theorem get_set (t : Table α) (y z : Symbol) (v : α) :
    Table.get (Table.set t y v) z = if z = y then v else Table.get t z := by
  simp only [Table.get, Table.set, Vector.getElem_set, BitVec.toNat_inj, eq_comm]

@[simp] theorem get_replicate (v : α) (y : Symbol) : Table.get (Vector.replicate 256 v) y = v := by
  simp [Table.get]

theorem ext_get {t u : Table α} (h : ∀ y, Table.get t y = Table.get u y) : t = u := by
  apply Vector.ext
  intro i hi
  simpa [Table.get, Nat.mod_eq_of_lt hi] using h (BitVec.ofNat 8 i)

@[simp] theorem length_entries (t : Table α) : (Table.entries t).length = 256 := by
  simp [Table.entries]

theorem getElem?_entries (t : Table α) (y : Symbol) :
    (Table.entries t)[y.toNat]? = some (Table.get t y) := by
  simp [Table.entries, Table.get, y.isLt]

/-- The entries, symbol by symbol. -/
theorem entries_eq (t : Table α) : Table.entries t = allSymbols.map (Table.get t) := by
  apply List.ext_getElem
  · simp [length_allSymbols]
  · intro i h1 h2
    simp only [length_entries] at h1
    simp [Table.entries, allSymbols, Table.get, Nat.mod_eq_of_lt h1]

/-- The rows, symbol by symbol. -/
theorem rows_eq (t : Table α) : Table.rows t = allSymbols.map fun y => (y, Table.get t y) := by
  show allSymbols.zip (Table.entries t) = _
  rw [entries_eq]
  simpa using List.zip_map' (f := id) (g := Table.get t) (l := allSymbols)

end Table

/-! ### The fields after each update -/

namespace State

variable (s : State) (c : Channel) (y : Symbol)

@[simp] theorem setFreqAt_busy (v : Word) : (s.setFreqAt c y v).busy = s.busy := rfl
@[simp] theorem setFreqAt_pend (v : Word) : (s.setFreqAt c y v).pend = s.pend := rfl
@[simp] theorem setFreqAt_errCode (v : Word) : (s.setFreqAt c y v).errCode = s.errCode := rfl
@[simp] theorem setFreqAt_errCmd (v : Word) : (s.setFreqAt c y v).errCmd = s.errCmd := rfl
@[simp] theorem setFreqAt_errAddr (v : Word) : (s.setFreqAt c y v).errAddr = s.errAddr := rfl
@[simp] theorem setFreqAt_width (v : Word) : (s.setFreqAt c y v).width = s.width := rfl
@[simp] theorem setFreqAt_height (v : Word) : (s.setFreqAt c y v).height = s.height := rfl
@[simp] theorem setFreqAt_result (v : Word) : (s.setFreqAt c y v).result = s.result := rfl
@[simp] theorem setFreqAt_acc (v : Word) : (s.setFreqAt c y v).acc = s.acc := rfl
@[simp] theorem setFreqAt_cnt (v : Word) : (s.setFreqAt c y v).cnt = s.cnt := rfl
@[simp] theorem setFreqAt_inptr (v : Word) : (s.setFreqAt c y v).inptr = s.inptr := rfl
@[simp] theorem setFreqAt_inbit (v : Word) : (s.setFreqAt c y v).inbit = s.inbit := rfl
@[simp] theorem setFreqAt_cvalid (v : Word) : (s.setFreqAt c y v).cvalid = s.cvalid := rfl
@[simp] theorem setFreqAt_freq (v : Word) : (s.setFreqAt c y v).freq = s.freq.set c (Table.set (s.freq.get c) y v) := rfl
@[simp] theorem setFreqAt_len (v : Word) : (s.setFreqAt c y v).len = s.len := rfl
@[simp] theorem setFreqAt_code (v : Word) : (s.setFreqAt c y v).code = s.code := rfl
@[simp] theorem setFreqAt_inbuf (v : Word) : (s.setFreqAt c y v).inbuf = s.inbuf := rfl
@[simp] theorem setFreqAt_eos (v : Word) : (s.setFreqAt c y v).eos = s.eos := rfl
@[simp] theorem setFreqAt_out (v : Word) : (s.setFreqAt c y v).out = s.out := rfl
@[simp] theorem setFreqAt_host (v : Word) : (s.setFreqAt c y v).host = s.host := rfl

@[simp] theorem setLenAt_busy (v : BitVec 8) : (s.setLenAt c y v).busy = s.busy := rfl
@[simp] theorem setLenAt_pend (v : BitVec 8) : (s.setLenAt c y v).pend = s.pend := rfl
@[simp] theorem setLenAt_errCode (v : BitVec 8) : (s.setLenAt c y v).errCode = s.errCode := rfl
@[simp] theorem setLenAt_errCmd (v : BitVec 8) : (s.setLenAt c y v).errCmd = s.errCmd := rfl
@[simp] theorem setLenAt_errAddr (v : BitVec 8) : (s.setLenAt c y v).errAddr = s.errAddr := rfl
@[simp] theorem setLenAt_width (v : BitVec 8) : (s.setLenAt c y v).width = s.width := rfl
@[simp] theorem setLenAt_height (v : BitVec 8) : (s.setLenAt c y v).height = s.height := rfl
@[simp] theorem setLenAt_result (v : BitVec 8) : (s.setLenAt c y v).result = s.result := rfl
@[simp] theorem setLenAt_acc (v : BitVec 8) : (s.setLenAt c y v).acc = s.acc := rfl
@[simp] theorem setLenAt_cnt (v : BitVec 8) : (s.setLenAt c y v).cnt = s.cnt := rfl
@[simp] theorem setLenAt_inptr (v : BitVec 8) : (s.setLenAt c y v).inptr = s.inptr := rfl
@[simp] theorem setLenAt_inbit (v : BitVec 8) : (s.setLenAt c y v).inbit = s.inbit := rfl
@[simp] theorem setLenAt_cvalid (v : BitVec 8) : (s.setLenAt c y v).cvalid = s.cvalid := rfl
@[simp] theorem setLenAt_freq (v : BitVec 8) : (s.setLenAt c y v).freq = s.freq := rfl
@[simp] theorem setLenAt_len (v : BitVec 8) : (s.setLenAt c y v).len = s.len.set c (Table.set (s.len.get c) y v) := rfl
@[simp] theorem setLenAt_code (v : BitVec 8) : (s.setLenAt c y v).code = s.code := rfl
@[simp] theorem setLenAt_inbuf (v : BitVec 8) : (s.setLenAt c y v).inbuf = s.inbuf := rfl
@[simp] theorem setLenAt_eos (v : BitVec 8) : (s.setLenAt c y v).eos = s.eos := rfl
@[simp] theorem setLenAt_out (v : BitVec 8) : (s.setLenAt c y v).out = s.out := rfl
@[simp] theorem setLenAt_host (v : BitVec 8) : (s.setLenAt c y v).host = s.host := rfl

@[simp] theorem setLenTable_busy (t : Table (BitVec 8)) : (s.setLenTable c t).busy = s.busy := rfl
@[simp] theorem setLenTable_pend (t : Table (BitVec 8)) : (s.setLenTable c t).pend = s.pend := rfl
@[simp] theorem setLenTable_errCode (t : Table (BitVec 8)) : (s.setLenTable c t).errCode = s.errCode := rfl
@[simp] theorem setLenTable_errCmd (t : Table (BitVec 8)) : (s.setLenTable c t).errCmd = s.errCmd := rfl
@[simp] theorem setLenTable_errAddr (t : Table (BitVec 8)) : (s.setLenTable c t).errAddr = s.errAddr := rfl
@[simp] theorem setLenTable_width (t : Table (BitVec 8)) : (s.setLenTable c t).width = s.width := rfl
@[simp] theorem setLenTable_height (t : Table (BitVec 8)) : (s.setLenTable c t).height = s.height := rfl
@[simp] theorem setLenTable_result (t : Table (BitVec 8)) : (s.setLenTable c t).result = s.result := rfl
@[simp] theorem setLenTable_acc (t : Table (BitVec 8)) : (s.setLenTable c t).acc = s.acc := rfl
@[simp] theorem setLenTable_cnt (t : Table (BitVec 8)) : (s.setLenTable c t).cnt = s.cnt := rfl
@[simp] theorem setLenTable_inptr (t : Table (BitVec 8)) : (s.setLenTable c t).inptr = s.inptr := rfl
@[simp] theorem setLenTable_inbit (t : Table (BitVec 8)) : (s.setLenTable c t).inbit = s.inbit := rfl
@[simp] theorem setLenTable_cvalid (t : Table (BitVec 8)) : (s.setLenTable c t).cvalid = s.cvalid := rfl
@[simp] theorem setLenTable_freq (t : Table (BitVec 8)) : (s.setLenTable c t).freq = s.freq := rfl
@[simp] theorem setLenTable_len (t : Table (BitVec 8)) : (s.setLenTable c t).len = s.len.set c t := rfl
@[simp] theorem setLenTable_code (t : Table (BitVec 8)) : (s.setLenTable c t).code = s.code := rfl
@[simp] theorem setLenTable_inbuf (t : Table (BitVec 8)) : (s.setLenTable c t).inbuf = s.inbuf := rfl
@[simp] theorem setLenTable_eos (t : Table (BitVec 8)) : (s.setLenTable c t).eos = s.eos := rfl
@[simp] theorem setLenTable_out (t : Table (BitVec 8)) : (s.setLenTable c t).out = s.out := rfl
@[simp] theorem setLenTable_host (t : Table (BitVec 8)) : (s.setLenTable c t).host = s.host := rfl

@[simp] theorem setCodeTable_busy (t : Table Code) : (s.setCodeTable c t).busy = s.busy := rfl
@[simp] theorem setCodeTable_pend (t : Table Code) : (s.setCodeTable c t).pend = s.pend := rfl
@[simp] theorem setCodeTable_errCode (t : Table Code) : (s.setCodeTable c t).errCode = s.errCode := rfl
@[simp] theorem setCodeTable_errCmd (t : Table Code) : (s.setCodeTable c t).errCmd = s.errCmd := rfl
@[simp] theorem setCodeTable_errAddr (t : Table Code) : (s.setCodeTable c t).errAddr = s.errAddr := rfl
@[simp] theorem setCodeTable_width (t : Table Code) : (s.setCodeTable c t).width = s.width := rfl
@[simp] theorem setCodeTable_height (t : Table Code) : (s.setCodeTable c t).height = s.height := rfl
@[simp] theorem setCodeTable_result (t : Table Code) : (s.setCodeTable c t).result = s.result := rfl
@[simp] theorem setCodeTable_acc (t : Table Code) : (s.setCodeTable c t).acc = s.acc := rfl
@[simp] theorem setCodeTable_cnt (t : Table Code) : (s.setCodeTable c t).cnt = s.cnt := rfl
@[simp] theorem setCodeTable_inptr (t : Table Code) : (s.setCodeTable c t).inptr = s.inptr := rfl
@[simp] theorem setCodeTable_inbit (t : Table Code) : (s.setCodeTable c t).inbit = s.inbit := rfl
@[simp] theorem setCodeTable_cvalid (t : Table Code) : (s.setCodeTable c t).cvalid = s.cvalid := rfl
@[simp] theorem setCodeTable_freq (t : Table Code) : (s.setCodeTable c t).freq = s.freq := rfl
@[simp] theorem setCodeTable_len (t : Table Code) : (s.setCodeTable c t).len = s.len := rfl
@[simp] theorem setCodeTable_code (t : Table Code) : (s.setCodeTable c t).code = s.code.set c t := rfl
@[simp] theorem setCodeTable_inbuf (t : Table Code) : (s.setCodeTable c t).inbuf = s.inbuf := rfl
@[simp] theorem setCodeTable_eos (t : Table Code) : (s.setCodeTable c t).eos = s.eos := rfl
@[simp] theorem setCodeTable_out (t : Table Code) : (s.setCodeTable c t).out = s.out := rfl
@[simp] theorem setCodeTable_host (t : Table Code) : (s.setCodeTable c t).host = s.host := rfl

@[simp] theorem setCValid_busy (v : Bool) : (s.setCValid c v).busy = s.busy := rfl
@[simp] theorem setCValid_pend (v : Bool) : (s.setCValid c v).pend = s.pend := rfl
@[simp] theorem setCValid_errCode (v : Bool) : (s.setCValid c v).errCode = s.errCode := rfl
@[simp] theorem setCValid_errCmd (v : Bool) : (s.setCValid c v).errCmd = s.errCmd := rfl
@[simp] theorem setCValid_errAddr (v : Bool) : (s.setCValid c v).errAddr = s.errAddr := rfl
@[simp] theorem setCValid_width (v : Bool) : (s.setCValid c v).width = s.width := rfl
@[simp] theorem setCValid_height (v : Bool) : (s.setCValid c v).height = s.height := rfl
@[simp] theorem setCValid_result (v : Bool) : (s.setCValid c v).result = s.result := rfl
@[simp] theorem setCValid_acc (v : Bool) : (s.setCValid c v).acc = s.acc := rfl
@[simp] theorem setCValid_cnt (v : Bool) : (s.setCValid c v).cnt = s.cnt := rfl
@[simp] theorem setCValid_inptr (v : Bool) : (s.setCValid c v).inptr = s.inptr := rfl
@[simp] theorem setCValid_inbit (v : Bool) : (s.setCValid c v).inbit = s.inbit := rfl
@[simp] theorem setCValid_cvalid (v : Bool) : (s.setCValid c v).cvalid = s.cvalid.set c v := rfl
@[simp] theorem setCValid_freq (v : Bool) : (s.setCValid c v).freq = s.freq := rfl
@[simp] theorem setCValid_len (v : Bool) : (s.setCValid c v).len = s.len := rfl
@[simp] theorem setCValid_code (v : Bool) : (s.setCValid c v).code = s.code := rfl
@[simp] theorem setCValid_inbuf (v : Bool) : (s.setCValid c v).inbuf = s.inbuf := rfl
@[simp] theorem setCValid_eos (v : Bool) : (s.setCValid c v).eos = s.eos := rfl
@[simp] theorem setCValid_out (v : Bool) : (s.setCValid c v).out = s.out := rfl
@[simp] theorem setCValid_host (v : Bool) : (s.setCValid c v).host = s.host := rfl

end State

/-! ### The fields after each shared operation -/

variable (s : State)

@[simp] theorem emit_busy (x : Byte) : (emit x s).busy = s.busy := rfl
@[simp] theorem emit_pend (x : Byte) : (emit x s).pend = s.pend := rfl
@[simp] theorem emit_errCode (x : Byte) : (emit x s).errCode = s.errCode := rfl
@[simp] theorem emit_errCmd (x : Byte) : (emit x s).errCmd = s.errCmd := rfl
@[simp] theorem emit_errAddr (x : Byte) : (emit x s).errAddr = s.errAddr := rfl
@[simp] theorem emit_width (x : Byte) : (emit x s).width = s.width := rfl
@[simp] theorem emit_height (x : Byte) : (emit x s).height = s.height := rfl
@[simp] theorem emit_result (x : Byte) : (emit x s).result = s.result := rfl
@[simp] theorem emit_acc (x : Byte) : (emit x s).acc = s.acc := rfl
@[simp] theorem emit_cnt (x : Byte) : (emit x s).cnt = s.cnt := rfl
@[simp] theorem emit_inptr (x : Byte) : (emit x s).inptr = s.inptr := rfl
@[simp] theorem emit_inbit (x : Byte) : (emit x s).inbit = s.inbit := rfl
@[simp] theorem emit_cvalid (x : Byte) : (emit x s).cvalid = s.cvalid := rfl
@[simp] theorem emit_freq (x : Byte) : (emit x s).freq = s.freq := rfl
@[simp] theorem emit_len (x : Byte) : (emit x s).len = s.len := rfl
@[simp] theorem emit_code (x : Byte) : (emit x s).code = s.code := rfl
@[simp] theorem emit_inbuf (x : Byte) : (emit x s).inbuf = s.inbuf := rfl
@[simp] theorem emit_eos (x : Byte) : (emit x s).eos = s.eos := rfl
@[simp] theorem emit_out (x : Byte) : (emit x s).out = s.out ++ [x] := rfl
@[simp] theorem emit_host (x : Byte) : (emit x s).host = s.host := rfl

@[simp] theorem clearLatch_busy  : (clearLatch s).busy = s.busy := rfl
@[simp] theorem clearLatch_pend  : (clearLatch s).pend = s.pend := rfl
@[simp] theorem clearLatch_errCode  : (clearLatch s).errCode = 0#4 := rfl
@[simp] theorem clearLatch_errCmd  : (clearLatch s).errCmd = 0#32 := rfl
@[simp] theorem clearLatch_errAddr  : (clearLatch s).errAddr = 0#16 := rfl
@[simp] theorem clearLatch_width  : (clearLatch s).width = s.width := rfl
@[simp] theorem clearLatch_height  : (clearLatch s).height = s.height := rfl
@[simp] theorem clearLatch_result  : (clearLatch s).result = s.result := rfl
@[simp] theorem clearLatch_acc  : (clearLatch s).acc = s.acc := rfl
@[simp] theorem clearLatch_cnt  : (clearLatch s).cnt = s.cnt := rfl
@[simp] theorem clearLatch_inptr  : (clearLatch s).inptr = s.inptr := rfl
@[simp] theorem clearLatch_inbit  : (clearLatch s).inbit = s.inbit := rfl
@[simp] theorem clearLatch_cvalid  : (clearLatch s).cvalid = s.cvalid := rfl
@[simp] theorem clearLatch_freq  : (clearLatch s).freq = s.freq := rfl
@[simp] theorem clearLatch_len  : (clearLatch s).len = s.len := rfl
@[simp] theorem clearLatch_code  : (clearLatch s).code = s.code := rfl
@[simp] theorem clearLatch_inbuf  : (clearLatch s).inbuf = s.inbuf := rfl
@[simp] theorem clearLatch_eos  : (clearLatch s).eos = s.eos := rfl
@[simp] theorem clearLatch_out  : (clearLatch s).out = s.out := rfl
@[simp] theorem clearLatch_host  : (clearLatch s).host = s.host := rfl

@[simp] theorem recordRead_busy (wa : WordAddr) (v : Word) : (recordRead wa v s).busy = s.busy := rfl
@[simp] theorem recordRead_pend (wa : WordAddr) (v : Word) : (recordRead wa v s).pend = s.pend := rfl
@[simp] theorem recordRead_errCode (wa : WordAddr) (v : Word) : (recordRead wa v s).errCode = s.errCode := rfl
@[simp] theorem recordRead_errCmd (wa : WordAddr) (v : Word) : (recordRead wa v s).errCmd = s.errCmd := rfl
@[simp] theorem recordRead_errAddr (wa : WordAddr) (v : Word) : (recordRead wa v s).errAddr = s.errAddr := rfl
@[simp] theorem recordRead_width (wa : WordAddr) (v : Word) : (recordRead wa v s).width = s.width := rfl
@[simp] theorem recordRead_height (wa : WordAddr) (v : Word) : (recordRead wa v s).height = s.height := rfl
@[simp] theorem recordRead_result (wa : WordAddr) (v : Word) : (recordRead wa v s).result = s.result := rfl
@[simp] theorem recordRead_acc (wa : WordAddr) (v : Word) : (recordRead wa v s).acc = s.acc := rfl
@[simp] theorem recordRead_cnt (wa : WordAddr) (v : Word) : (recordRead wa v s).cnt = s.cnt := rfl
@[simp] theorem recordRead_inptr (wa : WordAddr) (v : Word) : (recordRead wa v s).inptr = s.inptr := rfl
@[simp] theorem recordRead_inbit (wa : WordAddr) (v : Word) : (recordRead wa v s).inbit = s.inbit := rfl
@[simp] theorem recordRead_cvalid (wa : WordAddr) (v : Word) : (recordRead wa v s).cvalid = s.cvalid := rfl
@[simp] theorem recordRead_freq (wa : WordAddr) (v : Word) : (recordRead wa v s).freq = s.freq := rfl
@[simp] theorem recordRead_len (wa : WordAddr) (v : Word) : (recordRead wa v s).len = s.len := rfl
@[simp] theorem recordRead_code (wa : WordAddr) (v : Word) : (recordRead wa v s).code = s.code := rfl
@[simp] theorem recordRead_inbuf (wa : WordAddr) (v : Word) : (recordRead wa v s).inbuf = s.inbuf := rfl
@[simp] theorem recordRead_eos (wa : WordAddr) (v : Word) : (recordRead wa v s).eos = s.eos := rfl
@[simp] theorem recordRead_out (wa : WordAddr) (v : Word) : (recordRead wa v s).out = s.out := rfl

@[simp] theorem countDraw_busy  : (countDraw s).busy = s.busy := rfl
@[simp] theorem countDraw_pend  : (countDraw s).pend = s.pend := rfl
@[simp] theorem countDraw_errCode  : (countDraw s).errCode = s.errCode := rfl
@[simp] theorem countDraw_errCmd  : (countDraw s).errCmd = s.errCmd := rfl
@[simp] theorem countDraw_errAddr  : (countDraw s).errAddr = s.errAddr := rfl
@[simp] theorem countDraw_width  : (countDraw s).width = s.width := rfl
@[simp] theorem countDraw_height  : (countDraw s).height = s.height := rfl
@[simp] theorem countDraw_result  : (countDraw s).result = s.result := rfl
@[simp] theorem countDraw_acc  : (countDraw s).acc = s.acc := rfl
@[simp] theorem countDraw_cnt  : (countDraw s).cnt = s.cnt := rfl
@[simp] theorem countDraw_inptr  : (countDraw s).inptr = s.inptr := rfl
@[simp] theorem countDraw_inbit  : (countDraw s).inbit = s.inbit := rfl
@[simp] theorem countDraw_cvalid  : (countDraw s).cvalid = s.cvalid := rfl
@[simp] theorem countDraw_freq  : (countDraw s).freq = s.freq := rfl
@[simp] theorem countDraw_len  : (countDraw s).len = s.len := rfl
@[simp] theorem countDraw_code  : (countDraw s).code = s.code := rfl
@[simp] theorem countDraw_inbuf  : (countDraw s).inbuf = s.inbuf := rfl
@[simp] theorem countDraw_eos  : (countDraw s).eos = s.eos := rfl
@[simp] theorem countDraw_out  : (countDraw s).out = s.out := rfl

@[simp] theorem consumeEvent_busy (rest : List Event) : (consumeEvent s rest).busy = s.busy := rfl
@[simp] theorem consumeEvent_pend (rest : List Event) : (consumeEvent s rest).pend = s.pend := rfl
@[simp] theorem consumeEvent_errCode (rest : List Event) : (consumeEvent s rest).errCode = s.errCode := rfl
@[simp] theorem consumeEvent_errCmd (rest : List Event) : (consumeEvent s rest).errCmd = s.errCmd := rfl
@[simp] theorem consumeEvent_errAddr (rest : List Event) : (consumeEvent s rest).errAddr = s.errAddr := rfl
@[simp] theorem consumeEvent_width (rest : List Event) : (consumeEvent s rest).width = s.width := rfl
@[simp] theorem consumeEvent_height (rest : List Event) : (consumeEvent s rest).height = s.height := rfl
@[simp] theorem consumeEvent_result (rest : List Event) : (consumeEvent s rest).result = s.result := rfl
@[simp] theorem consumeEvent_acc (rest : List Event) : (consumeEvent s rest).acc = s.acc := rfl
@[simp] theorem consumeEvent_cnt (rest : List Event) : (consumeEvent s rest).cnt = s.cnt := rfl
@[simp] theorem consumeEvent_inptr (rest : List Event) : (consumeEvent s rest).inptr = s.inptr := rfl
@[simp] theorem consumeEvent_inbit (rest : List Event) : (consumeEvent s rest).inbit = s.inbit := rfl
@[simp] theorem consumeEvent_cvalid (rest : List Event) : (consumeEvent s rest).cvalid = s.cvalid := rfl
@[simp] theorem consumeEvent_freq (rest : List Event) : (consumeEvent s rest).freq = s.freq := rfl
@[simp] theorem consumeEvent_len (rest : List Event) : (consumeEvent s rest).len = s.len := rfl
@[simp] theorem consumeEvent_code (rest : List Event) : (consumeEvent s rest).code = s.code := rfl
@[simp] theorem consumeEvent_inbuf (rest : List Event) : (consumeEvent s rest).inbuf = s.inbuf := rfl
@[simp] theorem consumeEvent_eos (rest : List Event) : (consumeEvent s rest).eos = s.eos := rfl
@[simp] theorem consumeEvent_out (rest : List Event) : (consumeEvent s rest).out = s.out := rfl

@[simp] theorem putBit_busy (b : Bool) : (putBit b s).busy = s.busy := by
  unfold putBit; dsimp only; split <;> rfl
@[simp] theorem putBit_pend (b : Bool) : (putBit b s).pend = s.pend := by
  unfold putBit; dsimp only; split <;> rfl
@[simp] theorem putBit_errCode (b : Bool) : (putBit b s).errCode = s.errCode := by
  unfold putBit; dsimp only; split <;> rfl
@[simp] theorem putBit_errCmd (b : Bool) : (putBit b s).errCmd = s.errCmd := by
  unfold putBit; dsimp only; split <;> rfl
@[simp] theorem putBit_errAddr (b : Bool) : (putBit b s).errAddr = s.errAddr := by
  unfold putBit; dsimp only; split <;> rfl
@[simp] theorem putBit_width (b : Bool) : (putBit b s).width = s.width := by
  unfold putBit; dsimp only; split <;> rfl
@[simp] theorem putBit_height (b : Bool) : (putBit b s).height = s.height := by
  unfold putBit; dsimp only; split <;> rfl
@[simp] theorem putBit_result (b : Bool) : (putBit b s).result = s.result := by
  unfold putBit; dsimp only; split <;> rfl
@[simp] theorem putBit_inptr (b : Bool) : (putBit b s).inptr = s.inptr := by
  unfold putBit; dsimp only; split <;> rfl
@[simp] theorem putBit_inbit (b : Bool) : (putBit b s).inbit = s.inbit := by
  unfold putBit; dsimp only; split <;> rfl
@[simp] theorem putBit_cvalid (b : Bool) : (putBit b s).cvalid = s.cvalid := by
  unfold putBit; dsimp only; split <;> rfl
@[simp] theorem putBit_freq (b : Bool) : (putBit b s).freq = s.freq := by
  unfold putBit; dsimp only; split <;> rfl
@[simp] theorem putBit_len (b : Bool) : (putBit b s).len = s.len := by
  unfold putBit; dsimp only; split <;> rfl
@[simp] theorem putBit_code (b : Bool) : (putBit b s).code = s.code := by
  unfold putBit; dsimp only; split <;> rfl
@[simp] theorem putBit_inbuf (b : Bool) : (putBit b s).inbuf = s.inbuf := by
  unfold putBit; dsimp only; split <;> rfl
@[simp] theorem putBit_eos (b : Bool) : (putBit b s).eos = s.eos := by
  unfold putBit; dsimp only; split <;> rfl
@[simp] theorem putBit_host (b : Bool) : (putBit b s).host = s.host := by
  unfold putBit; dsimp only; split <;> rfl

@[simp] theorem putCode_busy (v : Code) (l : Nat) : (putCode v l s).busy = s.busy := by
  induction l generalizing s with
  | zero => rfl
  | succ l ih => simp [putCode, ih]
@[simp] theorem putCode_pend (v : Code) (l : Nat) : (putCode v l s).pend = s.pend := by
  induction l generalizing s with
  | zero => rfl
  | succ l ih => simp [putCode, ih]
@[simp] theorem putCode_errCode (v : Code) (l : Nat) : (putCode v l s).errCode = s.errCode := by
  induction l generalizing s with
  | zero => rfl
  | succ l ih => simp [putCode, ih]
@[simp] theorem putCode_errCmd (v : Code) (l : Nat) : (putCode v l s).errCmd = s.errCmd := by
  induction l generalizing s with
  | zero => rfl
  | succ l ih => simp [putCode, ih]
@[simp] theorem putCode_errAddr (v : Code) (l : Nat) : (putCode v l s).errAddr = s.errAddr := by
  induction l generalizing s with
  | zero => rfl
  | succ l ih => simp [putCode, ih]
@[simp] theorem putCode_width (v : Code) (l : Nat) : (putCode v l s).width = s.width := by
  induction l generalizing s with
  | zero => rfl
  | succ l ih => simp [putCode, ih]
@[simp] theorem putCode_height (v : Code) (l : Nat) : (putCode v l s).height = s.height := by
  induction l generalizing s with
  | zero => rfl
  | succ l ih => simp [putCode, ih]
@[simp] theorem putCode_result (v : Code) (l : Nat) : (putCode v l s).result = s.result := by
  induction l generalizing s with
  | zero => rfl
  | succ l ih => simp [putCode, ih]
@[simp] theorem putCode_inptr (v : Code) (l : Nat) : (putCode v l s).inptr = s.inptr := by
  induction l generalizing s with
  | zero => rfl
  | succ l ih => simp [putCode, ih]
@[simp] theorem putCode_inbit (v : Code) (l : Nat) : (putCode v l s).inbit = s.inbit := by
  induction l generalizing s with
  | zero => rfl
  | succ l ih => simp [putCode, ih]
@[simp] theorem putCode_cvalid (v : Code) (l : Nat) : (putCode v l s).cvalid = s.cvalid := by
  induction l generalizing s with
  | zero => rfl
  | succ l ih => simp [putCode, ih]
@[simp] theorem putCode_freq (v : Code) (l : Nat) : (putCode v l s).freq = s.freq := by
  induction l generalizing s with
  | zero => rfl
  | succ l ih => simp [putCode, ih]
@[simp] theorem putCode_len (v : Code) (l : Nat) : (putCode v l s).len = s.len := by
  induction l generalizing s with
  | zero => rfl
  | succ l ih => simp [putCode, ih]
@[simp] theorem putCode_code (v : Code) (l : Nat) : (putCode v l s).code = s.code := by
  induction l generalizing s with
  | zero => rfl
  | succ l ih => simp [putCode, ih]
@[simp] theorem putCode_inbuf (v : Code) (l : Nat) : (putCode v l s).inbuf = s.inbuf := by
  induction l generalizing s with
  | zero => rfl
  | succ l ih => simp [putCode, ih]
@[simp] theorem putCode_eos (v : Code) (l : Nat) : (putCode v l s).eos = s.eos := by
  induction l generalizing s with
  | zero => rfl
  | succ l ih => simp [putCode, ih]
@[simp] theorem putCode_host (v : Code) (l : Nat) : (putCode v l s).host = s.host := by
  induction l generalizing s with
  | zero => rfl
  | succ l ih => simp [putCode, ih]

@[simp] theorem advanceBit_busy  : (advanceBit s).busy = s.busy := by
  unfold advanceBit; split <;> rfl
@[simp] theorem advanceBit_pend  : (advanceBit s).pend = s.pend := by
  unfold advanceBit; split <;> rfl
@[simp] theorem advanceBit_errCode  : (advanceBit s).errCode = s.errCode := by
  unfold advanceBit; split <;> rfl
@[simp] theorem advanceBit_errCmd  : (advanceBit s).errCmd = s.errCmd := by
  unfold advanceBit; split <;> rfl
@[simp] theorem advanceBit_errAddr  : (advanceBit s).errAddr = s.errAddr := by
  unfold advanceBit; split <;> rfl
@[simp] theorem advanceBit_width  : (advanceBit s).width = s.width := by
  unfold advanceBit; split <;> rfl
@[simp] theorem advanceBit_height  : (advanceBit s).height = s.height := by
  unfold advanceBit; split <;> rfl
@[simp] theorem advanceBit_result  : (advanceBit s).result = s.result := by
  unfold advanceBit; split <;> rfl
@[simp] theorem advanceBit_acc  : (advanceBit s).acc = s.acc := by
  unfold advanceBit; split <;> rfl
@[simp] theorem advanceBit_cnt  : (advanceBit s).cnt = s.cnt := by
  unfold advanceBit; split <;> rfl
@[simp] theorem advanceBit_cvalid  : (advanceBit s).cvalid = s.cvalid := by
  unfold advanceBit; split <;> rfl
@[simp] theorem advanceBit_freq  : (advanceBit s).freq = s.freq := by
  unfold advanceBit; split <;> rfl
@[simp] theorem advanceBit_len  : (advanceBit s).len = s.len := by
  unfold advanceBit; split <;> rfl
@[simp] theorem advanceBit_code  : (advanceBit s).code = s.code := by
  unfold advanceBit; split <;> rfl
@[simp] theorem advanceBit_inbuf  : (advanceBit s).inbuf = s.inbuf := by
  unfold advanceBit; split <;> rfl
@[simp] theorem advanceBit_eos  : (advanceBit s).eos = s.eos := by
  unfold advanceBit; split <;> rfl
@[simp] theorem advanceBit_out  : (advanceBit s).out = s.out := by
  unfold advanceBit; split <;> rfl
@[simp] theorem advanceBit_host  : (advanceBit s).host = s.host := by
  unfold advanceBit; split <;> rfl

@[simp] theorem latch_busy (e : ErrorKind) (w : Word) : (latch e w s).busy = s.busy := by
  unfold latch; split <;> rfl
@[simp] theorem latch_pend (e : ErrorKind) (w : Word) : (latch e w s).pend = s.pend := by
  unfold latch; split <;> rfl
@[simp] theorem latch_width (e : ErrorKind) (w : Word) : (latch e w s).width = s.width := by
  unfold latch; split <;> rfl
@[simp] theorem latch_height (e : ErrorKind) (w : Word) : (latch e w s).height = s.height := by
  unfold latch; split <;> rfl
@[simp] theorem latch_result (e : ErrorKind) (w : Word) : (latch e w s).result = s.result := by
  unfold latch; split <;> rfl
@[simp] theorem latch_acc (e : ErrorKind) (w : Word) : (latch e w s).acc = s.acc := by
  unfold latch; split <;> rfl
@[simp] theorem latch_cnt (e : ErrorKind) (w : Word) : (latch e w s).cnt = s.cnt := by
  unfold latch; split <;> rfl
@[simp] theorem latch_inptr (e : ErrorKind) (w : Word) : (latch e w s).inptr = s.inptr := by
  unfold latch; split <;> rfl
@[simp] theorem latch_inbit (e : ErrorKind) (w : Word) : (latch e w s).inbit = s.inbit := by
  unfold latch; split <;> rfl
@[simp] theorem latch_cvalid (e : ErrorKind) (w : Word) : (latch e w s).cvalid = s.cvalid := by
  unfold latch; split <;> rfl
@[simp] theorem latch_freq (e : ErrorKind) (w : Word) : (latch e w s).freq = s.freq := by
  unfold latch; split <;> rfl
@[simp] theorem latch_len (e : ErrorKind) (w : Word) : (latch e w s).len = s.len := by
  unfold latch; split <;> rfl
@[simp] theorem latch_code (e : ErrorKind) (w : Word) : (latch e w s).code = s.code := by
  unfold latch; split <;> rfl
@[simp] theorem latch_inbuf (e : ErrorKind) (w : Word) : (latch e w s).inbuf = s.inbuf := by
  unfold latch; split <;> rfl
@[simp] theorem latch_eos (e : ErrorKind) (w : Word) : (latch e w s).eos = s.eos := by
  unfold latch; split <;> rfl
@[simp] theorem latch_out (e : ErrorKind) (w : Word) : (latch e w s).out = s.out := by
  unfold latch; split <;> rfl
@[simp] theorem latch_host (e : ErrorKind) (w : Word) : (latch e w s).host = s.host := by
  unfold latch; split <;> rfl

@[simp] theorem latchOverrun_busy (wa : WordAddr) : (latchOverrun wa s).busy = s.busy := by
  unfold latchOverrun; split <;> rfl
@[simp] theorem latchOverrun_pend (wa : WordAddr) : (latchOverrun wa s).pend = s.pend := by
  unfold latchOverrun; split <;> rfl
@[simp] theorem latchOverrun_width (wa : WordAddr) : (latchOverrun wa s).width = s.width := by
  unfold latchOverrun; split <;> rfl
@[simp] theorem latchOverrun_height (wa : WordAddr) : (latchOverrun wa s).height = s.height := by
  unfold latchOverrun; split <;> rfl
@[simp] theorem latchOverrun_result (wa : WordAddr) : (latchOverrun wa s).result = s.result := by
  unfold latchOverrun; split <;> rfl
@[simp] theorem latchOverrun_acc (wa : WordAddr) : (latchOverrun wa s).acc = s.acc := by
  unfold latchOverrun; split <;> rfl
@[simp] theorem latchOverrun_cnt (wa : WordAddr) : (latchOverrun wa s).cnt = s.cnt := by
  unfold latchOverrun; split <;> rfl
@[simp] theorem latchOverrun_inptr (wa : WordAddr) : (latchOverrun wa s).inptr = s.inptr := by
  unfold latchOverrun; split <;> rfl
@[simp] theorem latchOverrun_inbit (wa : WordAddr) : (latchOverrun wa s).inbit = s.inbit := by
  unfold latchOverrun; split <;> rfl
@[simp] theorem latchOverrun_cvalid (wa : WordAddr) : (latchOverrun wa s).cvalid = s.cvalid := by
  unfold latchOverrun; split <;> rfl
@[simp] theorem latchOverrun_freq (wa : WordAddr) : (latchOverrun wa s).freq = s.freq := by
  unfold latchOverrun; split <;> rfl
@[simp] theorem latchOverrun_len (wa : WordAddr) : (latchOverrun wa s).len = s.len := by
  unfold latchOverrun; split <;> rfl
@[simp] theorem latchOverrun_code (wa : WordAddr) : (latchOverrun wa s).code = s.code := by
  unfold latchOverrun; split <;> rfl
@[simp] theorem latchOverrun_inbuf (wa : WordAddr) : (latchOverrun wa s).inbuf = s.inbuf := by
  unfold latchOverrun; split <;> rfl
@[simp] theorem latchOverrun_eos (wa : WordAddr) : (latchOverrun wa s).eos = s.eos := by
  unfold latchOverrun; split <;> rfl
@[simp] theorem latchOverrun_out (wa : WordAddr) : (latchOverrun wa s).out = s.out := by
  unfold latchOverrun; split <;> rfl
@[simp] theorem latchOverrun_host (wa : WordAddr) : (latchOverrun wa s).host = s.host := by
  unfold latchOverrun; split <;> rfl

@[simp] theorem emitAll_busy (xs : List Byte) : (emitAll xs s).busy = s.busy := by
  induction xs generalizing s with
  | nil => rfl
  | cons x xs ih => exact ih (emit x s)
@[simp] theorem emitAll_pend (xs : List Byte) : (emitAll xs s).pend = s.pend := by
  induction xs generalizing s with
  | nil => rfl
  | cons x xs ih => exact ih (emit x s)
@[simp] theorem emitAll_errCode (xs : List Byte) : (emitAll xs s).errCode = s.errCode := by
  induction xs generalizing s with
  | nil => rfl
  | cons x xs ih => exact ih (emit x s)
@[simp] theorem emitAll_errCmd (xs : List Byte) : (emitAll xs s).errCmd = s.errCmd := by
  induction xs generalizing s with
  | nil => rfl
  | cons x xs ih => exact ih (emit x s)
@[simp] theorem emitAll_errAddr (xs : List Byte) : (emitAll xs s).errAddr = s.errAddr := by
  induction xs generalizing s with
  | nil => rfl
  | cons x xs ih => exact ih (emit x s)
@[simp] theorem emitAll_width (xs : List Byte) : (emitAll xs s).width = s.width := by
  induction xs generalizing s with
  | nil => rfl
  | cons x xs ih => exact ih (emit x s)
@[simp] theorem emitAll_height (xs : List Byte) : (emitAll xs s).height = s.height := by
  induction xs generalizing s with
  | nil => rfl
  | cons x xs ih => exact ih (emit x s)
@[simp] theorem emitAll_result (xs : List Byte) : (emitAll xs s).result = s.result := by
  induction xs generalizing s with
  | nil => rfl
  | cons x xs ih => exact ih (emit x s)
@[simp] theorem emitAll_acc (xs : List Byte) : (emitAll xs s).acc = s.acc := by
  induction xs generalizing s with
  | nil => rfl
  | cons x xs ih => exact ih (emit x s)
@[simp] theorem emitAll_cnt (xs : List Byte) : (emitAll xs s).cnt = s.cnt := by
  induction xs generalizing s with
  | nil => rfl
  | cons x xs ih => exact ih (emit x s)
@[simp] theorem emitAll_inptr (xs : List Byte) : (emitAll xs s).inptr = s.inptr := by
  induction xs generalizing s with
  | nil => rfl
  | cons x xs ih => exact ih (emit x s)
@[simp] theorem emitAll_inbit (xs : List Byte) : (emitAll xs s).inbit = s.inbit := by
  induction xs generalizing s with
  | nil => rfl
  | cons x xs ih => exact ih (emit x s)
@[simp] theorem emitAll_cvalid (xs : List Byte) : (emitAll xs s).cvalid = s.cvalid := by
  induction xs generalizing s with
  | nil => rfl
  | cons x xs ih => exact ih (emit x s)
@[simp] theorem emitAll_freq (xs : List Byte) : (emitAll xs s).freq = s.freq := by
  induction xs generalizing s with
  | nil => rfl
  | cons x xs ih => exact ih (emit x s)
@[simp] theorem emitAll_len (xs : List Byte) : (emitAll xs s).len = s.len := by
  induction xs generalizing s with
  | nil => rfl
  | cons x xs ih => exact ih (emit x s)
@[simp] theorem emitAll_code (xs : List Byte) : (emitAll xs s).code = s.code := by
  induction xs generalizing s with
  | nil => rfl
  | cons x xs ih => exact ih (emit x s)
@[simp] theorem emitAll_inbuf (xs : List Byte) : (emitAll xs s).inbuf = s.inbuf := by
  induction xs generalizing s with
  | nil => rfl
  | cons x xs ih => exact ih (emit x s)
@[simp] theorem emitAll_eos (xs : List Byte) : (emitAll xs s).eos = s.eos := by
  induction xs generalizing s with
  | nil => rfl
  | cons x xs ih => exact ih (emit x s)
@[simp] theorem emitAll_host (xs : List Byte) : (emitAll xs s).host = s.host := by
  induction xs generalizing s with
  | nil => rfl
  | cons x xs ih => exact ih (emit x s)

theorem emitAll_out (xs : List Byte) : (emitAll xs s).out = s.out ++ xs := by
  induction xs generalizing s with
  | nil => simp [emitAll]
  | cons x xs ih => simpa [emitAll] using ih (emit x s)

end Sys2Proof.Machine
end

