-- ==== Sys2Proof/Laws/Ops.lean ====
section
/-! SUPPORT. What each shared operation does, said once: the latch and the completion step, the packer's
and the reader's primitives in terms of the bit strings of Safety.lean. -/

namespace Sys2Proof.Machine

open Sys2Proof.Safety

/-! ### The latch and the completion step -/

/-- Raising an error leaves exactly R283 and R284's state. -/
theorem raiseError_eq (e : ErrorKind) (s : State) :
    raiseError e s = failedState (errorNumber e) s := by
  unfold raiseError failedState latch noError
  by_cases h : s.errCode = 0#4 <;> simp [h]

/-- A host write while BUSY = 1 leaves exactly R84's state. -/
theorem latchOverrun_eq (wa : WordAddr) (s : State) :
    latchOverrun wa s = overrunState (byteAddr wa) s := by
  unfold latchOverrun overrunState noError
  by_cases h : s.errCode = 0#4 <;> simp [h, errorNumber]

theorem errorNumber_ne_zero (e : ErrorKind) : errorNumber e ≠ 0#4 := by cases e <;> decide

theorem errorNumber_le (e : ErrorKind) : (errorNumber e).toNat ≤ 10 := by cases e <;> decide

theorem complete_ok (s t : State) : complete s (.ok t) = .next { t with busy := false } := rfl

theorem complete_err (s : State) (e : ErrorKind) :
    complete s (.err e) = .next (failedState (errorNumber e) s) := by
  simp [complete, raiseError_eq]

theorem complete_hold (s : State) : complete s .hold = .next s := rfl

/-- All that a completion step can answer (R121). -/
theorem complete_cases {s u : State} {r : CmdResult} (h : complete s r = .next u) :
    (∃ t, r = .ok t ∧ u = { t with busy := false }) ∨
    (∃ e, r = .err e ∧ u = failedState (errorNumber e) s) ∨ (r = .hold ∧ u = s) := by
  cases r with
  | ok t => exact .inl ⟨t, rfl, by simpa [complete, eq_comm] using h⟩
  | err e => exact .inr (.inl ⟨e, rfl, by simpa [complete_err, eq_comm] using h⟩)
  | hold => exact .inr (.inr ⟨rfl, by simpa [complete, eq_comm] using h⟩)

/-- A completion step always answers a next state. -/
theorem complete_next (s : State) (r : CmdResult) : ∃ u, complete s r = .next u := by
  cases r <;> exact ⟨_, rfl⟩

/-- What the short-input rule of R87 can return. -/
theorem whenInputShort_cases (s : State) (e : ErrorKind) :
    (s.eos = true ∧ whenInputShort s e = .err e) ∨ (s.eos = false ∧ whenInputShort s e = .hold) := by
  unfold whenInputShort
  cases s.eos <;> simp

/-! ### Bit strings -/

@[simp] theorem length_byteBits (x : Byte) : (byteBits x).length = 8 := by simp [byteBits]

@[simp] theorem bitsOf_nil : bitsOf [] = [] := rfl

@[simp] theorem bitsOf_cons (x : Byte) (xs : List Byte) : bitsOf (x :: xs) = byteBits x ++ bitsOf xs := by
  simp [bitsOf]

@[simp] theorem bitsOf_append (xs ys : List Byte) : bitsOf (xs ++ ys) = bitsOf xs ++ bitsOf ys := by
  simp [bitsOf]

@[simp] theorem length_bitsOf (xs : List Byte) : (bitsOf xs).length = 8 * xs.length := by
  induction xs with
  | nil => rfl
  | cons x xs ih => simp [ih]; omega

@[simp] theorem length_lowBits (v l : Nat) : (lowBits v l).length = l := by simp [lowBits]

@[simp] theorem lowBits_zero (v : Nat) : lowBits v 0 = [] := rfl

/-- The bit string one bit longer: the next higher bit first. -/
theorem lowBits_succ (v l : Nat) : lowBits v (l + 1) = v.testBit l :: lowBits v l := by
  simp only [lowBits, List.range_succ_eq_map, List.map_cons, List.map_map]
  refine List.cons_eq_cons.2 ⟨by simp, List.map_congr_left ?_⟩
  intro i _
  simp only [Function.comp]
  congr 1
  omega

/-- The bit string one bit longer, at the low end. -/
theorem lowBits_append_bit (v l : Nat) (b : Bool) :
    lowBits (2 * v + b.toNat) (l + 1) = lowBits v l ++ [b] := by
  induction l with
  | zero => cases b <;> simp [lowBits_succ, Nat.testBit_zero]
  | succ l ih =>
    rw [lowBits_succ, ih, lowBits_succ v l, List.cons_append]
    congr 1
    rw [Nat.testBit_succ]
    congr 1
    cases b <;> simp; omega

theorem byteBits_eq (x : Byte) : byteBits x = lowBits x.toNat 8 := by
  simp only [byteBits, lowBits]
  rfl

/-! ### The packer (R201, R202) -/

/-- ACC << 1 | b, as the number it is modulo 2^8. -/
theorem toNat_shiftIn (a : BitVec 8) (b : Bool) :
    ((a <<< 1) ||| BitVec.setWidth 8 (BitVec.ofBool b)).toNat = (2 * a.toNat + b.toNat) % 256 := by
  revert a b
  decide

/-- The low bits of a byte depend on the byte modulo 2^8 only. -/
theorem lowBits_mod (v l : Nat) (h : l ≤ 8) : lowBits (v % 256) l = lowBits v l := by
  simp only [lowBits]
  refine List.map_congr_left fun i hi => ?_
  have hi : i < l := by simpa using hi
  rw [show (256 : Nat) = 2 ^ 8 from rfl, Nat.testBit_mod_two_pow]
  simp; omega

/-- CNT counts modulo 8 (R201). -/
theorem putBit_cnt (b : Bool) (s : State) : (putBit b s).cnt.toNat = (s.cnt.toNat + 1) % 8 := by
  unfold putBit
  have := s.cnt.isLt
  by_cases h : s.cnt = 7#3
  · simp [h]
  · have : s.cnt.toNat ≠ 7 := fun h' => h (BitVec.eq_of_toNat_eq h')
    simp [h, BitVec.toNat_add]

/-- One packed bit is one more bit at the end of everything packed so far (R201). -/
theorem packedBits_putBit (b : Bool) (s : State) :
    packedBits (putBit b s) = packedBits s ++ [b] := by
  have hlt := s.cnt.isLt
  unfold putBit packedBits
  by_cases h : s.cnt = 7#3
  · simp only [h, if_true, emit_out, bitsOf_append, bitsOf_cons, bitsOf_nil, List.append_nil,
      byteBits_eq, toNat_shiftIn, List.append_assoc]
    congr 1
    have := lowBits_append_bit s.acc.toNat 7 b
    rw [lowBits_mod _ _ (by omega), this]
    simp
  · have h7 : s.cnt.toNat ≠ 7 := fun h' => h (BitVec.eq_of_toNat_eq h')
    simp only [h, if_false, toNat_shiftIn, List.append_assoc]
    congr 1
    have e : (s.cnt + 1#3).toNat = s.cnt.toNat + 1 := by
      simp only [BitVec.toNat_add, BitVec.toNat_ofNat]
      omega
    rw [e, lowBits_mod _ _ (by omega), lowBits_append_bit]

/-- A packed code is its bit string at the end of everything packed so far (R202). -/
theorem packedBits_putCode (v : Code) (l : Nat) (s : State) :
    packedBits (putCode v l s) = packedBits s ++ lowBits v.toNat l := by
  induction l generalizing s with
  | zero => simp [putCode]
  | succ l ih =>
    rw [putCode, ih, packedBits_putBit, lowBits_succ, List.append_assoc]
    rfl

theorem putCode_cnt (v : Code) (l : Nat) (s : State) :
    (putCode v l s).cnt.toNat = (s.cnt.toNat + l) % 8 := by
  induction l generalizing s with
  | zero =>
    have := s.cnt.isLt
    simp [putCode]
    omega
  | succ l ih => rw [putCode, ih, putBit_cnt]; omega

/-- PutBit only appends to OUT. -/
theorem putBit_out (b : Bool) (s : State) : s.out <+: (putBit b s).out := by
  unfold putBit
  by_cases h : s.cnt = 7#3 <;> simp [h]

theorem putCode_out (v : Code) (l : Nat) (s : State) : s.out <+: (putCode v l s).out := by
  induction l generalizing s with
  | zero => exact List.prefix_refl _
  | succ l ih => exact (putBit_out _ s).trans (ih _)

/-- The bound of R42 is kept by one bit. -/
theorem putBit_acc (b : Bool) (s : State) (h : s.acc.toNat < 2 ^ s.cnt.toNat) :
    (putBit b s).acc.toNat < 2 ^ (putBit b s).cnt.toNat := by
  have hlt := s.cnt.isLt
  unfold putBit
  by_cases h7 : s.cnt = 7#3
  · simp [h7]
  · have hn : s.cnt.toNat ≠ 7 := fun h' => h7 (BitVec.eq_of_toNat_eq h')
    have e : (s.cnt + 1#3).toNat = s.cnt.toNat + 1 := by
      simp only [BitVec.toNat_add, BitVec.toNat_ofNat]
      omega
    simp only [h7, if_false, toNat_shiftIn, e, Nat.pow_succ]
    have : b.toNat ≤ 1 := Bool.toNat_le b
    exact lt_of_le_of_lt (Nat.mod_le _ _) (by omega)

theorem putCode_acc (v : Code) (l : Nat) (s : State) (h : s.acc.toNat < 2 ^ s.cnt.toNat) :
    (putCode v l s).acc.toNat < 2 ^ (putCode v l s).cnt.toNat := by
  induction l generalizing s with
  | zero => exact h
  | succ l ih => exact ih _ (putBit_acc _ s h)

/-! ### The reader (R221) -/

/-- The unread bits of a reader at a delivered byte. -/
theorem unreadBits_at {s : State} {x : Byte} (h : s.inbuf[s.inptr]? = some x) :
    unreadBits s =
      (byteBits x).drop s.inbit.toNat ++ bitsOf (s.inbuf.drop (s.inptr + 1)) := by
  obtain ⟨hl, hx⟩ := List.getElem?_eq_some_iff.1 h
  have := s.inbit.isLt
  rw [unreadBits, List.drop_eq_getElem_cons hl, hx, bitsOf_cons, List.drop_append_of_le_length]
  simp; omega

/-- NextBit has no bit exactly where no unread bit is delivered. -/
theorem nextBit_eq_none (s : State) : nextBit s = none ↔ unreadBits s = [] := by
  have hlt := s.inbit.isLt
  unfold nextBit
  cases h : s.inbuf[s.inptr]? with
  | none =>
    have := List.getElem?_eq_none_iff.1 h
    simp [unreadBits, List.drop_eq_nil_of_le this]
  | some x =>
    rw [unreadBits_at h]
    simp only [reduceCtorEq, false_iff]
    intro h0
    have := congrArg List.length h0
    simp at this
    omega

/-- NextBit takes the first unread bit (R221). -/
theorem nextBit_eq_some {s t : State} {b : Bool} (h : nextBit s = some (b, t)) :
    unreadBits s = b :: unreadBits t ∧ t = { s with inptr := t.inptr, inbit := t.inbit } := by
  have hlt := s.inbit.isLt
  unfold nextBit at h
  cases hx : s.inbuf[s.inptr]? with
  | none => simp [hx] at h
  | some x =>
    simp only [hx, Option.some.injEq, Prod.mk.injEq] at h
    obtain ⟨hb, rfl⟩ := h
    have hd : (byteBits x).drop s.inbit.toNat = b :: (byteBits x).drop (s.inbit.toNat + 1) := by
      have hl : s.inbit.toNat < (byteBits x).length := by simpa using hlt
      rw [List.drop_eq_getElem_cons hl]
      congr 1
      simpa [byteBits] using hb
    refine ⟨?_, by unfold advanceBit; split <;> rfl⟩
    rw [unreadBits_at hx, hd, List.cons_append]
    congr 1
    unfold advanceBit
    by_cases h7 : s.inbit = 7#3
    · simp [h7, unreadBits, List.drop_eq_nil_of_le]
    · have hn : s.inbit.toNat ≠ 7 := fun h' => h7 (BitVec.eq_of_toNat_eq h')
      have e : (s.inbit + 1#3).toNat = s.inbit.toNat + 1 := by
        simp only [BitVec.toNat_add, BitVec.toNat_ofNat]
        omega
      simp only [h7, if_false]
      rw [unreadBits_at (s := { s with inbit := s.inbit + 1#3 }) hx]
      simp [e]

/-- The reader stays inside the delivered input (R221). -/
theorem nextBit_bounds {s t : State} {b : Bool} (h : nextBit s = some (b, t)) :
    t.inptr ≤ t.inbuf.length ∧ (t.inbit ≠ 0#3 → t.inptr < t.inbuf.length) := by
  unfold nextBit at h
  cases hx : s.inbuf[s.inptr]? with
  | none => simp [hx] at h
  | some x =>
    obtain ⟨hl, -⟩ := List.getElem?_eq_some_iff.1 hx
    simp only [hx, Option.some.injEq, Prod.mk.injEq] at h
    obtain ⟨-, rfl⟩ := h
    unfold advanceBit
    by_cases h7 : s.inbit = 7#3
    · simp [h7]; omega
    · simp [h7]; omega

end Sys2Proof.Machine
end

