-- ==== Sys2Proof/Laws/Commands.lean ====
section
/-! SUPPORT. What each command's rule can return, and the laws of the tree builder, the code assigner and
the walk that more than one proof needs. -/

namespace Sys2Proof.Machine

open Sys2Proof.Safety

/-! ### Every command is one completion step -/

/-- What the rule of a command returns (30_encoding.md R121). -/
def resultOf (i : Instr) (s : State) : CmdResult :=
  match i with
  | .nop => .ok s
  | .sreset => .ok (resetBlock s)
  | .clrerr => .ok (clearLatch s)
  | .build c => cmdBuild c s
  | .assign c => cmdAssign c s
  | .wrlt c => cmdWrlt c s
  | .rdlt c => cmdRdlt c s
  | .encsym c y => cmdEncsym c y s
  | .encpx pr pg pb => cmdEncpx pr pg pb s
  | .flush => cmdFlush s
  | .decsym c => cmdDecsym c s
  | .decpx => cmdDecpx s
  | .hdrw => cmdHdrw s
  | .hdrr => cmdHdrr s

theorem exec_eq_complete (i : Instr) (s : State) : exec i s = complete s (resultOf i s) := by
  cases i <;> rfl

/-- What any command can answer: its effect with BUSY cleared, the error state, or no step at all. -/
theorem exec_cases {i : Instr} {s u : State} (h : exec i s = .next u) :
    (∃ t, resultOf i s = .ok t ∧ u = { t with busy := false }) ∨
    (∃ e, resultOf i s = .err e ∧ u = failedState (errorNumber e) s) ∨
    (resultOf i s = .hold ∧ u = s) :=
  complete_cases (exec_eq_complete i s ▸ h)

/-! ### The walk -/

/-- What one turn at a node below the root does (R222). -/
theorem walkFrom_node (c : Channel) (n p : Nat) {k : Nat} (hk : k ≠ 0) (s : State) :
    walkFrom c (n + 1) k p s =
      match nodeKind s c k p with
      | .leaf y => .sym y s
      | .unpopulated => .err .corruptTree
      | .internal =>
        match nextBit s with
        | none => walkOutOfInput s
        | some (b, t) => walkFrom c n (k + 1) (2 * p + b.toNat) t := by
  rw [walkFrom, if_neg hk]
  all_goals rfl

/-- What the first turn, at the root, does (R222). -/
theorem walkFrom_root (c : Channel) (n p : Nat) (s : State) :
    walkFrom c (n + 1) 0 p s =
      match nextBit s with
      | none => walkOutOfInput s
      | some (b, t) => walkFrom c n 1 b.toNat t := by
  rw [walkFrom, if_pos rfl]
  all_goals rfl

/-- The reader's bounds of R221. -/
def ReaderInside (s : State) : Prop :=
  s.inptr ≤ s.inbuf.length ∧ (s.inbit ≠ 0#3 → s.inptr < s.inbuf.length)

/-- A walk that returns a symbol changes the reader alone, and keeps it inside the input. -/
theorem walkFrom_sym_frame {c : Channel} {n k p : Nat} {s t : State} {y : Symbol}
    (h : walkFrom c n k p s = .sym y t) :
    t = { s with inptr := t.inptr, inbit := t.inbit } ∧ (ReaderInside s → ReaderInside t) := by
  induction n generalizing k p s with
  | zero => simp [walkFrom] at h
  | succ n ih =>
    have next : ∀ {k' p' : Nat},
        (match nextBit s with
          | none => walkOutOfInput s
          | some (b, t) => walkFrom c n k' (p' + b.toNat) t) = .sym y t →
        t = { s with inptr := t.inptr, inbit := t.inbit } ∧ (ReaderInside s → ReaderInside t) := by
      intro k' p' h
      cases hb : nextBit s with
      | none =>
        rw [hb] at h
        simp only [walkOutOfInput] at h
        split at h <;> simp at h
      | some bt =>
        obtain ⟨b, u⟩ := bt
        rw [hb] at h
        obtain ⟨e, hin⟩ := ih h
        obtain ⟨-, eu⟩ := nextBit_eq_some hb
        refine ⟨?_, fun _ => hin (nextBit_bounds hb)⟩
        rw [eu] at e
        exact e
    by_cases hk : k = 0
    · subst hk
      rw [walkFrom_root] at h
      exact next (k' := 1) (p' := 0) (by simpa using h)
    · rw [walkFrom_node c n p hk] at h
      split at h
      · simp only [WalkResult.sym.injEq] at h
        obtain ⟨-, rfl⟩ := h
        exact ⟨rfl, id⟩
      · simp at h
      · exact next h

/-- The same of the whole walk. -/
theorem walk_sym_frame {c : Channel} {s t : State} {y : Symbol} (h : walk c s = .sym y t) :
    t = { s with inptr := t.inptr, inbit := t.inbit } ∧ (ReaderInside s → ReaderInside t) := by
  unfold walk at h
  split at h
  · simp at h
  · exact walkFrom_sym_frame h

/-! ### What no command writes -/

/-- A command that returns ok, but for SRESET, leaves PEND, the input, the host's side and FREQ, and OUT
only grows. -/
theorem resultOf_ok_frame {i : Instr} {s t : State} (h : resultOf i s = .ok t) (hi : i ≠ .sreset) :
    t.pend = s.pend ∧ t.inbuf = s.inbuf ∧ t.eos = s.eos ∧ t.host = s.host ∧ t.freq = s.freq ∧
      s.out <+: t.out := by
  cases i with
  | sreset => exact absurd rfl hi
  | nop => simp only [resultOf, CmdResult.ok.injEq] at h; simp [← h]
  | clrerr => simp only [resultOf, CmdResult.ok.injEq] at h; simp [← h]
  | build c => simp only [resultOf, cmdBuild, CmdResult.ok.injEq] at h; simp [← h]
  | assign c =>
    simp only [resultOf, cmdAssign] at h
    split at h <;> simp at h
    simp [← h]
  | wrlt c =>
    simp only [resultOf, cmdWrlt] at h
    split at h <;> simp at h
    simp [← h, emitAll_out]
  | rdlt c =>
    simp only [resultOf, cmdRdlt, whenInputShort] at h
    repeat' split at h
    all_goals simp at h
    simp [← h]
  | encsym c y =>
    simp only [resultOf, cmdEncsym] at h
    repeat' split at h
    all_goals simp at h
    simp [← h, putSymbol, putCode_out]
  | encpx a b c =>
    simp only [resultOf, cmdEncpx] at h
    repeat' split at h
    all_goals simp at h
    simp only [← h, putSymbol, putCode_pend, putCode_inbuf, putCode_eos, putCode_host, putCode_freq,
      true_and]
    exact ((putCode_out _ _ _).trans (putCode_out _ _ _)).trans (putCode_out _ _ _)
  | flush =>
    simp only [resultOf, cmdFlush] at h
    split at h <;> simp only [CmdResult.ok.injEq] at h <;> simp [← h]
  | decsym c =>
    simp only [resultOf, cmdDecsym] at h
    repeat' split at h
    all_goals simp at h
    next hw =>
    obtain ⟨e, -⟩ := walk_sym_frame hw
    rw [← h, e]
    simp
  | decpx =>
    simp only [resultOf, cmdDecpx] at h
    repeat' split at h
    all_goals simp at h
    next h1 _ _ _ h2 _ _ _ h3 =>
    obtain ⟨e1, -⟩ := walk_sym_frame h1
    obtain ⟨e2, -⟩ := walk_sym_frame h2
    obtain ⟨e3, -⟩ := walk_sym_frame h3
    rw [← h, e3, e2, e1]
    simp
  | hdrw =>
    simp only [resultOf, cmdHdrw] at h
    split at h <;> simp at h
    simp [← h, emitAll_out]
  | hdrr =>
    simp only [resultOf, cmdHdrr, whenInputShort] at h
    repeat' split at h
    all_goals simp at h
    simp [← h]

/-! ### The decode tree -/

theorem codeRows_eq (s : State) (c : Channel) :
    codeRows s c = allSymbols.map fun y => (y, s.lenAt c y, s.codeAt c y) := by
  show allSymbols.zip ((Table.entries (s.len.get c)).zip (Table.entries (s.code.get c))) = _
  rw [Table.entries_eq, Table.entries_eq, List.zip_map']
  simpa [State.lenAt, State.codeAt] using
    List.zip_map' (f := id) (g := fun y => (s.lenAt c y, s.codeAt c y)) (l := allSymbols)

/-- The leaf rule of R185, symbol by symbol. -/
theorem leafAt_eq (s : State) (c : Channel) (k p : Nat) :
    leafAt s c k p = allSymbols.find? fun y => s.lenNat c y == k && s.codeNat c y == p := by
  rw [leafAt, codeRows_eq, List.find?_map, Option.map_map]
  simp [Function.comp_def, State.lenNat, State.codeNat]

theorem leafAt_some {s : State} {c : Channel} {k p : Nat} {y : Symbol}
    (h : leafAt s c k p = some y) : s.lenNat c y = k ∧ s.codeNat c y = p := by
  rw [leafAt_eq] at h
  simpa using List.find?_some h

theorem leafAt_none {s : State} {c : Channel} {k p : Nat} (h : leafAt s c k p = none) (y : Symbol) :
    ¬ (s.lenNat c y = k ∧ s.codeNat c y = p) := by
  rw [leafAt_eq] at h
  simpa using List.find?_eq_none.1 h y (mem_allSymbols y)

theorem internalAt_iff (s : State) (c : Channel) (k p : Nat) :
    internalAt s c k p = true ↔
      ∃ y, k < s.lenNat c y ∧ s.codeNat c y >>> (s.lenNat c y - k) = p := by
  simp [internalAt, codeRows_eq, mem_allSymbols, State.lenNat, State.codeNat]

theorem emptyTree_iff (s : State) (c : Channel) : emptyTree s c = true ↔ ∀ y, s.lenNat c y = 0 := by
  show (Table.entries (s.len.get c)).all (fun l => l == 0#8) = true ↔ _
  simp [Table.entries_eq, mem_allSymbols, State.lenNat, State.lenAt, ← BitVec.toNat_inj]

/-! ### The tree builder -/

/-- The present symbols, symbol by symbol (R145). -/
theorem presentSymbols_eq (f : Table Word) :
    presentSymbols f = allSymbols.filter fun y => Table.get f y != 0#32 := by
  rw [presentSymbols, Table.rows_eq, List.filter_map, List.map_map]
  simp [Function.comp_def]

theorem mem_presentSymbols (f : Table Word) (y : Symbol) :
    y ∈ presentSymbols f ↔ Table.get f y ≠ 0#32 := by
  simp [presentSymbols_eq, mem_allSymbols]

theorem nodup_presentSymbols (f : Table Word) : (presentSymbols f).Nodup :=
  presentSymbols_eq f ▸ nodup_allSymbols.filter _

theorem length_presentSymbols_le (f : Table Word) : (presentSymbols f).length ≤ 256 :=
  presentSymbols_eq f ▸ length_allSymbols ▸ List.length_filter_le _ _

/-- Extracting the first node loses and adds none (R142). -/
theorem extractMin_perm (t : HTree) (q : List HTree) :
    ((extractMin t q).1 :: (extractMin t q).2).Perm (t :: q) := by
  induction q generalizing t with
  | nil => simp [extractMin]
  | cons u q ih =>
    rw [extractMin]
    cases h : extractMin u q with
    | mk m rest =>
      have hp := ih u
      rw [h] at hp
      dsimp only at hp ⊢
      split
      · exact List.Perm.refl _
      · exact (List.Perm.swap ..).trans (hp.cons t)

/-- Not coming before is transitive in the way a minimum needs (R142). -/
theorem comesBefore_trans {a b c : HTree} (h1 : comesBefore a b = true)
    (h2 : comesBefore c b = false) : comesBefore c a = false := by
  simp only [comesBefore, Bool.or_eq_true, Bool.and_eq_true, decide_eq_true_eq, beq_iff_eq,
    Bool.or_eq_false_iff, Bool.and_eq_false_iff, decide_eq_false_iff_not, beq_eq_false_iff_ne] at *
  omega

theorem comesBefore_irrefl (a : HTree) : comesBefore a a = false := by
  simp [comesBefore]

/-- No node comes before the one extracted (R142). -/
theorem extractMin_le (t : HTree) (q : List HTree) :
    ∀ u ∈ t :: q, comesBefore u (extractMin t q).1 = false := by
  induction q generalizing t with
  | nil => simp [extractMin, comesBefore_irrefl]
  | cons v q ih =>
    intro u hu
    rw [extractMin]
    cases h : extractMin v q with
    | mk m rest =>
      have hv := ih v
      rw [h] at hv
      dsimp only at hv ⊢
      split
      · next hlt =>
        rcases List.mem_cons.1 hu with rfl | hu
        · exact comesBefore_irrefl _
        · exact comesBefore_trans hlt (hv u hu)
      · next hge =>
        rcases List.mem_cons.1 hu with rfl | hu
        · simpa using hge
        · exact hv u hu

/-- A merge of two or more nodes takes away one (R145). -/
theorem length_mergeOnce (id : Nat) {q : List HTree} (h : 2 ≤ q.length) :
    (mergeOnce id q).length = q.length - 1 := by
  match q, h with
  | t :: u :: rest, _ =>
    rw [mergeOnce]
    have hp := (extractMin_perm t (u :: rest)).length_eq
    cases h1 : extractMin t (u :: rest) with
    | mk a q1 =>
      rw [h1] at hp
      cases q1 with
      | nil => simp at hp
      | cons v q1 =>
        have hp2 := (extractMin_perm v q1).length_eq
        cases h2 : extractMin v q1 with
        | mk b q2 =>
          rw [h2] at hp2
          simp only [h2, List.length_cons] at hp hp2 ⊢
          omega

/-! ### The code assigner -/

/-- The coded pairs, symbol by symbol (R160). -/
theorem codedPairs_eq (t : Table (BitVec 8)) :
    codedPairs t =
      (allSymbols.map fun y => ((Table.get t y).toNat, y)).filter fun p => p.1 != 0 := by
  rw [codedPairs, Table.rows_eq, List.map_map]
  rfl

theorem mem_codedPairs (t : Table (BitVec 8)) (l : Nat) (y : Symbol) :
    (l, y) ∈ codedPairs t ↔ l ≠ 0 ∧ (Table.get t y).toNat = l := by
  simp only [codedPairs_eq, List.mem_filter, List.mem_map, Prod.mk.injEq, bne_iff_ne, ne_eq]
  constructor
  · rintro ⟨⟨z, -, h, rfl⟩, h0⟩
    exact ⟨h0, h⟩
  · rintro ⟨h0, h⟩
    exact ⟨⟨y, mem_allSymbols y, h, rfl⟩, h0⟩

theorem mem_sortedPairs (t : Table (BitVec 8)) (l : Nat) (y : Symbol) :
    (l, y) ∈ sortedPairs t ↔ l ≠ 0 ∧ (Table.get t y).toNat = l := by
  rw [sortedPairs, (List.perm_insertionSort pairLe _).mem_iff, mem_codedPairs]

theorem nodup_sortedPairs (t : Table (BitVec 8)) : (sortedPairs t).Nodup := by
  refine (List.perm_insertionSort pairLe _).nodup_iff.2 ?_
  rw [codedPairs_eq]
  refine List.Nodup.filter _ ?_
  exact nodup_allSymbols.map fun a b h => (Prod.mk.injEq .. ▸ h).2

/-- The codes a successful assignment gives are those of its pairs, in order (R164). -/
theorem assignCodes_symbols {prev : Option (Nat × Nat)} {ps : List (Nat × Symbol)}
    {cs : List (Symbol × Nat)} (h : assignCodes prev ps = some cs) :
    cs.map Prod.fst = ps.map Prod.snd := by
  induction ps generalizing prev cs with
  | nil => simp [assignCodes] at h; simp [← h]
  | cons p ps ih =>
    obtain ⟨l, y⟩ := p
    rw [assignCodes] at h
    split at h
    · simp at h
    · cases hr : assignCodes (some (nextCode prev l, l)) ps with
      | none => simp [hr] at h
      | some ds =>
        simp only [hr, Option.some.injEq] at h
        simp [← h, ih hr]

end Sys2Proof.Machine
end

