-- ==== Sys2Proof/Laws/Encoding.lean ====
section
/-! SUPPORT. The fields of an encoded word of format P read back (30_encoding.md R114); the other formats
have few enough operands to be decided. -/

namespace Sys2Proof

variable (op : BitVec 8) (pr pg pb : Symbol)

theorem encodeP_op : (encodeP op pr pg pb).extractLsb' 24 8 = op := by
  unfold encodeP
  ext i hi
  rw [BitVec.getElem_extractLsb']
  change BitVec.getLsbD (w := 8 + 8 + 8 + 8) (op ++ pr ++ pg ++ pb) (24 + i) = op[i]
  simp only [BitVec.getLsbD_append]
  simp [show ¬ 24 + i < 8 by omega, show ¬ 24 + i - 8 < 8 by omega,
    show ¬ 24 + i - 8 - 8 < 8 by omega, show 24 + i - 8 - 8 - 8 = i by omega, hi]

theorem encodeP_pr : (encodeP op pr pg pb).extractLsb' 16 8 = pr := by
  unfold encodeP
  ext i hi
  rw [BitVec.getElem_extractLsb']
  change BitVec.getLsbD (w := 8 + 8 + 8 + 8) (op ++ pr ++ pg ++ pb) (16 + i) = pr[i]
  simp only [BitVec.getLsbD_append]
  simp [show ¬ 16 + i < 8 by omega, show ¬ 16 + i - 8 < 8 by omega,
    show 16 + i - 8 - 8 = i by omega, hi]

theorem encodeP_pg : (encodeP op pr pg pb).extractLsb' 8 8 = pg := by
  unfold encodeP
  ext i hi
  rw [BitVec.getElem_extractLsb']
  change BitVec.getLsbD (w := 8 + 8 + 8 + 8) (op ++ pr ++ pg ++ pb) (8 + i) = pg[i]
  simp only [BitVec.getLsbD_append]
  simp [show ¬ 8 + i < 8 by omega, show 8 + i - 8 = i by omega, hi]

theorem encodeP_pb : (encodeP op pr pg pb).extractLsb' 0 8 = pb := by
  unfold encodeP
  ext i hi
  rw [BitVec.getElem_extractLsb']
  change BitVec.getLsbD (w := 8 + 8 + 8 + 8) (op ++ pr ++ pg ++ pb) (0 + i) = pb[i]
  simp only [BitVec.getLsbD_append]
  simp [hi]

end Sys2Proof
end

