-- ==== Sys2Proof/Laws/HostBus.lean ====
section
/-! SUPPORT. The address map of 20_memory.md R82, address by address, and the frame of the host's
moves. -/

namespace Sys2Proof.Machine

theorem byteAddr_toNat (wa : WordAddr) : (byteAddr wa).toNat = 4 * wa.toNat := by
  have := wa.isLt
  simp [byteAddr]
  omega

theorem busTarget_eq (wa : WordAddr) : busTarget wa = busTargetAt (4 * wa.toNat) := by
  rw [busTarget, byteAddr_toNat]

/-- The word address of a byte address below 0x10000 that is a multiple of 4 names what the map says. -/
theorem busTarget_ofNat {n : Nat} (h : n < 2 ^ 14) :
    busTarget (BitVec.ofNat 14 n) = busTargetAt (4 * n) := by
  rw [busTarget_eq, BitVec.toNat_ofNat, Nat.mod_eq_of_lt h]

theorem busTargetAt_freq (c : Channel) (y : Symbol) :
    busTargetAt (0x1000 + 0x400 * channelNumber c + 4 * y.toNat) = .freq c y := by
  have hy := y.isLt
  have hn : channelNumber c < 3 := by cases c <;> decide
  have hc : channelOfNumber (channelNumber c) = c := by cases c <;> rfl
  generalize hm : channelNumber c = m at *
  unfold busTargetAt
  have h1 : (0x1000 + 0x400 * m + 4 * y.toNat - 0x1000) / 0x400 = m := by omega
  have h2 : (0x1000 + 0x400 * m + 4 * y.toNat - 0x1000) % 0x400 / 4 = y.toNat := by omega
  rw [h1, h2, hc, BitVec.ofNat_toNat, BitVec.setWidth_eq]
  iterate 13 rw [if_neg (by omega)]
  rw [if_pos (by omega)]

theorem busTargetAt_len (c : Channel) (y : Symbol) :
    busTargetAt (0x2000 + 0x400 * channelNumber c + 4 * y.toNat) = .len c y := by
  have hy := y.isLt
  have hn : channelNumber c < 3 := by cases c <;> decide
  have hc : channelOfNumber (channelNumber c) = c := by cases c <;> rfl
  generalize hm : channelNumber c = m at *
  unfold busTargetAt
  have h1 : (0x2000 + 0x400 * m + 4 * y.toNat - 0x2000) / 0x400 = m := by omega
  have h2 : (0x2000 + 0x400 * m + 4 * y.toNat - 0x2000) % 0x400 / 4 = y.toNat := by omega
  rw [h1, h2, hc, BitVec.ofNat_toNat, BitVec.setWidth_eq]
  iterate 15 rw [if_neg (by omega)]
  rw [if_pos (by omega)]

theorem busTargetAt_code (c : Channel) (y : Symbol) {j : Nat} (hj : j < 8) :
    busTargetAt (0x4000 + 0x2000 * channelNumber c + 32 * y.toNat + 4 * j) = .code c y j := by
  have hy := y.isLt
  have hn : channelNumber c < 3 := by cases c <;> decide
  have hc : channelOfNumber (channelNumber c) = c := by cases c <;> rfl
  generalize hm : channelNumber c = m at *
  unfold busTargetAt
  have h1 : (0x4000 + 0x2000 * m + 32 * y.toNat + 4 * j - 0x4000) / 0x2000 = m := by omega
  have h2 : (0x4000 + 0x2000 * m + 32 * y.toNat + 4 * j - 0x4000) % 0x2000 / 32 = y.toNat := by omega
  have h3 : (0x4000 + 0x2000 * m + 32 * y.toNat + 4 * j - 0x4000) % 32 / 4 = j := by omega
  rw [h1, h2, h3, hc, BitVec.ofNat_toNat, BitVec.setWidth_eq]
  iterate 17 rw [if_neg (by omega)]
  rw [if_pos (by omega)]

/-- A host read changes the host's side alone (R94). -/
theorem hostRead_frame (wa : WordAddr) (s : State) :
    hostRead wa s = { s with host := (hostRead wa s).host } := by
  unfold hostRead
  split <;> rfl

/-- Receiving changes the host's side alone (R300). -/
theorem hostReceive_frame (s : State) : hostReceive s = { s with host := (hostReceive s).host } := by
  unfold hostReceive
  split <;> rfl

end Sys2Proof.Machine
end

