-- ==== Sys2Proof/Laws/HostProgram.lean ====
section
/-! SUPPORT. What a run of a host program can do: an error once latched stays the run's, whatever the
host does next (60_exceptions.md R298), what a `wait` has read (30_encoding.md R123), and the zero-size guard of 45_container.md R242. -/

namespace Sys2Proof.Machine

namespace HostRun

/-- The step an event of a run makes, of the machine with that event to come. -/
abbrev stepOf (e : Event) (r : HostRun) : Host.Outcome State Fault Refusal :=
  step { r.state with host := { r.state.host with pending := [e] } }

/-- All an event of a run can do: a step, with the first error and the wait noted, or a move that has no
transition. -/
theorem event_cases (e : Event) (r : HostRun) :
    (∃ t, stepOf e r = .next t ∧
      r.event e = { r with
        state := t
        latched := noteLatch r.latched r.state t
        awaiting := noteAwait r.awaiting e t }) ∨
    r.event e = { r with blocked := true } := by
  unfold event stepOf
  split
  · next t h => exact .inl ⟨t, h, rfl⟩
  · exact .inr rfl
  · exact .inr rfl

/-- An event leaves what the host read before the run, and the program's own fields. -/
theorem event_frame (e : Event) (r : HostRun) :
    (r.event e).before = r.before ∧ (r.event e).later = r.later ∧
      (r.event e).stopped = r.stopped := by
  rcases event_cases e r with ⟨t, -, h⟩ | h <;> simp [h]

variable {x : BitVec 4}

theorem event_latched (e : Event) {r : HostRun} (h : r.latched = some x) :
    (r.event e).latched = some x := by
  rcases event_cases e r with ⟨t, -, he⟩ | he <;> simp [he, noteLatch, h]

theorem events_latched (es : List Event) {r : HostRun} (h : r.latched = some x) :
    (r.events es).latched = some x := by
  induction es generalizing r with
  | nil => exact h
  | cons e es ih => exact ih (event_latched e h)

theorem poll_latched {r : HostRun} (h : r.latched = some x) : r.poll.latched = some x :=
  event_latched _ (event_latched _ h)

theorem waitFor_latched (es : List Event) {r : HostRun} (h : r.latched = some x) :
    (waitFor es r).latched = some x := by
  induction es generalizing r with
  | nil => exact poll_latched h
  | cons e es ih =>
    rw [waitFor]
    split
    · exact ih (event_latched e (poll_latched h))
    · exact poll_latched h

/-- A `wait` that the program goes on from has read t[0] = 0 (R123). -/
theorem waitFor_busyRead (es : List Event) (r : HostRun) (h : (waitFor es r).blocked = false) :
    (waitFor es r).busyRead = false := by
  induction es generalizing r with
  | nil => exact (Bool.or_eq_false_iff.1 h).2
  | cons e es ih =>
    rw [waitFor] at h ⊢
    split
    · next hb => exact ih _ (by rwa [if_pos hb] at h)
    · next hb => exact eq_false_of_ne_true hb

theorem check_latched {r : HostRun} (h : r.latched = some x) : r.check.latched = some x := by
  have hq := event_latched (.read (wordAddr 0x0008)) h
  unfold check
  dsimp only
  split
  · exact hq
  · split <;> exact hq

theorem op_latched (o : HostOp) {r : HostRun} (h : r.latched = some x) : (r.op o).latched = some x := by
  unfold op
  split
  · exact h
  · cases o with
    | wr a v => exact event_latched _ h
    | rd a => exact event_latched _ h
    | wait => exact waitFor_latched _ h
    | chk => exact check_latched h
    | give es => exact events_latched es h
    | later es => exact h

/-- Whatever lines the host runs next, the run's first error stays (R298). -/
theorem ops_latched (os : List HostOp) {r : HostRun} (h : r.latched = some x) :
    (r.ops os).latched = some x := by
  induction os generalizing r with
  | nil => exact h
  | cons o os ih => exact ih (op_latched o h)

/-- A program that has stopped runs no further line (R123). -/
theorem ops_stopped (os : List HostOp) {r : HostRun} (h : r.blocked || r.stopped.isSome) :
    r.ops os = r := by
  induction os with
  | nil => rfl
  | cons o os ih =>
    have ho : r.op o = r := if_pos h
    rw [ops, List.foldl_cons, ho]
    exact ih

end HostRun

/-- A run that latched an error returns no image (R248, R298). -/
theorem decodeResult_latched {r : HostRun} {x : BitVec 4} (h : r.latched = some x) :
    decodeResult r = if r.ended then some (.failed x) else none := by
  simp [decodeResult, HostRun.failure, h]

/-- Nor does any continuation of it, by lines of a program or by any other events (R298). -/
theorem decodeResult_ops_latched (os : List HostOp) (es : List Event) {r : HostRun} {x : BitVec 4}
    (h : r.latched = some x) (w y : BitVec 16) (px : List Pixel) :
    decodeResult ((r.ops os).events es) ≠ some (.image w y px) := by
  rw [decodeResult_latched (HostRun.events_latched es (HostRun.ops_latched os h))]
  split <;> simp

/-- An image of width or height 0 has no pixel command, to encode or to decode (R242). -/
theorem unlessEmpty_zero {w h : BitVec 16} (os : List HostOp) (hz : w = 0#16 ∨ h = 0#16) :
    unlessEmpty w h os = [] := if_pos hz

theorem pixelCommands_zero {w h : BitVec 16} (px : List Pixel) (hz : w = 0#16 ∨ h = 0#16) :
    pixelCommands w h px = [] := unlessEmpty_zero _ hz

theorem decodePixels_zero {w h : BitVec 16} (hz : w = 0#16 ∨ h = 0#16) : decodePixels w h = [] :=
  unlessEmpty_zero _ hz

/-- A decode issues as many DECPX as the W*H it read (R248). -/
theorem decodePixels_count (w h : BitVec 16) :
    (decodePixels w h).countP (fun o => o == .wr 0x0000 (encode .decpx)) = w.toNat * h.toNat := by
  unfold decodePixels unlessEmpty
  split
  · next hz => rcases hz with rfl | rfl <;> simp
  · induction w.toNat * h.toNat with
    | zero => rfl
    | succ n ih => rw [List.range_succ, List.flatMap_append, List.countP_append, ih]; rfl

end Sys2Proof.Machine
end

