-- ==== Sys2Proof/Laws/PerInstr.lean ====
section
/-! SUPPORT. The statements made command by command: every command's word is legal (30_encoding.md R117),
with every operand at every value. -/

namespace Sys2Proof.Laws.EncodeIsLegal

/-- The encoder writes a legal word. -/
def Statement (i : Instr) : Prop := WellFormed.legal (encode i) = true

theorem nop : Statement .nop := by unfold Statement; decide

theorem sreset : Statement .sreset := by unfold Statement; decide

theorem clrerr : Statement .clrerr := by unfold Statement; decide

theorem build (c : Channel) : Statement (.build c) := by unfold Statement; cases c <;> decide

theorem assign (c : Channel) : Statement (.assign c) := by unfold Statement; cases c <;> decide

theorem wrlt (c : Channel) : Statement (.wrlt c) := by unfold Statement; cases c <;> decide

theorem rdlt (c : Channel) : Statement (.rdlt c) := by unfold Statement; cases c <;> decide

theorem encsym (c : Channel) (y : Symbol) : Statement (.encsym c y) := by
  unfold Statement
  revert y
  cases c <;> decide +kernel

theorem encpx (pr pg pb : Symbol) : Statement (.encpx pr pg pb) := by
  unfold Statement encode WellFormed.legal WellFormed.opcodeAssigned WellFormed.reservedZero
    WellFormed.channelLegal
  rw [WellFormed.op, encodeP_op]
  rfl

theorem flush : Statement .flush := by unfold Statement; decide

theorem decsym (c : Channel) : Statement (.decsym c) := by unfold Statement; cases c <;> decide

theorem decpx : Statement .decpx := by unfold Statement; decide

theorem hdrw : Statement .hdrw := by unfold Statement; decide

theorem hdrr : Statement .hdrr := by unfold Statement; decide

end Sys2Proof.Laws.EncodeIsLegal
end

