-- ==== Sys2Proof/Machine/Assembler.lean ====
section
/-! DEFINITION. The assembler syntax of 30_encoding.md R122: one command a line, from characters to a
command, and from there by `encode` to its word. -/

namespace Sys2Proof.Machine

/-- The characters of a line before its comment (R122). -/
def stripComment (cs : List Char) : List Char := cs.takeWhile fun x => x != ';'

/-- A character between words. -/
def isBlank (x : Char) : Bool := x == ' ' || x == '\t'

/-- A word without the blanks around it. -/
def trimBlanks (cs : List Char) : List Char :=
  ((cs.dropWhile isBlank).reverse.dropWhile isBlank).reverse

/-- The operands, separated by commas (R122). -/
def splitCommas : List Char → List (List Char)
  | [] => [[]]
  | x :: xs =>
    if x == ',' then [] :: splitCommas xs
    else
      match splitCommas xs with
      | [] => [[x]]
      | y :: ys => (x :: y) :: ys

/-- The value of a digit in a base up to 16. -/
def digitValue (base : Nat) (x : Char) : Option Nat :=
  let n := x.toNat
  let v :=
    if 48 ≤ n ∧ n ≤ 57 then n - 48
    else if 97 ≤ n ∧ n ≤ 102 then n - 87
    else if 65 ≤ n ∧ n ≤ 70 then n - 55
    else 16
  if v < base then some v else none

/-- A run of digits after a value already read. -/
def digitsFrom (base : Nat) : Nat → List Char → Option Nat
  | v, [] => some v
  | v, x :: xs =>
    match digitValue base x with
    | none => none
    | some d => digitsFrom base (base * v + d) xs

/-- A number: decimal, or hexadecimal with `0x` (R122). -/
def parseNumber : List Char → Option Nat
  | [] => none
  | '0' :: 'x' :: [] => none
  | '0' :: 'x' :: xs => digitsFrom 16 0 xs
  | xs => digitsFrom 10 0 xs

/-- A symbol operand, 0..255 (R122). -/
def parseSymbol (cs : List Char) : Option Symbol :=
  match parseNumber cs with
  | none => none
  | some n => if n < 256 then some (BitVec.ofNat 8 n) else none

/-- A channel operand: R, G or B, or 0, 1 or 2 (R122). -/
def parseChannel : List Char → Option Channel
  | ['R'] => some .r
  | ['G'] => some .g
  | ['B'] => some .b
  | ['0'] => some .r
  | ['1'] => some .g
  | ['2'] => some .b
  | _ => none

/-- The operands of a form with none. -/
def formNone (i : Instr) : List (List Char) → Option Instr
  | [] => some i
  | _ => none

/-- The operand of a form `MNEMONIC ch` (R122). -/
def formChannel (mk : Channel → Instr) : List (List Char) → Option Instr
  | [a] =>
    match parseChannel a with
    | none => none
    | some c => some (mk c)
  | _ => none

/-- The operands of `ENCSYM ch, sym` (R122). -/
def formChannelSymbol (mk : Channel → Symbol → Instr) : List (List Char) → Option Instr
  | [a, b] =>
    match parseChannel a, parseSymbol b with
    | some c, some y => some (mk c y)
    | _, _ => none
  | _ => none

/-- The operands of `ENCPX r, g, b` (R122). -/
def formPixel (mk : Symbol → Symbol → Symbol → Instr) : List (List Char) → Option Instr
  | [a, b, c] =>
    match parseSymbol a, parseSymbol b, parseSymbol c with
    | some x, some y, some z => some (mk x y z)
    | _, _, _ => none
  | _ => none

/-- The command a mnemonic in upper-case letters and its operands name (R122). -/
def formOf : List Char → Option (List (List Char) → Option Instr)
  | ['N', 'O', 'P'] => some (formNone .nop)
  | ['S', 'R', 'E', 'S', 'E', 'T'] => some (formNone .sreset)
  | ['C', 'L', 'R', 'E', 'R', 'R'] => some (formNone .clrerr)
  | ['F', 'L', 'U', 'S', 'H'] => some (formNone .flush)
  | ['D', 'E', 'C', 'P', 'X'] => some (formNone .decpx)
  | ['H', 'D', 'R', 'W'] => some (formNone .hdrw)
  | ['H', 'D', 'R', 'R'] => some (formNone .hdrr)
  | ['B', 'U', 'I', 'L', 'D'] => some (formChannel .build)
  | ['A', 'S', 'S', 'I', 'G', 'N'] => some (formChannel .assign)
  | ['W', 'R', 'L', 'T'] => some (formChannel .wrlt)
  | ['R', 'D', 'L', 'T'] => some (formChannel .rdlt)
  | ['D', 'E', 'C', 'S', 'Y', 'M'] => some (formChannel .decsym)
  | ['E', 'N', 'C', 'S', 'Y', 'M'] => some (formChannelSymbol .encsym)
  | ['E', 'N', 'C', 'P', 'X'] => some (formPixel .encpx)
  | _ => none

/-- A letter as its capital; any other character as it is. -/
def upperLetter (x : Char) : Char := if 97 ≤ x.toNat ∧ x.toNat ≤ 122 then Char.ofNat (x.toNat - 32) else x

/-- What a line of assembler holds. -/
inductive AsmLine where
  /-- blanks or a comment alone -/
  | blank
  /-- one command -/
  | command (i : Instr)
  /-- not of any form of R122 -/
  | malformed
deriving DecidableEq, Repr

/-- One line of assembler (R122). -/
def assembleLine (cs : List Char) : AsmLine :=
  let body := trimBlanks (stripComment cs)
  let mnem := body.takeWhile fun x => !isBlank x
  let rest := trimBlanks (body.drop mnem.length)
  if body.isEmpty then .blank
  else
    match formOf (mnem.map upperLetter) with
    | none => .malformed
    | some form =>
      match form (if rest.isEmpty then [] else (splitCommas rest).map trimBlanks) with
      | none => .malformed
      | some i => .command i

/-- The word the assembler writes for a line, where the line holds a command (R122). -/
def assembleWord (cs : List Char) : Option Word :=
  match assembleLine cs with
  | .command i => some (encode i)
  | .blank | .malformed => none

end Sys2Proof.Machine
end

