-- ==== Sys2Proof/Tests/Slice0.lean ====
section
/-! SUPPORT. The model's own tests. Expected results come from the spec: the words from
30_encoding.md R111 to R116, the results from the rules' examples and from 95_test_vectors.md. Every
statement of Obligations.lean that has hypotheses has a witness here. -/

namespace Sys2Proof.Tests

open Sys2Proof.Machine Sys2Proof.Safety

-- one theorem after another: more than a hundred checked at once run out of threads
set_option Elab.async false

/-! ### Helpers -/

/-- A table with these entries and 0 elsewhere. -/
def table {w : Nat} (l : List (Symbol × BitVec w)) : Table (BitVec w) :=
  l.foldl (fun t p => Table.set t p.1 p.2) (Vector.replicate 256 0#w)

/-- One step of a state with a command word in flight, and a look at what it leaves. -/
def after {α : Type} (s : State) (w : Nat) (look : State → α) : Option α :=
  match step (s.withFetchWord 32 w) with
  | .next t => some (look t)
  | .fault _ => none
  | .refused _ => none

/-- One step of a state with this event to come, and a look at what it leaves. -/
def onEvent {α : Type} (s : State) (e : Event) (look : State → α) : Option α :=
  match step { s with host := { s.host with pending := [e] } } with
  | .next t => some (look t)
  | .fault _ => none
  | .refused _ => none

/-- FREQ of every channel 10: 3, 50: 1 (95_test_vectors.md L1.3). -/
def freqC : State := { State.reset with freq := .all (table [(10#8, 3#32), (50#8, 1#32)]) }

/-- The length table 0: 1, 1: 2, 2: 2. -/
def lens : Table (BitVec 8) := table [(0#8, 1#8), (1#8, 2#8), (2#8, 2#8)]

/-- Its canonical codes "0", "10", "11" (44_bit_reader.md R226, example). -/
def codes : Table Code := table [(1#8, 2#255), (2#8, 3#255)]

/-- Every channel with these lengths and codes, valid. -/
def coded : State := { State.reset with len := .all lens, code := .all codes, cvalid := .all true }

/-- The same with input, not ended. -/
def reading (xs : List Byte) : State := { coded with inbuf := xs }

/-- The same with the input ended. -/
def readingEnd (xs : List Byte) : State := { coded with inbuf := xs, eos := true }

/-- The lengths 0: 1, 1: 3, an incomplete code "0", "100" (42_length_table.md R189). -/
def incomplete : State :=
  { State.reset with
    len := .all (table [(0#8, 1#8), (1#8, 3#8)]), code := .all (table [(1#8, 4#255)])
    cvalid := .all true }

/-! ### Well-formedness: an ill-formed word for each check -/

theorem test_legal_refuses_reserved_opcode :
    WellFormed.opcodeAssigned 0x03000000#32 = false ∧ WellFormed.legal 0x03000000#32 = false := by
  decide

theorem test_legal_refuses_reserved_bits_format_N :
    WellFormed.reservedZero 0x32000001#32 = false ∧ WellFormed.legal 0x32000001#32 = false := by
  decide

theorem test_legal_refuses_reserved_bits_format_C :
    WellFormed.reservedZero 0x10000001#32 = false ∧ WellFormed.legal 0x10000001#32 = false := by
  decide

theorem test_legal_refuses_reserved_bits_format_CS :
    WellFormed.reservedZero 0x30000105#32 = false ∧ WellFormed.legal 0x30000105#32 = false := by
  decide

theorem test_legal_refuses_channel_three :
    WellFormed.channelLegal 0x10C00000#32 = false ∧ WellFormed.legal 0x10C00000#32 = false ∧
    WellFormed.channelLegal 0x30C00005#32 = false := by decide

theorem test_legal_accepts_all_of_format_P : WellFormed.legal 0x31FFFFFF#32 = true := by decide

/-! ### Decoding: words written out from R111 to R116, every constructor -/

theorem test_decode_nop : decode 0b00000000000000000000000000000000#32 = .ok .nop := by decide

theorem test_decode_sreset : decode 0b00000001000000000000000000000000#32 = .ok .sreset := by decide

theorem test_decode_clrerr : decode 0b00000010000000000000000000000000#32 = .ok .clrerr := by decide

theorem test_decode_build : decode 0b00010000010000000000000000000000#32 = .ok (.build .g) := by decide

theorem test_decode_assign :
    decode 0b00010001100000000000000000000000#32 = .ok (.assign .b) := by decide

theorem test_decode_wrlt : decode 0b00100000000000000000000000000000#32 = .ok (.wrlt .r) := by decide

theorem test_decode_rdlt : decode 0b00100001100000000000000000000000#32 = .ok (.rdlt .b) := by decide

theorem test_decode_encsym :
    decode 0b00110000010000000000000001100100#32 = .ok (.encsym .g 100#8) := by decide

theorem test_decode_encpx :
    decode 0b00110001110010000110010000110010#32 = .ok (.encpx 200#8 100#8 50#8) := by decide

theorem test_decode_flush : decode 0b00110010000000000000000000000000#32 = .ok .flush := by decide

theorem test_decode_decsym :
    decode 0b01000000010000000000000000000000#32 = .ok (.decsym .g) := by decide

theorem test_decode_decpx : decode 0b01000001000000000000000000000000#32 = .ok .decpx := by decide

theorem test_decode_hdrw : decode 0b01010000000000000000000000000000#32 = .ok .hdrw := by decide

theorem test_decode_hdrr : decode 0b01010001000000000000000000000000#32 = .ok .hdrr := by decide

theorem test_decode_rejects_by_name :
    decode 0x10C00000#32 = .error .illegalChannel ∧ decode 0x00000001#32 = .error .reservedBits ∧
    decode 0xFF000000#32 = .error (.reservedOpcode 0xFF#8) := by decide

theorem test_decodeTableWord : decodeTableWord 32 0x30400064 = some (.encsym .g 100#8) := by decide

theorem test_opcode_rows_disjoint :
    opcodeRows.Pairwise fun a b => a.pattern &&& (a.mask &&& b.mask) ≠ b.pattern &&& (a.mask &&& b.mask) := by
  decide

/-! ### Commands -/

theorem test_nop_is_illegal_with_a_reserved_bit :
    after State.reset 0x00000001 (fun t => (t.errCode, t.errCmd, t.busy)) =
      some (9#4, 1#32, false) := by decide +kernel

/-- 46_control.md R271, example. -/
theorem test_sreset_after_a_failed_decode :
    after { reading [0x80#8] with errCode := 4#4, inptr := 1 } 0x01000000
      (fun t => (t.errCode, t.inptr, statusWord t)) = some (0#4, 0, 0#32) := by decide +kernel

/-- 46_control.md R272, example. -/
theorem test_clrerr :
    after { coded with errCode := 6#4, errCmd := 0x30000007#32, acc := 1#8, cnt := 1#3 } 0x02000000
      (fun t => (t.errCode, t.errCmd, packWord t)) = some (0#4, 0#32, 0x101#32) := by decide +kernel

/-- 40_tree_builder.md R145, example. -/
theorem test_build_two_symbols :
    after freqC 0x10000000 (fun t => (t.lenAt .r 10#8, t.lenAt .r 50#8, t.lenAt .r 0#8)) =
      some (1#8, 1#8, 0#8) := by decide +kernel

/-- The tie-break vector of 40_tree_builder.md R150. -/
theorem test_build_tie_break :
    let f := table [(0#8, 1#32), (1#8, 1#32), (2#8, 2#32), (3#8, 2#32)]
    (buildLength f 0#8, buildLength f 1#8, buildLength f 2#8, buildLength f 3#8) = (2, 2, 2, 2) := by
  decide +kernel

/-- 41_canonical.md R164, example. -/
theorem test_assign_example :
    after { State.reset with len := .all (table [(5#8, 1#8), (3#8, 2#8), (9#8, 2#8)]) } 0x11000000
      (fun t => (t.codeAt .r 5#8, t.codeAt .r 3#8, t.codeAt .r 9#8, t.cvalidAt .r)) =
      some (0#255, 2#255, 3#255, true) := by decide +kernel

/-- 41_canonical.md R169: the third code would be 2, not below 2^1. -/
theorem test_assign_oversubscribed :
    after { State.reset with len := .all (table [(0#8, 1#8), (1#8, 1#8), (2#8, 1#8)]) } 0x11000000
      (fun t => (t.errCode, t.errCmd, t.cvalidAt .r)) =
      some (5#4, 0x11000000#32, false) := by decide +kernel

/-- 42_length_table.md R181, example. -/
theorem test_wrlt :
    after { State.reset with len := .all (table [(100#8, 1#8)]) } 0x20400000
      (fun t => (t.out.length, t.out[99]?, t.out[100]?, t.out[101]?)) =
      some (256, some 0#8, some 1#8, some 0#8) := by decide +kernel

/-- 95_test_vectors.md L2.3: WRLT with CNT = 1. -/
theorem test_wrlt_not_aligned :
    after { State.reset with acc := 1#8, cnt := 1#3 } 0x20000000
      (fun t => (t.errCode, t.errCmd, t.out, packWord t)) =
      some (8#4, 0x20000000#32, [], 0x101#32) := by decide +kernel

theorem test_rdlt :
    after { State.reset with inbuf := List.replicate 204 0#8 ++ 1#8 :: List.replicate 60 0#8, inptr := 4 }
      0x21000000 (fun t => (t.lenAt .r 200#8, t.lenAt .r 199#8, t.inptr)) =
      some (1#8, 0#8, 260) := by decide +kernel

/-- 95_test_vectors.md L2.3: 84 bytes unread and the input ended. -/
theorem test_rdlt_truncated :
    after { State.reset with inbuf := List.replicate 600 0#8, inptr := 516, eos := true } 0x21800000
      (fun t => (t.errCode, t.errCmd, t.inptr, t.busy)) =
      some (2#4, 0x21800000#32, 516, false) := by decide +kernel

/-- 95_test_vectors.md L2.4: "1011111", then "01". -/
theorem test_encsym_completes_a_byte :
    after { State.reset with
        acc := 0b1011111#8, cnt := 7#3, len := .all (table [(7#8, 2#8)])
        code := .all (table [(7#8, 1#255)]), cvalid := .all true }
      0x30000007 (fun t => (t.out, packWord t)) = some ([0xBE#8], 0x101#32) := by decide +kernel

theorem test_encsym_symbol_absent :
    after coded 0x30000007 (fun t => (t.errCode, t.errCmd, t.out)) =
      some (6#4, 0x30000007#32, []) := by decide +kernel

/-- "11", "0", "10" into the packer: 11010. -/
theorem test_encpx :
    after coded 0x31020001 (fun t => (packWord t, t.errCode)) =
      some (0x51A#32, 0#4) := by decide +kernel

/-- B has no code for the symbol: nothing of R or G is packed (95_test_vectors.md L2.4). -/
theorem test_encpx_packs_nothing_on_error :
    after coded 0x31000007 (fun t => (t.errCode, packWord t)) = some (6#4, 0#32) := by decide +kernel

/-- 43_bit_packer.md R203, example. -/
theorem test_flush :
    after { State.reset with acc := 1#8, cnt := 1#3 } 0x32000000
      (fun t => (t.out, packWord t)) = some ([0x80#8], 0#32) := by decide +kernel

/-- 44_bit_reader.md R226, example. -/
theorem test_decsym :
    after (reading [0xFF#8]) 0x40400000 (fun t => (t.result, t.inptr, t.inbit)) =
      some (2#24, 0, 2#3) := by decide +kernel

/-- 95_test_vectors.md L2.5: "101..." is unpopulated in the code "0", "100". -/
theorem test_decsym_corrupt_tree :
    after { incomplete with inbuf := [0xA0#8], eos := true } 0x40000000
      (fun t => (t.errCode, t.inptr, t.inbit)) = some (4#4, 0, 0#3) := by decide +kernel

/-- "11", "10", "0" from bit 3 of a byte. -/
theorem test_decpx :
    after { reading [0x1C#8] with inbit := 3#3 } 0x41000000
      (fun t => (t.result, t.inptr, t.inbit)) = some (0x020100#24, 1, 0#3) := by decide +kernel

/-- The B walk lacks input: the whole command holds and nothing is consumed (44_bit_reader.md R228). -/
theorem test_decpx_holds :
    after { reading [0x1E#8] with inbit := 4#3 } 0x41000000
      (fun t => (t.busy, t.inptr, t.inbit, t.result)) = some (true, 0, 4#3, 0#24) := by decide +kernel

/-- 95_test_vectors.md L2.6. -/
theorem test_hdrw :
    after { State.reset with width := 0x1234#16, height := 0xABCD#16 } 0x50000000 (fun t => t.out) =
      some [0x12#8, 0x34#8, 0xAB#8, 0xCD#8] := by decide +kernel

/-- 45_container.md R245, example. -/
theorem test_hdrr :
    after { State.reset with inbuf := [0#8, 2#8, 0#8, 3#8, 9#8] } 0x51000000
      (fun t => (t.width, t.height, t.inptr)) = some (2#16, 3#16, 4) := by decide +kernel

theorem test_hdrr_invalid_header :
    after { State.reset with inbuf := [0#8, 1#8], eos := true } 0x51000000
      (fun t => (t.errCode, t.inptr)) = some (1#4, 0) := by decide +kernel

/-! ### The host bus and the ports -/

/-- 95_test_vectors.md L2.6: the upper bits of a WIDTH write are ignored. -/
theorem test_write_width :
    onEvent State.reset (.write 5#14 0xFFFF0102#32) (fun t => (t.width, busValue t 5#14)) =
      some (0x102#16, 0x102#32) := by decide +kernel

/-- 95_test_vectors.md L2.7: `wr 0x2404, 3` with CVALID = 0b111. -/
theorem test_write_len_clears_cvalid :
    onEvent coded (.write 0x901#14 3#32) (fun t => (t.lenAt .g 1#8, statusWord t)) =
      some (3#8, 0x50#32) := by decide +kernel

/-- 95_test_vectors.md L2.7: a write while DECPX holds. -/
theorem test_write_while_busy :
    onEvent { coded with busy := true, pend := 0x41000000#32 } (.write 5#14 5#32)
      (fun t => (t.width, t.errCode, t.errCmd, t.errAddr, t.busy)) =
      some (0#16, 10#4, 0#32, 0x14#16, true) := by decide +kernel

/-- 95_test_vectors.md L2.2: word 7 of a 255-bit code of ones. -/
theorem test_read_code_word :
    busValue { State.reset with code := .all (table [(255#8, BitVec.allOnes 255)]) } 0x17FF#14 =
      0x7FFFFFFF#32 := by decide +kernel

/-- 95_test_vectors.md L2.7: only the exact SRESET and CLRERR are accepted. -/
theorem test_acceptance_in_error :
    onEvent { State.reset with errCode := 9#4 } (.write 0#14 0x02000001#32) (fun t => t.busy) =
      some false ∧
    onEvent { State.reset with errCode := 9#4 } (.write 0#14 0x02000000#32)
      (fun t => (t.busy, t.pend)) = some (true, 0x02000000#32) := by decide +kernel

theorem test_deliver_and_receive :
    onEvent State.reset (.deliver 7#8) (fun t => t.inbuf) = some [7#8] ∧
    onEvent { State.reset with out := [5#8] } .receive (fun t => (t.host.received, t.host.taken)) =
      some ([5#8], 1) := by decide +kernel

/-- 30_encoding.md R122 and the example of 43_bit_packer.md R207. -/
theorem test_assemble :
    assembleWord ['e', 'n', 'c', 'p', 'x', ' ', '2', '0', '0', ',', '0', 'x', '6', '4', ',', ' ', '5',
      '0', ' ', ';', 'p'] = some 0x31C86432#32 ∧
    assembleLine ['B', 'U', 'I', 'L', 'D', ' ', '3'] = .malformed ∧
    assembleLine [' ', ';', 'x'] = .blank := by decide

/-- 45_container.md R242: no pixel command for an image of width or height 0. -/
theorem test_no_pixels :
    pixelCommands 0#16 4#16 [⟨1#8, 2#8, 3#8⟩] = [] ∧ decodePixels 4#16 0#16 = [] ∧
    (decodePixels 2#16 1#16).length = 8 := by decide +kernel

/-- R245, R248, R250: a container of two bytes, given while HDRR holds; the decode fails with code 1. -/
theorem test_decode_of_two_bytes : decodeImage [0#8, 1#8] 0 coded = some (.failed 1#4) := by
  decide +kernel

/-- R248, R250: ERRCODE reads of an earlier run do not count. -/
theorem test_reads_of_earlier_runs :
    let s : State :=
      { State.reset with host := { State.reset.host with reads := [⟨wordAddr 0x0008, 3#32⟩] } }
    ((HostRun.start s).op (.rd 0x0008)).readsAt 0x0008 = [0#32] := by decide +kernel

/-- 60_exceptions.md R298: an error that CLRERR cleared, and that no read saw, fails the run all the
same. -/
theorem test_cleared_error_fails_the_run :
    let r := (HostRun.start coded).ops (cmd .hdrw ++ cmd (.encsym .r 7#8) ++ cmd .clrerr)
    (r.state.errCode, r.latched, decodeResult r, encodeResult r) =
      (0#4, some 6#4, some (.failed 6#4), some (.failed 6#4)) := by decide +kernel

/-- R250: a run whose command holds, with no input left to give, has not ended. -/
theorem test_held_run_has_not_ended :
    ((HostRun.start State.reset).ops (cmd .hdrr)).ended = false := by decide +kernel

/-- 30_encoding.md R123: a `wait` before the run writes to CMD polls until the command that was already
in flight has completed; with no input to lift its hold, it goes on forever. -/
theorem test_wait_for_a_command_of_before :
    let r := HostRun.start { State.reset with busy := true, pend := 0x51000000#32 }
    let q := r.ops [.later (inputEvents [0#8, 1#8, 0#8, 2#8]), .wait]
    (q.state.width, q.state.height, q.readsAt 0x0004, q.ended) =
      (1#16, 2#16, [1#32, 1#32, 1#32, 1#32, 0#32], true) ∧
    (r.ops [.wait]).blocked = true ∧ (r.ops [.wait]).ended = false := by decide +kernel

/-! ### Witnesses: for every statement of Obligations.lean with hypotheses, inputs that meet them all,
clause by clause, at the ends of the clause's range where it has one. -/

/-- A command that runs to a next state with this property. -/
def ran (i : Instr) (s : State) (p : State → Bool) : Bool :=
  match exec i s with
  | .next t => p t
  | .fault _ => false
  | .refused _ => false

theorem ran_next {i : Instr} {s : State} {p : State → Bool} (h : ran i s p = true) :
    ∃ t, exec i s = .next t ∧ p t = true := by
  unfold ran at h
  split at h
  · exact ⟨_, ‹_›, h⟩
  · cases h
  · cases h

/-- A command that runs. -/
theorem ran_any {i : Instr} {s : State} (h : ran i s (fun _ => true) = true) :
    ∃ t, exec i s = .next t := by
  obtain ⟨t, ht, -⟩ := ran_next h
  exact ⟨t, ht⟩

/-- Commands that run one after another to a next state with this property. -/
def ranAll (is : List Instr) (s : State) (p : State → Bool) : Bool :=
  match execAll is s with
  | .next t => p t
  | .fault _ => false
  | .refused _ => false

theorem ranAll_next {is : List Instr} {s : State} {p : State → Bool} (h : ranAll is s p = true) :
    ∃ t, execAll is s = .next t ∧ p t = true := by
  unfold ranAll at h
  split at h
  · exact ⟨_, ‹_›, h⟩
  · cases h
  · cases h

/-- A walk that reaches this symbol. -/
def walked (c : Channel) (y : Symbol) (s : State) : Bool :=
  match walk c s with
  | .sym z _ => z == y
  | .err _ => false
  | .hold => false

/-- A state with a command in flight. -/
def flying (s : State) (i : Instr) : State := { s with busy := true, pend := encode i }

/-- A state with these events to come. -/
def toCome (s : State) (es : List Event) : State := { s with host := { s.host with pending := es } }

theorem witness_EncodeInvertsDecode : decode 0x308000FF#32 = .ok (.encsym .b 255#8) := by decide

theorem witness_LegalWordsAreTheCommands :
    let s : State := { State.reset with busy := true, pend := 0x10C00000#32 }
    (decode 0x10800000#32 = .ok (.build .b) ∧ WellFormed.legal 0x10800000#32 = true) ∧
      s.busy = true ∧ s.host.pending = [] ∧ WellFormed.legal s.pend = false := by decide

theorem witness_DecoderAgreesWithOpcodeMap :
    let r : OpcodeRow := ⟨"ENCSYM", 0x30000000#32, 0xFF3FFF00#32⟩
    r ∈ opcodeRows ∧ (0x308000FF#32 &&& r.mask = r.pattern ∧
      WellFormed.channelLegal 0x308000FF#32 = true) ∧
      decode 0x308000FF#32 = .ok (.encsym .b 255#8) ∧
      mnemonicOf (.encsym .b 255#8) = r.mnemonic := by decide

theorem witness_StepRunsTheCommandInFlight_no_event_to_come :
    let s := flying coded (.encsym .r 1#8)
    s.busy = true ∧ s.host.pending = [] ∧ decode s.pend = .ok (.encsym .r 1#8) := by decide +kernel

theorem witness_StepRunsTheCommandInFlight_core_turn :
    let s := toCome (flying coded .hdrr) [.coreTurn, .endInput]
    s.busy = true ∧ s.host.pending = .coreTurn :: [.endInput] ∧ decode s.pend = .ok .hdrr := by
  decide +kernel

theorem witness_StepRunsTheCommandInFlight_illegal :
    let s : State := { State.reset with busy := true, pend := 0x10C00000#32 }
    (s.busy = true ∧ s.host.pending = [] ∧ WellFormed.legal s.pend = false) ∧
      (toCome s [.coreTurn]).busy = true ∧ (toCome s [.coreTurn]).host.pending = .coreTurn :: [] ∧
      WellFormed.legal (toCome s [.coreTurn]).pend = false := by decide +kernel

theorem witness_StepRunsTheCommandInFlight_idle :
    (State.reset.busy = false ∧ State.reset.host.pending = []) ∧
      (toCome State.reset [.coreTurn]).busy = false ∧
      (toCome State.reset [.coreTurn]).host.pending = .coreTurn :: [] := by decide +kernel

theorem witness_StepRunsTheCommandInFlight_access :
    (toCome coded [.write 5#14 7#32]).host.pending = .write 5#14 7#32 :: [] ∧
      (toCome coded [.read 5#14]).host.pending = .read 5#14 :: [] := by decide +kernel

theorem witness_StreamPortEvents_deliver :
    let s := toCome State.reset [.deliver 255#8]
    s.host.pending = .deliver 255#8 :: [] ∧ s.eos = false := by decide +kernel

theorem witness_StreamPortEvents_deliver_after_end :
    let s := toCome { State.reset with eos := true } [.deliver 255#8]
    s.host.pending = .deliver 255#8 :: [] ∧ s.eos = true := by decide +kernel

theorem witness_StreamPortEvents_end :
    (toCome State.reset [.endInput]).host.pending = .endInput :: [] := by decide +kernel

theorem witness_StreamPortEvents_receive :
    let s := toCome { State.reset with out := [5#8] } [.receive]
    s.host.pending = .receive :: [] ∧ s.out[s.host.taken]? = some 5#8 := by decide +kernel

theorem witness_StreamPortEvents_receive_nothing :
    let s := toCome State.reset [.receive]
    s.host.pending = .receive :: [] ∧ s.out[s.host.taken]? = none := by decide +kernel

theorem witness_CommandAcceptance_busy : (flying coded .nop).busy = true := by decide +kernel

theorem witness_CommandAcceptance_error :
    let s : State := { State.reset with errCode := 1#4 }
    s.busy = false ∧ s.errCode ≠ 0#4 ∧ 0x02000001#32 ≠ 0x01000000#32 ∧
      0x02000001#32 ≠ 0x02000000#32 := by decide

theorem witness_CommandAcceptance_accepted :
    (State.reset.busy = false ∧ State.reset.errCode = 0#4) ∧
      let s : State := { State.reset with errCode := 10#4 }
      s.busy = false ∧ s.errCode ≠ 0#4 := by decide

theorem witness_ErrorsAreSticky :
    let s : State := { State.reset with errCode := 10#4 }
    s.errCode ≠ 0#4 ∧ 0#32 ≠ 0x01000000#32 ∧ 0#32 ≠ 0x02000000#32 := by decide

theorem witness_WritesWhileBusyAreDropped :
    (flying coded (.decsym .r)).busy = true ∧
      ∃ t, coreStep (flying coded (.decsym .r)) = .next t :=
  ⟨by decide +kernel,
    ran_any (i := .decsym .r) (s := flying coded (.decsym .r)) (by decide +kernel)⟩

theorem witness_ReadsWhileBusy_exact :
    (flying coded .nop).busy = true ∧ (1#14).toNat ∈ [1, 2, 3, 4, 11] ∧
      (4#14).toNat ∈ [1, 2, 3, 4, 11] ∧ (11#14).toNat ∈ [1, 2, 3, 4, 11] := by decide +kernel

theorem witness_ReadsWhileBusy_free :
    (flying coded .nop).busy = true ∧ (0#14).toNat ∉ [1, 2, 3, 4, 11] ∧
      (5#14).toNat ∉ [1, 2, 3, 4, 11] ∧ (10#14).toNat ∉ [1, 2, 3, 4, 11] ∧
      (12#14).toNat ∉ [1, 2, 3, 4, 11] ∧ (16383#14).toNat ∉ [1, 2, 3, 4, 11] := by decide +kernel

/-- The ends of every reserved range of 20_memory.md R82. -/
theorem witness_ReservedAndReadOnlyAddresses_reserved :
    State.reset.busy = false ∧
      ∀ a ∈ [0x30, 0xFFC, 0x1C00, 0x1FFC, 0x2C00, 0x3FFC, 0xA000, 0xFFFC],
        (wordAddr a).toNat * 4 = a ∧
          ((0x30 ≤ a ∧ a < 0x1000) ∨ (0x1C00 ≤ a ∧ a < 0x2000) ∨ (0x2C00 ≤ a ∧ a < 0x4000) ∨
            0xA000 ≤ a) ∧ busTarget (wordAddr a) = .reserved := by decide +kernel

/-- The ends of every read-only range of R82. -/
theorem witness_ReservedAndReadOnlyAddresses_readOnly :
    State.reset.busy = false ∧
      ∀ a ∈ [0x04, 0x10, 0x1C, 0x2C, 0x4000, 0x9FFC],
        (wordAddr a).toNat * 4 = a ∧
          ((0x04 ≤ a ∧ a ≤ 0x10) ∨ (0x1C ≤ a ∧ a ≤ 0x2C) ∨ (0x4000 ≤ a ∧ a < 0xA000)) := by
  decide +kernel

theorem witness_RegisterWindow : coded.busy = false := by decide +kernel

theorem witness_StatusRegister : State.reset.busy = false ∧ 7 ≤ 31 := by decide

/-- The first and the last entry of each window (R82). -/
theorem witness_FreqAndLenWindows :
    State.reset.busy = false ∧ channelNumber .r = 0 ∧ channelNumber .b = 2 ∧
      busTarget (wordAddr 0x1000) = .freq .r 0#8 ∧ busTarget (wordAddr 0x1BFC) = .freq .b 255#8 ∧
      busTarget (wordAddr 0x2000) = .len .r 0#8 ∧ busTarget (wordAddr 0x2BFC) = .len .b 255#8 := by
  decide +kernel

theorem test_code_window_ends :
    busTarget (wordAddr 0x4000) = .code .r 0#8 0 ∧ busTarget (wordAddr 0x9FFC) = .code .b 255#8 7 := by
  decide +kernel

theorem witness_AddressMapHasNoAliases :
    busTarget 0x27FF#14 = busTarget 0x27FF#14 ∧ busTarget 0x27FF#14 ≠ .reserved := by decide +kernel

theorem witness_CommandsKeepOtherArrays_freq :
    (∃ t, exec (.build .r) freqC = .next t) ∧ Instr.build .r ≠ .sreset ∧
      busTarget (wordAddr 0x1000) = .freq .r 0#8 :=
  ⟨ran_any (by decide +kernel), by decide +kernel⟩

theorem witness_CommandsKeepOtherArrays_len :
    (∃ t, exec (.build .r) freqC = .next t) ∧ busTarget (wordAddr 0x27FC) = .len .g 255#8 ∧
      Instr.build .r ≠ .build .g ∧ Instr.build .r ≠ .rdlt .g :=
  ⟨ran_any (by decide +kernel), by decide +kernel⟩

theorem witness_CommandsKeepOtherArrays_code :
    (∃ t, exec (.assign .r) coded = .next t) ∧ busTarget (wordAddr 0x6000) = .code .g 0#8 0 ∧
      Instr.assign .r ≠ .assign .g :=
  ⟨ran_any (by decide +kernel), by decide +kernel⟩

theorem witness_PowerOnResetAtAnyTime :
    (toCome (flying coded .decpx) [.powerOnReset, .endInput]).host.pending =
      .powerOnReset :: [.endInput] := by decide +kernel

theorem witness_BuildWritesTreeDepths_one_symbol :
    let s : State := { State.reset with freq := .all (table [(255#8, 0xFFFFFFFF#32)]) }
    (presentSymbols (s.freq.get .g)).length = 1 ∧ s.freqAt .g 255#8 ≠ 0#32 ∧
      s.freqAt .g 0#8 = 0#32 := by decide +kernel

theorem witness_BuildWritesTreeDepths_two_symbols :
    2 ≤ (presentSymbols (freqC.freq.get .r)).length ∧ Channel.g ≠ .r := by decide +kernel

theorem witness_MergesFollowThePriorityOrder :
    let f := freqC.freq.get .r
    Table.get f 10#8 ≠ 0#32 ∧ 0 + 1 < (leavesOf f).length ∧ leavesOf f ≠ [] ∧
      leavesOf (table [(255#8, 1#32)]) ≠ [] := by decide +kernel

theorem witness_BuildLengthsFitOneByte :
    (∃ tree, huffmanTree (freqC.freq.get .r) = some tree ∧ (50#8, 1) ∈ tree.leafDepths 0) ∧
      presentSymbols (table [(255#8, 1#32)]) = [255#8] :=
  ⟨⟨.node 256 4 (.leaf 50#8 1) (.leaf 10#8 3), by decide +kernel⟩, by decide +kernel⟩

theorem witness_BuildWeightsFitFortyBits :
    HTree.node 256 4 (.leaf 50#8 1) (.leaf 10#8 3) ∈
      mergeTimes 1 256 (leavesOf (freqC.freq.get .r)) := by decide +kernel

theorem witness_BuildTablesAreComplete :
    (presentSymbols (State.reset.freq.get .r)).length = 0 ∧
      (presentSymbols (table [(7#8, 1#32)])).length = 1 ∧
      (presentSymbols (freqC.freq.get .r)).length = 2 ∧
      ∃ t, exec (.build .r) freqC = .next t :=
  ⟨by decide +kernel, by decide +kernel, by decide +kernel, ran_any (by decide +kernel)⟩

/-- A check of every row of a table is a check of every entry. -/
theorem all_rows {α : Type} {t : Table α} {p : Symbol → α → Bool}
    (h : ((Table.rows t).all fun q => p q.1 q.2) = true) (y : Symbol) : p y (Table.get t y) = true :=
  List.all_eq_true.1 h (y, Table.get t y)
    (Table.rows_eq t ▸ List.mem_map.2 ⟨y, mem_allSymbols y, rfl⟩)

/-- The symbols of `freqC`. -/
theorem freqC_rows (y : Symbol) : (freqC.freqAt .r y == 0#32 || y == 10#8 || y == 50#8) = true :=
  all_rows (p := fun y v => v == 0#32 || y == 10#8 || y == 50#8) (by decide +kernel) y

theorem freqC_symbols (y : Symbol) (h : freqC.freqAt .r y ≠ 0#32) : y = 10#8 ∨ y = 50#8 := by
  simpa only [Bool.or_eq_true, beq_iff_eq, h, false_or] using freqC_rows y

/-- The symbols of `incomplete`. -/
theorem incomplete_rows (y : Symbol) :
    (incomplete.lenAt .r y == 0#8 || y == 0#8 || y == 1#8) = true :=
  all_rows (p := fun y v => v == 0#8 || y == 0#8 || y == 1#8) (by decide +kernel) y

theorem incomplete_symbols (y : Symbol) (h : incomplete.lenNat .r y ≠ 0) : y = 0#8 ∨ y = 1#8 := by
  have h0 : incomplete.lenAt .r y ≠ 0#8 := fun e => h (congrArg BitVec.toNat e)
  simpa only [Bool.or_eq_true, beq_iff_eq, h0, false_or] using incomplete_rows y

theorem witness_BuildIsOptimal :
    let code : Symbol → List Bool := fun y => if y = 10#8 then [false] else [true, false]
    (∃ t, exec (.build .r) freqC = .next t) ∧ 2 ≤ (presentSymbols (freqC.freq.get .r)).length ∧
      ∀ y z, y ≠ z → freqC.freqAt .r y ≠ 0#32 → freqC.freqAt .r z ≠ 0#32 →
        ¬ code y <+: code z := by
  refine ⟨ran_any (by decide +kernel), by decide +kernel, ?_⟩
  intro y z hne hy hz
  rcases freqC_symbols y hy with rfl | rfl <;> rcases freqC_symbols z hz with rfl | rfl <;>
    first
      | exact absurd rfl hne
      | decide

theorem witness_BuildIsDeterministic :
    ∀ y, freqC.freqAt .r y = { coded with freq := freqC.freq }.freqAt .r y := fun _ => rfl

/-- The Kraft sum, entry by entry. -/
theorem kraft_entries (t : Table (BitVec 8)) :
    kraft t =
      ((Table.entries t).map fun l => if l.toNat = 0 then 0 else 2 ^ (255 - l.toNat)).sum := by
  rw [Table.entries_eq, List.map_map]
  rfl

theorem witness_AssignGivesCanonicalCodes_complete :
    kraft (coded.len.get .r) = 2 ^ 255 ∧ Channel.b ≠ .r := by
  rw [kraft_entries]
  decide +kernel

/-- The smallest Kraft sum above 1. -/
theorem witness_AssignGivesCanonicalCodes_oversubscribed :
    kraft (table [(0#8, 1#8), (1#8, 1#8), (2#8, 255#8)]) = 2 ^ 255 + 1 := by
  rw [kraft_entries]
  decide +kernel

theorem witness_AssignedCodesFit :
    coded.errCode = 0#4 ∧ (∃ t, exec (.assign .r) coded = .next t ∧
      (t.errCode == 0#4 && t.lenNat .r 1#8 == 2 && t.lenNat .r 255#8 == 0) = true) :=
  ⟨by decide +kernel, ran_next (by decide +kernel)⟩

theorem witness_AssignedCodesArePrefixFree :
    coded.errCode = 0#4 ∧ ∃ t, exec (.assign .r) coded = .next t ∧
      (t.errCode == 0#4 && t.lenNat .r 0#8 == 1 && t.lenNat .r 1#8 == 2 &&
        t.lenNat .r 2#8 == 2) = true :=
  ⟨by decide +kernel, ran_next (by decide +kernel)⟩

theorem witness_AssignIsReproducible :
    let s1 : State := { coded with code := .all (table []), out := [1#8] }
    (∀ y, s1.lenAt .r y = coded.lenAt .r y) ∧ s1.errCode = 0#4 ∧ coded.errCode = 0#4 ∧
      (∃ t, exec (.assign .r) s1 = .next t ∧ (t.errCode == 0#4) = true) ∧
      ∃ t, exec (.assign .r) coded = .next t :=
  ⟨fun _ => rfl, by decide +kernel, by decide +kernel, ran_next (by decide +kernel),
    ran_any (by decide +kernel)⟩

theorem witness_EncodingHasNoInputDependentFailure :
    freqC.errCode = 0#4 ∧ freqC.freqAt .b 50#8 ≠ 0#32 := by decide +kernel

theorem witness_WrltEmitsTheTable_aligned : coded.cnt = 0#3 := by decide +kernel

theorem witness_WrltEmitsTheTable_misaligned :
    { coded with acc := 127#8, cnt := 7#3 }.cnt ≠ 0#3 := by decide +kernel

theorem witness_RdltReadsTheTable_there :
    let s : State := { State.reset with inbuf := List.replicate 256 1#8 }
    s.inbit = 0#3 ∧ s.inptr + 256 ≤ s.inbuf.length ∧ Channel.g ≠ .r := by decide +kernel

theorem witness_RdltReadsTheTable_not_yet :
    let s : State := { State.reset with inbuf := List.replicate 255 1#8 }
    s.inbit = 0#3 ∧ s.inbuf.length < s.inptr + 256 ∧ s.eos = false := by decide +kernel

theorem witness_RdltReadsTheTable_truncated :
    let s : State := { State.reset with inbuf := List.replicate 255 1#8, eos := true }
    s.inbit = 0#3 ∧ s.inbuf.length < s.inptr + 256 ∧ s.eos = true := by decide +kernel

theorem witness_RdltReadsTheTable_misaligned :
    { reading [0#8] with inbit := 1#3 }.inbit ≠ 0#3 := by decide +kernel

theorem witness_ThreeTablesNeed768Bytes_there :
    let s := readingEnd (List.replicate 768 1#8)
    s.inbit = 0#3 ∧ s.eos = true ∧ s.errCode = 0#4 ∧ s.inptr ≤ s.inbuf.length ∧
      768 ≤ s.inbuf.length - s.inptr := by decide +kernel

theorem witness_ThreeTablesNeed768Bytes_truncated :
    let s := readingEnd (List.replicate 767 1#8)
    s.inbit = 0#3 ∧ s.eos = true ∧ s.errCode = 0#4 ∧ s.inptr ≤ s.inbuf.length ∧
      s.inbuf.length - s.inptr < 768 := by decide +kernel

theorem witness_LengthTableRoundTrip :
    let bytes := Table.entries lens
    let d : State := { State.reset with inbuf := 9#8 :: (bytes ++ [8#8]), inptr := 1 }
    coded.cnt = 0#3 ∧
      (∃ e', exec (.wrlt .g) coded = .next e' ∧ (e'.out == coded.out ++ bytes) = true) ∧
      d.inbit = 0#3 ∧ d.inbuf.drop d.inptr = bytes ++ [8#8] :=
  ⟨by decide +kernel, ran_next (by decide +kernel), by decide +kernel, by decide +kernel⟩

theorem witness_EncsymPacksTheCode_coded :
    let s : State := { coded with acc := 127#8, cnt := 7#3, len := .all (table [(9#8, 255#8)]) }
    s.cvalidAt .r = true ∧ s.lenNat .r 9#8 = 255 ∧ coded.lenNat .r 0#8 = 1 := by decide +kernel

theorem witness_EncsymPacksTheCode_not_ready : State.reset.cvalidAt .b = false := by decide

theorem witness_EncsymPacksTheCode_absent :
    coded.cvalidAt .r = true ∧ coded.lenNat .r 255#8 = 0 := by decide +kernel

/-- Every channel of `coded` is valid. -/
theorem coded_valid (c : Channel) : coded.cvalidAt c = true := by cases c <;> decide +kernel

/-- Canonical codes compared entry by entry. -/
theorem canonical_of_entries {t : Table (BitVec 8)} {u : Table Code}
    (h : (canonicalTable t).map Vector.toList = some u.toList) : canonicalTable t = some u := by
  cases hc : canonicalTable t with
  | none => simp [hc] at h
  | some v =>
    rw [hc, Option.map_some, Option.some.injEq, Vector.toList_inj] at h
    rw [h]

/-- `codes` are the canonical codes of `lens`. -/
theorem lens_canonical : canonicalTable lens = some codes :=
  canonical_of_entries (by decide +kernel)

/-- The codes of `coded` are the canonical ones. -/
theorem coded_canonical (c : Channel) : canonicalTable (coded.len.get c) = some (coded.code.get c) := by
  cases c <;> exact lens_canonical

theorem witness_EncpxPacksThePixel_coded :
    (∀ c, coded.cvalidAt c = true) ∧ coded.lenNat .r 0#8 ≠ 0 ∧ coded.lenNat .g 1#8 ≠ 0 ∧
      coded.lenNat .b 2#8 ≠ 0 :=
  ⟨coded_valid, by decide +kernel⟩

theorem witness_EncpxPacksThePixel_not_ready :
    ∃ c, { coded with cvalid := ⟨true, true, false⟩ }.cvalidAt c = false := ⟨.b, by decide +kernel⟩

theorem witness_EncpxPacksThePixel_absent :
    (∀ c, coded.cvalidAt c = true) ∧ coded.lenNat .b 255#8 = 0 := ⟨coded_valid, by decide +kernel⟩

theorem witness_EncpxIsThreeEncsym :
    coded.errCode = 0#4 ∧ ∃ t, exec (.encpx 0#8 1#8 2#8) coded = .next t ∧ (t.errCode == 0#4) = true :=
  ⟨by decide +kernel, ran_next (by decide +kernel)⟩

theorem witness_FlushPadsWithZeros_aligned : coded.cnt = 0#3 := by decide +kernel

theorem witness_FlushPadsWithZeros_partial :
    { coded with acc := 1#8, cnt := 1#3 }.cnt ≠ 0#3 ∧ { coded with acc := 1#8, cnt := 7#3 }.cnt ≠ 0#3 := by
  decide +kernel

theorem witness_PackedOutputLength :
    let is : List Instr := [.encsym .r 1#8, .encpx 0#8 1#8 2#8]
    (∀ i ∈ is, (∃ c y, i = .encsym c y) ∨ ∃ pr pg pb, i = .encpx pr pg pb) ∧ coded.cnt = 0#3 ∧
      coded.errCode = 0#4 ∧ ∃ t, execAll is coded = .next t ∧
        (t.errCode == 0#4 && ran .flush t fun _ => true) = true := by
  refine ⟨?_, by decide +kernel, by decide +kernel, ranAll_next (by decide +kernel)⟩
  intro i hi
  simp only [List.mem_cons, List.not_mem_nil, or_false] at hi
  rcases hi with rfl | rfl
  · exact .inl ⟨_, _, rfl⟩
  · exact .inr ⟨_, _, _, rfl⟩

theorem witness_WalkConsumesTheCode : ∃ t, walk .r (reading [0x80#8]) = .sym 1#8 t := by
  have h : walked .r 1#8 (reading [0x80#8]) = true := by decide +kernel
  unfold walked at h
  split at h
  · rename_i z t hw
    rw [hw, eq_of_beq h]
    exact ⟨t, rfl⟩
  · cases h
  · cases h

theorem witness_DecsymReturnsTheNextSymbol :
    let s : State := { reading [0x06#8] with inbit := 5#3 }
    s.cvalidAt .g = true ∧ canonicalTable (s.len.get .g) = some (s.code.get .g) ∧
      s.lenNat .g 2#8 ≠ 0 ∧ unreadBits s = codeString s .g 2#8 ++ [false] :=
  ⟨coded_valid .g, lens_canonical, by decide +kernel⟩

theorem witness_DecsymInvertsEncsym :
    let d := reading [0x80#8]
    coded.cvalidAt .r = true ∧ d.cvalidAt .r = true ∧ coded.len.get .r = d.len.get .r ∧
      coded.code.get .r = d.code.get .r ∧ canonicalTable (d.len.get .r) = some (d.code.get .r) ∧
      coded.lenNat .r 1#8 ≠ 0 ∧
      (∃ e', exec (.encsym .r 1#8) coded = .next e' ∧
        (packedBits e' == packedBits coded ++ [true, false]) = true) ∧
      unreadBits d = [true, false] ++ List.replicate 6 false :=
  ⟨coded_valid .r, coded_valid .r, rfl, rfl, lens_canonical, by decide +kernel,
    ran_next (by decide +kernel), by decide +kernel⟩

/-- Inside a code, with the input not ended. -/
theorem witness_DecsymAtTheEndOfInput_hold :
    let s : State := { reading [0x01#8] with inbit := 7#3 }
    s.cvalidAt .r = true ∧ canonicalTable (s.len.get .r) = some (s.code.get .r) ∧
      s.lenNat .r 1#8 ≠ 0 ∧ [false] ≠ [] ∧ codeString s .r 1#8 = unreadBits s ++ [false] ∧
      s.eos = false :=
  ⟨coded_valid .r, lens_canonical, by decide +kernel⟩

/-- At the root, with the input ended. -/
theorem witness_DecsymAtTheEndOfInput_error :
    let s := readingEnd []
    s.cvalidAt .r = true ∧ canonicalTable (s.len.get .r) = some (s.code.get .r) ∧
      s.lenNat .r 0#8 ≠ 0 ∧ [false] ≠ [] ∧ codeString s .r 0#8 = unreadBits s ++ [false] ∧
      s.eos = true :=
  ⟨coded_valid .r, lens_canonical, by decide +kernel⟩

theorem witness_DecsymCorruptTree_unpopulated :
    let s : State := { incomplete with inbuf := [0xC0#8] }
    s.cvalidAt .r = true ∧ canonicalTable (s.len.get .r) = some (s.code.get .r) ∧
      unreadBits s = [true, true] ++ List.replicate 6 false ∧
      ∀ y, s.lenNat .r y ≠ 0 →
        ¬ [true, true] <+: codeString s .r y ∧ ¬ codeString s .r y <+: [true, true] := by
  refine ⟨by decide +kernel, canonical_of_entries (by decide +kernel), by decide +kernel,
    fun y hy => ?_⟩
  rcases incomplete_symbols y hy with rfl | rfl <;> decide +kernel

theorem witness_DecsymCorruptTree_empty :
    let s : State := { State.reset with cvalid := .all true }
    s.cvalidAt .r = true ∧ ∀ y, s.lenNat .r y = 0 :=
  ⟨by decide +kernel, (emptyTree_iff _ _).1 (by decide +kernel)⟩

theorem witness_DecsymCorruptTree_not_ready : State.reset.cvalidAt .r = false := by decide

theorem witness_DecpxReturnsThePixel_there :
    let s : State := { reading [0x1C#8] with inbit := 3#3 }
    (∀ c, s.cvalidAt c = true) ∧ (∀ c, canonicalTable (s.len.get c) = some (s.code.get c)) ∧
      s.lenNat .r 2#8 ≠ 0 ∧ s.lenNat .g 1#8 ≠ 0 ∧ s.lenNat .b 0#8 ≠ 0 ∧
      unreadBits s = codeString s .r 2#8 ++ codeString s .g 1#8 ++ codeString s .b 0#8 ++ [] :=
  ⟨coded_valid, coded_canonical, by decide +kernel⟩

theorem witness_DecpxReturnsThePixel_not_ready :
    ∃ c, { coded with cvalid := ⟨true, true, false⟩ }.cvalidAt c = false := ⟨.b, by decide +kernel⟩

/-- Before the first bit of the R walk, the input not ended. -/
theorem witness_DecpxStopsWhereAWalkStops_red_holds :
    let s := reading []
    (∀ c, s.cvalidAt c = true) ∧ (∀ c, canonicalTable (s.len.get c) = some (s.code.get c)) ∧
      unreadBits s = [] ++ [] ∧ s.lenNat .r 0#8 ≠ 0 ∧ [false] ≠ [] ∧
      codeString s .r 0#8 = [] ++ [false] ∧ s.eos = false :=
  ⟨coded_valid, coded_canonical, by decide +kernel⟩

/-- Inside the G walk, the input ended. -/
theorem witness_DecpxStopsWhereAWalkStops_green_ends :
    let s : State := { readingEnd [0x01#8] with inbit := 6#3 }
    (∀ c, s.cvalidAt c = true) ∧ (∀ c, canonicalTable (s.len.get c) = some (s.code.get c)) ∧
      s.lenNat .r 0#8 ≠ 0 ∧ unreadBits s = codeString s .r 0#8 ++ [true] ∧ s.lenNat .g 2#8 ≠ 0 ∧
      [true] ≠ [] ∧ codeString s .g 2#8 = [true] ++ [true] ∧ s.eos = true :=
  ⟨coded_valid, coded_canonical, by decide +kernel⟩

/-- The codes of `incomplete` are the canonical ones. -/
theorem incomplete_canonical (c : Channel) :
    canonicalTable (incomplete.len.get c) = some (incomplete.code.get c) := by
  cases c <;> exact canonical_of_entries (by decide +kernel)

/-- At an unpopulated branch of the B walk. -/
theorem witness_DecpxStopsWhereAWalkStops_blue_corrupt :
    let s : State := { incomplete with inbuf := [0x30#8] }
    (∀ c, s.cvalidAt c = true) ∧ (∀ c, canonicalTable (s.len.get c) = some (s.code.get c)) ∧
      s.lenNat .r 0#8 ≠ 0 ∧ s.lenNat .g 0#8 ≠ 0 ∧
      unreadBits s =
        (codeString s .r 0#8 ++ codeString s .g 0#8) ++ ([true, true] ++ List.replicate 4 false) ∧
      ∀ y, s.lenNat .b y ≠ 0 →
        ¬ [true, true] <+: codeString s .b y ∧ ¬ codeString s .b y <+: [true, true] := by
  refine ⟨fun c => by cases c <;> decide +kernel, incomplete_canonical, by decide +kernel,
    by decide +kernel, by decide +kernel, fun y hy => ?_⟩
  rcases incomplete_symbols y hy with rfl | rfl <;> decide +kernel

theorem witness_DecpxIsThreeDecsym :
    let s := flying { reading [0x1C#8] with inbit := 3#3 } .decpx
    s.busy = true ∧ s.errCode = 0#4 ∧
      ∃ t, exec .decpx s = .next t ∧ (!t.busy && t.errCode == 0#4) = true :=
  ⟨by decide +kernel, by decide +kernel, ran_next (by decide +kernel)⟩

theorem witness_HdrwEmitsTheHeader_aligned : State.reset.cnt = 0#3 := by decide

theorem witness_HdrwEmitsTheHeader_misaligned :
    { State.reset with acc := 1#8, cnt := 1#3 }.cnt ≠ 0#3 := by decide

theorem witness_HdrrReadsTheHeader_there :
    let s : State := { State.reset with inbuf := [0xFF#8, 1#8, 2#8, 3#8, 4#8], inptr := 1 }
    s.inbit = 0#3 ∧ s.inbuf.drop s.inptr = 1#8 :: 2#8 :: 3#8 :: 4#8 :: [] := by decide

theorem witness_HdrrReadsTheHeader_not_yet :
    let s : State := { State.reset with inbuf := [1#8, 2#8, 3#8] }
    s.inbit = 0#3 ∧ s.inbuf.length < s.inptr + 4 ∧ s.eos = false := by decide

theorem witness_HdrrReadsTheHeader_invalid :
    let s : State := { State.reset with inbuf := [1#8, 2#8, 3#8], eos := true }
    s.inbit = 0#3 ∧ s.inbuf.length < s.inptr + 4 ∧ s.eos = true := by decide

theorem witness_HdrrReadsTheHeader_misaligned :
    { reading [0#8] with inbit := 7#3 }.inbit ≠ 0#3 := by decide +kernel

theorem witness_FailedCommandHasNoEffect_word :
    let s : State := { coded with busy := true, pend := 0x10C00000#32 }
    s.errCode = 0#4 ∧ ∃ t, coreStep s = .next t ∧ t.errCode ≠ 0#4 :=
  ⟨by decide +kernel, _, rfl, by decide +kernel⟩

theorem witness_FailedCommandHasNoEffect_overrun :
    (flying coded .nop).errCode = 0#4 ∧
      (hostWrite 16383#14 0#32 (flying coded .nop)).errCode ≠ 0#4 := by decide +kernel

theorem witness_FailedCommandHasNoEffect_command :
    coded.errCode = 0#4 ∧ ∃ t, exec (.encpx 0#8 1#8 7#8) coded = .next t ∧ (t.errCode != 0#4) = true :=
  ⟨by decide +kernel, ran_next (by decide +kernel)⟩

theorem witness_CommandErrorsAreListed :
    (coded.errCode = 0#4 ∧
      ∃ t, exec (.decsym .r) (readingEnd []) = .next t ∧ (t.errCode != 0#4) = true) ∧
      (0x31FFFFFF#32).extractLsb' 24 8 = 0x31#8 :=
  ⟨⟨by decide +kernel, ran_next (by decide +kernel)⟩, by decide⟩

theorem witness_HeldCommandChangesNothing :
    ∃ t, exec .hdrr (flying State.reset .hdrr) = .next t ∧ t.busy = true :=
  ran_next (p := fun t => t.busy) (by decide +kernel)

theorem witness_OnlyTheNamedCommandsWrite :
    Instr.nop ≠ .sreset ∧ Instr.nop ≠ .hdrr ∧ Instr.nop ≠ .decpx ∧ Instr.nop ≠ .flush ∧
      Instr.nop ≠ .clrerr ∧ (∀ c, Instr.nop ≠ .decsym c) ∧ (∀ c, Instr.nop ≠ .rdlt c) ∧
      (∀ c y, Instr.nop ≠ .encsym c y) ∧ ∀ pr pg pb, Instr.nop ≠ .encpx pr pg pb := by simp

/-- BUILD of one channel is none of the writers of another's CVALID. -/
theorem witness_OnlyTheNamedCommandsWrite_cvalid :
    Instr.build .r ≠ .build .g ∧ Instr.build .r ≠ .assign .g ∧ Instr.build .r ≠ .rdlt .g := by decide

/-- A machine between two commands, valid codes in every channel, meets the invariant. -/
theorem coded_inv : Inv coded where
  acc_lt := by decide +kernel
  inptr_le := by decide +kernel
  inbit_lt := by decide +kernel
  err_le := by decide +kernel
  err_clear := by decide +kernel
  err_addr := by decide +kernel
  err_overrun := by decide +kernel
  err_flight := by decide +kernel
  valid_codes := fun c _ => coded_canonical c
  taken_le := by decide +kernel

theorem witness_StepKeepsTheInvariant :
    let s := flying coded (.encsym .r 1#8)
    Inv s ∧ ∃ t, step s = .next t :=
  ⟨{ coded_inv with err_flight := by decide +kernel },
    ran_any (i := .encsym .r 1#8) (s := flying coded (.encsym .r 1#8)) (by decide +kernel)⟩

theorem witness_ValidCodesArePrefixFree :
    Inv coded ∧ coded.busy = false ∧ coded.cvalidAt .r = true :=
  ⟨coded_inv, by decide +kernel, coded_valid .r⟩

/-- The first step from reset runs the word that stands for the loaded command, every one of R116. -/
theorem test_first_step_runs_every_word :
    ∀ r ∈ opcodeRows, after State.reset r.pattern.toNat (fun _ => true) = some true := by
  decide +kernel

end Sys2Proof.Tests
end

section
/-! What a command can answer, said once: the effect and the frame of one that completes, the errors it
can raise, and when it holds. -/

namespace Sys2Proof.Machine

open Sys2Proof.Safety

/-! ### What an operation moved -/

/-- The bound of R42 on the packer's partial byte. -/
def AccFits (s : State) : Prop := s.acc.toNat < 2 ^ s.cnt.toNat

/-- From s to t only the packer has moved: ACC, CNT and OUT, which has only grown. -/
def PackerMoved (s t : State) : Prop :=
  t = { s with acc := t.acc, cnt := t.cnt, out := t.out } ∧ s.out <+: t.out ∧
    (AccFits s → AccFits t)

/-- From s to t only the reader has moved, inside the input, and RESULT was written. -/
def ReaderMoved (s t : State) : Prop :=
  t = { s with inptr := t.inptr, inbit := t.inbit, result := t.result } ∧
    (ReaderInside s → ReaderInside t)

theorem PackerMoved.trans {s t u : State} (h1 : PackerMoved s t) (h2 : PackerMoved t u) :
    PackerMoved s u := by
  obtain ⟨e1, o1, a1⟩ := h1
  obtain ⟨e2, o2, a2⟩ := h2
  rw [e1] at e2
  exact ⟨e2, o1.trans o2, a2 ∘ a1⟩

theorem ReaderMoved.trans {s t u : State} (h1 : ReaderMoved s t) (h2 : ReaderMoved t u) :
    ReaderMoved s u := by
  obtain ⟨e1, r1⟩ := h1
  obtain ⟨e2, r2⟩ := h2
  rw [e1] at e2
  exact ⟨e2, r2 ∘ r1⟩

theorem ReaderMoved.setResult {s t : State} (h : ReaderMoved s t) (v : BitVec 24) :
    ReaderMoved s { t with result := v } := by
  obtain ⟨e, r⟩ := h
  exact ⟨by rw [e], r⟩

theorem emitAll_eq (xs : List Byte) (s : State) :
    emitAll xs s = { s with out := s.out ++ xs } := by
  ext1 <;> simp [emitAll_out]

/-- Packing a symbol's code moves the packer alone (R202, R205). -/
theorem putSymbol_packerMoved (c : Channel) (y : Symbol) (s : State) :
    PackerMoved s (putSymbol c y s) :=
  ⟨by ext1 <;> simp [putSymbol], putCode_out _ _ s, putCode_acc _ _ s⟩

/-! ### The walk -/

/-- All a walk can answer (R222, R225): a symbol, with the reader moved and nothing else; an unpopulated
node or the end of the stream; or a hold, where the input has not ended. -/
def WalkAnswers (s : State) : WalkResult → Prop
  | .sym _ t => ReaderMoved s t
  | .err e => e = .corruptTree ∨ e = .unexpectedEndOfStream
  | .hold => s.eos = false

theorem walkOutOfInput_answers (s : State) : WalkAnswers s (walkOutOfInput s) := by
  unfold walkOutOfInput
  split
  · exact .inr rfl
  · next he => simpa [WalkAnswers] using he

/-- What a walk answers from where the reader has moved to, it answers from here. -/
theorem WalkAnswers.of_moved {s t : State} {r : WalkResult} (hm : ReaderMoved s t)
    (h : WalkAnswers t r) : WalkAnswers s r := by
  cases r with
  | sym y u => exact hm.trans h
  | err e => exact h
  | hold => obtain ⟨e, -⟩ := hm; rw [e] at h; exact h

theorem nextBit_readerMoved {s t : State} {b : Bool} (h : nextBit s = some (b, t)) :
    ReaderMoved s t := by
  obtain ⟨-, e⟩ := nextBit_eq_some h
  exact ⟨by rw [e], fun _ => nextBit_bounds h⟩

theorem walkFrom_answers (c : Channel) (n k p : Nat) (s : State) :
    WalkAnswers s (walkFrom c n k p s) := by
  induction n generalizing k p s with
  | zero => exact .inl rfl
  | succ n ih =>
    by_cases hk : k = 0
    · subst hk
      rw [walkFrom_root]
      split
      · exact walkOutOfInput_answers s
      · next hb => exact (ih _ _ _).of_moved (nextBit_readerMoved hb)
    · rw [walkFrom_node c n p hk]
      split
      · exact ⟨rfl, id⟩
      · exact .inl rfl
      · split
        · exact walkOutOfInput_answers s
        · next hb => exact (ih _ _ _).of_moved (nextBit_readerMoved hb)

theorem walk_answers (c : Channel) (s : State) : WalkAnswers s (walk c s) := by
  unfold walk
  split
  · exact .inl rfl
  · exact walkFrom_answers c 256 0 0 s

/-! ### The commands -/

/-- What each command leaves when it returns ok, as far as its frame and the bounds of the packer and of
the reader go. -/
def OkEffect (s t : State) : Instr → Prop
  | .nop => t = s
  | .sreset => t = resetBlock s
  | .clrerr => t = clearLatch s
  | .build c => t = (s.setLenTable c (buildTable (s.freq.get c))).setCValid c false
  | .assign c => ∃ codes, canonicalTable (s.len.get c) = some codes ∧
      t = (s.setCodeTable c codes).setCValid c true
  | .wrlt _ | .hdrw => ∃ xs, t = { s with out := s.out ++ xs }
  | .rdlt c => ∃ lens, s.inbit = 0#3 ∧ s.inptr + 256 ≤ s.inbuf.length ∧
      t = { (s.setLenTable c lens).setCValid c false with inptr := s.inptr + 256 }
  | .encsym _ _ | .encpx _ _ _ | .flush => PackerMoved s t
  | .decsym _ | .decpx => ReaderMoved s t
  | .hdrr => s.inbit = 0#3 ∧ s.inptr + 4 ≤ s.inbuf.length ∧
      t = { s with width := t.width, height := t.height, inptr := s.inptr + 4 }

/-- All a command can answer: ok with its effect, an error listed for it (60_exceptions.md R282), or, of
the four commands that read the input, a hold while the input has not ended (20_memory.md R87). -/
def Answers (i : Instr) (s : State) : CmdResult → Prop
  | .ok t => OkEffect s t i
  | .err e => errorNumber e ∈ listedErrors i
  | .hold => s.eos = false ∧ (i = .hdrr ∨ i = .decpx ∨ ∃ c, i = .rdlt c ∨ i = .decsym c)

/-- What a walk fails with is listed for DECSYM, and so for DECPX. -/
theorem WalkAnswers.err_listed {s : State} {e : ErrorKind} (h : WalkAnswers s (.err e))
    (c : Channel) : errorNumber e ∈ listedErrors (.decsym c) := by
  rcases h with rfl | rfl <;> simp [errorNumber, listedErrors]

variable (s : State) (c : Channel) (y : Symbol)

theorem cmdAssign_answers : Answers (.assign c) s (cmdAssign c s) := by
  unfold cmdAssign
  split
  · simp [Answers, errorNumber, listedErrors]
  · next codes hc => exact ⟨codes, hc, rfl⟩

theorem cmdWrlt_answers : Answers (.wrlt c) s (cmdWrlt c s) := by
  unfold cmdWrlt
  split
  · simp [Answers, errorNumber, listedErrors]
  · exact ⟨_, emitAll_eq _ s⟩

theorem cmdHdrw_answers : Answers .hdrw s (cmdHdrw s) := by
  unfold cmdHdrw
  split
  · simp [Answers, errorNumber, listedErrors]
  · exact ⟨_, emitAll_eq _ s⟩

theorem cmdRdlt_answers : Answers (.rdlt c) s (cmdRdlt c s) := by
  unfold cmdRdlt
  split
  · simp [Answers, errorNumber, listedErrors]
  · next hbit =>
    split
    · rcases whenInputShort_cases s .truncatedLengthTable with ⟨-, hr⟩ | ⟨he, hr⟩ <;>
        simp [Answers, errorNumber, listedErrors, *]
    · next hav =>
      unfold inAvail at hav
      exact ⟨_, by simpa using hbit, by omega, rfl⟩

theorem cmdHdrr_answers : Answers .hdrr s (cmdHdrr s) := by
  unfold cmdHdrr
  split
  · simp [Answers, errorNumber, listedErrors]
  · next hbit =>
    split
    · rcases whenInputShort_cases s .invalidHeader with ⟨-, hr⟩ | ⟨he, hr⟩ <;>
        simp [Answers, errorNumber, listedErrors, *]
    · next hav =>
      unfold inAvail at hav
      exact ⟨by simpa using hbit, by omega, rfl⟩

theorem cmdFlush_answers : Answers .flush s (cmdFlush s) := by
  unfold cmdFlush
  split
  · exact ⟨rfl, List.prefix_refl _, id⟩
  · exact ⟨rfl, List.prefix_append .., fun _ => by simp [AccFits]⟩

theorem cmdEncsym_answers : Answers (.encsym c y) s (cmdEncsym c y s) := by
  unfold cmdEncsym
  split
  · simp [Answers, errorNumber, listedErrors]
  · split
    · simp [Answers, errorNumber, listedErrors]
    · exact putSymbol_packerMoved c y s

theorem cmdEncpx_answers (pr pg pb : Symbol) :
    Answers (.encpx pr pg pb) s (cmdEncpx pr pg pb s) := by
  unfold cmdEncpx
  split
  · simp [Answers, errorNumber, listedErrors]
  · split
    · simp [Answers, errorNumber, listedErrors]
    · exact ((putSymbol_packerMoved .r pr s).trans (putSymbol_packerMoved .g pg _)).trans
        (putSymbol_packerMoved .b pb _)

theorem cmdDecsym_answers : Answers (.decsym c) s (cmdDecsym c s) := by
  unfold cmdDecsym
  split
  · simp [Answers, errorNumber, listedErrors]
  · have hw := walk_answers c s
    split <;> rw [‹walk c s = _›] at hw
    · exact ReaderMoved.setResult hw _
    · exact hw.err_listed c
    · exact ⟨hw, .inr (.inr ⟨c, .inr rfl⟩)⟩

theorem cmdDecpx_answers : Answers .decpx s (cmdDecpx s) := by
  unfold cmdDecpx
  split
  · simp [Answers, errorNumber, listedErrors]
  · have hr := walk_answers .r s
    split <;> rw [‹walk .r s = _›] at hr
    · exact hr.err_listed .r
    · exact ⟨hr, .inr (.inl rfl)⟩
    · next s1 _ =>
      have hg := (walk_answers .g s1).of_moved hr
      split <;> rw [‹walk .g s1 = _›] at hg
      · exact hg.err_listed .g
      · exact ⟨hg, .inr (.inl rfl)⟩
      · next s2 _ =>
        have hb := (walk_answers .b s2).of_moved hg
        split <;> rw [‹walk .b s2 = _›] at hb
        · exact hb.err_listed .b
        · exact ⟨hb, .inr (.inl rfl)⟩
        · exact ReaderMoved.setResult hb _

/-- All any command can answer (R121). -/
theorem resultOf_answers (i : Instr) : Answers i s (resultOf i s) := by
  cases i with
  | nop => rfl
  | sreset => rfl
  | clrerr => rfl
  | build c => rfl
  | assign c => exact cmdAssign_answers s c
  | wrlt c => exact cmdWrlt_answers s c
  | rdlt c => exact cmdRdlt_answers s c
  | encsym c y => exact cmdEncsym_answers s c y
  | encpx pr pg pb => exact cmdEncpx_answers s pr pg pb
  | flush => exact cmdFlush_answers s
  | decsym c => exact cmdDecsym_answers s c
  | decpx => exact cmdDecpx_answers s
  | hdrw => exact cmdHdrw_answers s
  | hdrr => exact cmdHdrr_answers s

/-- All the completion step of a command can leave: its effect with BUSY cleared, the state of an error
listed for it, or, where it holds, the state as it was. -/
theorem exec_answers {i : Instr} {s u : State} (h : exec i s = .next u) :
    (∃ t, OkEffect s t i ∧ u = { t with busy := false }) ∨
    (∃ e, errorNumber e ∈ listedErrors i ∧ u = failedState (errorNumber e) s) ∨
    (u = s ∧ s.eos = false ∧ (i = .hdrr ∨ i = .decpx ∨ ∃ c, i = .rdlt c ∨ i = .decsym c)) := by
  have ha := resultOf_answers s i
  rcases exec_cases h with ⟨t, hr, rfl⟩ | ⟨e, hr, rfl⟩ | ⟨hr, rfl⟩ <;> rw [hr] at ha
  · exact .inl ⟨t, ha, rfl⟩
  · exact .inr (.inl ⟨e, ha, rfl⟩)
  · exact .inr (.inr ⟨rfl, ha⟩)

/-- The listed errors lie below Overrun, which host writes alone raise (20_memory.md R84). -/
theorem listedErrors_lt_overrun (i : Instr) : ∀ code ∈ listedErrors i, code.toNat < 10 := by
  cases i <;> simp [listedErrors]

end Sys2Proof.Machine
end

section
/-! The canonical codes of a length table (41_canonical.md R160 to R166): every code fits its length, and
of two coded symbols the code of the later is above every extension of the code of the earlier. -/

namespace Sys2Proof.Machine

open Sys2Proof.Safety

/-! ### The codes of the sorted pairs -/

/-- The code and length v, l leaves room for the code w of length k: w is at or above v + 1, extended to
its length (R162). -/
def CodeBelow (v l w k : Nat) : Prop := l ≤ k ∧ (v + 1) * 2 ^ (k - l) ≤ w

theorem CodeBelow.trans {v l w k x m : Nat} (h1 : CodeBelow v l w k) (h2 : CodeBelow w k x m) :
    CodeBelow v l x m := by
  obtain ⟨hlk, h1⟩ := h1
  obtain ⟨hkm, h2⟩ := h2
  refine ⟨hlk.trans hkm, ?_⟩
  calc (v + 1) * 2 ^ (m - l) = (v + 1) * 2 ^ (k - l) * 2 ^ (m - k) := by
        rw [Nat.mul_assoc, ← Nat.pow_add]; congr 2; omega
    _ ≤ (w + 1) * 2 ^ (m - k) := Nat.mul_le_mul_right _ (h1.trans (Nat.le_succ w))
    _ ≤ x := h2

/-- The recurrence of R162 leaves the previous code the room it needs. -/
theorem codeBelow_nextCode {v l k : Nat} (h : l ≤ k) : CodeBelow v l (nextCode (some (v, l)) k) k :=
  ⟨h, by simp [nextCode, Nat.shiftLeft_eq]⟩

/-- A pair is assigned the next code where that fits its length and the rest can be assigned (R164). -/
theorem assignCodes_cons_eq_some {prev : Option (Nat × Nat)} {l : Nat} {y : Symbol}
    {ps : List (Nat × Symbol)} {cs : List (Symbol × Nat)} :
    assignCodes prev ((l, y) :: ps) = some cs ↔
      nextCode prev l < 2 ^ l ∧
        ∃ ds, assignCodes (some (nextCode prev l, l)) ps = some ds ∧
          cs = (y, nextCode prev l) :: ds := by
  rw [assignCodes]
  by_cases hfit : 2 ^ l ≤ nextCode prev l
  · simp [hfit, hfit.not_gt]
  · rw [if_neg hfit]
    cases assignCodes (some (nextCode prev l, l)) ps <;> simp [not_le.1 hfit, eq_comm]

/-- Two symbols with their codes, in the order of R161, the first below the second. -/
def CodesOrdered (len : Symbol → Nat) (a b : Symbol × Nat) : Prop :=
  pairLe (len a.1, a.1) (len b.1, b.1) ∧ CodeBelow a.2 (len a.1) b.2 (len b.1)

/-- A successful assignment of sorted pairs gives codes that fit, each below those after it, and all
above the code it starts from (R162, R163). -/
theorem assignCodes_ordered {len : Symbol → Nat} {prev : Option (Nat × Nat)}
    {ps : List (Nat × Symbol)} {cs : List (Symbol × Nat)} (h : assignCodes prev ps = some cs)
    (hlen : ∀ p ∈ ps, p.1 = len p.2) (hsort : ps.Pairwise pairLe)
    (hprev : ∀ v l, prev = some (v, l) → ∀ p ∈ ps, l ≤ p.1) :
    cs.Pairwise (CodesOrdered len) ∧ (∀ a ∈ cs, a.2 < 2 ^ len a.1) ∧
      ∀ v l, prev = some (v, l) → ∀ a ∈ cs, CodeBelow v l a.2 (len a.1) := by
  induction ps generalizing prev cs with
  | nil => simp only [assignCodes, Option.some.injEq] at h; subst h; simp
  | cons p ps ih =>
    obtain ⟨l, y⟩ := p
    obtain ⟨hfit, ds, hr, rfl⟩ := assignCodes_cons_eq_some.1 h
    obtain ⟨hl, hlen'⟩ := List.forall_mem_cons.1 hlen
    obtain ⟨hhead, hsort'⟩ := List.pairwise_cons.1 hsort
    obtain rfl : l = len y := hl
    have hafter : ∀ q ∈ ps, len y ≤ q.1 := fun q hq => by
      rcases hhead q hq with hlt | ⟨heq, -⟩
      · exact hlt.le
      · exact heq.le
    obtain ⟨hpair, hfits, habove⟩ := ih hr hlen' hsort' (fun v l hv => by cases hv; exact hafter)
    have hfirst : ∀ b ∈ ds, CodesOrdered len (y, nextCode prev (len y)) b := fun b hb => by
      refine ⟨?_, habove _ _ rfl b hb⟩
      have hmem : b.1 ∈ ps.map Prod.snd := assignCodes_symbols hr ▸ List.mem_map_of_mem hb
      obtain ⟨q, hq, hqb⟩ := List.mem_map.1 hmem
      have hqlen := hlen' q hq
      rw [hqb] at hqlen
      rw [← hqlen, ← hqb]
      exact hhead q hq
    have hroom : ∀ v l, prev = some (v, l) →
        CodeBelow v l (nextCode prev (len y)) (len y) := fun v l hv => by
      subst hv
      exact codeBelow_nextCode (hprev v l rfl _ (List.mem_cons_self ..))
    refine ⟨List.pairwise_cons.2 ⟨hfirst, hpair⟩, List.forall_mem_cons.2 ⟨hfit, hfits⟩,
      fun v l hv => List.forall_mem_cons.2 ⟨hroom v l hv, fun b hb => ?_⟩⟩
    exact (hroom v l hv).trans (hfirst b hb).2

theorem pairwise_sortedPairs (t : Table (BitVec 8)) : (sortedPairs t).Pairwise pairLe := by
  have : Std.Total pairLe := ⟨fun a b => by unfold pairLe; omega⟩
  have : IsTrans _ pairLe := ⟨fun a b c hab hbc => by unfold pairLe at *; omega⟩
  exact List.pairwise_insertionSort pairLe _

/-! ### The table of codes -/

/-- A symbol's entry as the code length it is. -/
def codeLength (lens : Table (BitVec 8)) (y : Symbol) : Nat := (Table.get lens y).toNat

/-- A symbol's entry as the code it is. -/
def codeValue (codes : Table Code) (y : Symbol) : Nat := (Table.get codes y).toNat

variable {lens : Table (BitVec 8)} {codes : Table Code}

/-- A symbol that stands in a list of codes is looked up at one of its places. -/
theorem lookup_of_mem_symbols {cs : List (Symbol × Nat)} {y : Symbol} (h : y ∈ cs.map Prod.fst) :
    ∃ v, cs.lookup y = some v ∧ (y, v) ∈ cs := by
  obtain ⟨p, hp, hpy⟩ := List.mem_map.1 h
  have hsome : (cs.lookup y).isSome := List.lookup_isSome_iff.2 ⟨p, hp, by simp [hpy]⟩
  obtain ⟨v, hv⟩ := Option.isSome_iff_exists.1 hsome
  obtain ⟨l1, l2, he, -⟩ := List.lookup_eq_some_iff.1 hv
  exact ⟨v, hv, by simp [he]⟩

theorem lookup_of_not_mem_symbols {cs : List (Symbol × Nat)} {y : Symbol}
    (h : y ∉ cs.map Prod.fst) : cs.lookup y = none := by
  rw [List.lookup_eq_none_iff]
  intro p hp
  rw [bne_iff_ne]
  rintro rfl
  exact h (List.mem_map_of_mem hp)

theorem codeLength_le (lens : Table (BitVec 8)) (y : Symbol) : codeLength lens y ≤ 255 :=
  Nat.le_of_lt_succ (Table.get lens y).isLt

/-- A canonical table is 0 for every symbol without a length, and gives the coded symbols the codes of
one list in the order of R161, each of which fits its length (R163, R164). -/
theorem canonicalTable_codes (h : canonicalTable lens = some codes) :
    (∀ y, codeLength lens y = 0 → codeValue codes y = 0) ∧
    ∃ cs : List (Symbol × Nat), cs.Pairwise (CodesOrdered (codeLength lens)) ∧
      (∀ a ∈ cs, a.2 < 2 ^ codeLength lens a.1) ∧
      ∀ y, codeLength lens y ≠ 0 → (y, codeValue codes y) ∈ cs := by
  unfold canonicalTable at h
  split at h
  · simp at h
  · next cs hcs =>
    simp only [Option.some.injEq] at h
    have hsyms := assignCodes_symbols hcs
    have hlens : ∀ p ∈ sortedPairs lens, p.1 = codeLength lens p.2 := fun p hp =>
      ((mem_sortedPairs lens p.1 p.2).1 hp).2.symm
    obtain ⟨hpair, hfits, -⟩ :=
      assignCodes_ordered hcs hlens (pairwise_sortedPairs lens) (by simp)
    have hmem : ∀ y, y ∈ cs.map Prod.fst ↔ codeLength lens y ≠ 0 := fun y => by
      simp [hsyms, mem_sortedPairs, codeLength]
    have hvalue : ∀ y, codeValue codes y = ((cs.lookup y).getD 0) % 2 ^ 255 := fun y => by
      rw [codeValue, ← h, Table.get_ofFn, BitVec.toNat_ofNat]
    refine ⟨fun y hy => ?_, cs, hpair, hfits, fun y hy => ?_⟩
    · rw [hvalue, lookup_of_not_mem_symbols (mt (hmem y).1 (not_not.2 hy))]
      rfl
    · obtain ⟨v, hv, hin⟩ := lookup_of_mem_symbols ((hmem y).2 hy)
      have hlt : v < 2 ^ 255 :=
        (hfits _ hin).trans_le (Nat.pow_le_pow_right (by omega) (codeLength_le lens y))
      rwa [hvalue, hv, Option.getD_some, Nat.mod_eq_of_lt hlt]

/-- A canonical code fits its length (10_state.md R52). -/
theorem canonicalTable_fits (h : canonicalTable lens = some codes) (y : Symbol) :
    codeValue codes y < 2 ^ codeLength lens y := by
  obtain ⟨hzero, cs, -, hfits, hmem⟩ := canonicalTable_codes h
  by_cases hy : codeLength lens y = 0
  · simp [hy, hzero y hy]
  · exact hfits _ (hmem y hy)

/-- Of two coded symbols one has its code below the other's, in the order of R161. -/
theorem canonicalTable_ordered (h : canonicalTable lens = some codes) {y z : Symbol} (hyz : y ≠ z)
    (hy : codeLength lens y ≠ 0) (hz : codeLength lens z ≠ 0) :
    CodesOrdered (codeLength lens) (y, codeValue codes y) (z, codeValue codes z) ∨
      CodesOrdered (codeLength lens) (z, codeValue codes z) (y, codeValue codes y) := by
  obtain ⟨-, cs, hpair, -, hmem⟩ := canonicalTable_codes h
  exact (hpair.imp Relation.SymmGen.of_rel).forall (hmem y hy) (hmem z hz) (by simp [hyz])

/-! ### No code begins another -/

/-- A bit string determines the value it spells, where that fits. -/
theorem lowBits_inj {v w l : Nat} (hv : v < 2 ^ l) (hw : w < 2 ^ l)
    (h : lowBits v l = lowBits w l) : v = w := by
  refine Nat.eq_of_testBit_eq fun i => ?_
  by_cases hi : i < l
  · have := congrArg (fun bs : List Bool => bs[l - 1 - i]?) h
    simpa [lowBits, show l - 1 - i < l by omega, show l - 1 - (l - 1 - i) = i by omega] using this
  · have hp : 2 ^ l ≤ 2 ^ i := Nat.pow_le_pow_right (by omega) (by omega)
    rw [Nat.testBit_lt_two_pow (hv.trans_le hp), Nat.testBit_lt_two_pow (hw.trans_le hp)]

/-- The first l bits of a longer bit string spell its value without its low bits. -/
theorem take_lowBits (w l n : Nat) : (lowBits w (l + n)).take l = lowBits (w / 2 ^ n) l := by
  refine List.ext_getElem (by simp) fun i h1 h2 => ?_
  have hi : i < l := by simpa using h2
  simp only [lowBits, List.getElem_take, List.getElem_map, List.getElem_range,
    Nat.testBit_div_two_pow]
  congr 1
  omega

/-- Of two codes, one below the other, neither begins the other. -/
theorem CodeBelow.not_prefix {v l w k : Nat} (h : CodeBelow v l w k) (hv : v < 2 ^ l)
    (hw : w < 2 ^ k) : ¬ lowBits v l <+: lowBits w k ∧ ¬ lowBits w k <+: lowBits v l := by
  obtain ⟨hlk, hroom⟩ := h
  obtain ⟨n, rfl⟩ := Nat.exists_eq_add_of_le hlk
  rw [Nat.add_sub_cancel_left] at hroom
  have hfwd : ¬ lowBits v l <+: lowBits w (l + n) := fun hp => by
    have hbits := List.prefix_iff_eq_take.1 hp
    rw [length_lowBits, take_lowBits] at hbits
    have hdiv : w / 2 ^ n < 2 ^ l := Nat.div_lt_of_lt_mul (by rwa [← Nat.pow_add, Nat.add_comm])
    have hle : v + 1 ≤ w / 2 ^ n := (Nat.le_div_iff_mul_le (Nat.two_pow_pos n)).2 hroom
    have := lowBits_inj hv hdiv hbits
    omega
  refine ⟨hfwd, fun hp => ?_⟩
  have hlen : (lowBits w (l + n)).length = (lowBits v l).length :=
    le_antisymm hp.length_le (by simp)
  exact hfwd (hp.eq_of_length hlen ▸ List.prefix_refl _)

/-- Of the canonical codes of the current lengths none begins another, and they increase with the symbol
within a length (R54, R166). -/
theorem canonical_codes_prefixFree {s : State} {c : Channel}
    (h : canonicalTable (s.len.get c) = some (s.code.get c)) :
    CodesPrefixFree s c ∧ CodesIncrease s c := by
  constructor
  · intro y z hyz hy hz
    have hfy := canonicalTable_fits h y
    have hfz := canonicalTable_fits h z
    rcases canonicalTable_ordered h hyz hy hz with ⟨-, hb⟩ | ⟨-, hb⟩
    · exact (hb.not_prefix hfy hfz).1
    · exact (hb.not_prefix hfz hfy).2
  · intro y z hy hlen hlt
    have hyz : y ≠ z := fun e => by simp [e] at hlt
    rcases canonicalTable_ordered h hyz hy
        (fun e => hy (hlen.trans e)) with ⟨-, -, hroom⟩ | ⟨hle, -⟩
    · have hexp : codeLength (s.len.get c) z - codeLength (s.len.get c) y = 0 :=
        Nat.sub_eq_zero_of_le hlen.ge
      rwa [hexp, pow_zero, mul_one] at hroom
    · rcases hle with hlt' | ⟨-, hle⟩
      · exact absurd hlen.symm hlt'.ne
      · exact absurd hle (not_le.2 hlt)

end Sys2Proof.Machine
end

section
/-! The invariant of reachable states (Safety.lean), kept by every event of a step. -/

namespace Sys2Proof.Safety

open Sys2Proof.Machine

variable {s t : State}

/-! ### The reset and the shared updates -/

/-- The state of R310 meets the invariant, whatever the host has seen before. -/
theorem inv_resetBlock (s : State) : Inv (resetBlock s) where
  acc_lt := by simp [resetBlock, State.reset]
  inptr_le := by simp [resetBlock, State.reset]
  inbit_lt := by simp [resetBlock, State.reset]
  err_le := by simp [resetBlock, State.reset]
  err_clear _ := rfl
  err_addr _ := rfl
  err_overrun _ := rfl
  err_flight h := by simp [resetBlock, State.reset] at h
  valid_codes c h := by cases c <;> cases h
  taken_le := Nat.le_refl 0

/-- BUSY may fall in any state. -/
theorem Inv.clearBusy (h : Inv s) : Inv { s with busy := false } :=
  { h with err_flight := nofun }

theorem Inv.clearLatch (h : Inv s) : Inv (clearLatch s) :=
  { h with
    err_le := Nat.zero_le 10
    err_clear := fun _ => rfl
    err_addr := fun _ => rfl
    err_overrun := fun _ => rfl
    err_flight := fun _ h0 => absurd rfl h0 }

/-- New lengths in a channel go with CVALID = 0 there (10_state.md R53). -/
theorem Inv.setLenTable (h : Inv s) (c : Channel) (lens : Table (BitVec 8)) :
    Inv ((s.setLenTable c lens).setCValid c false) :=
  { h with
    valid_codes := fun d hd => by
      by_cases hdc : d = c
      · simp [State.cvalidAt, hdc] at hd
      · simp only [State.cvalidAt, State.setCValid_cvalid, State.setLenTable_cvalid,
          PerChannel.get_set_ne _ _ hdc] at hd
        simpa [PerChannel.get_set_ne _ _ hdc] using h.valid_codes d hd }

/-- The canonical codes of a channel's lengths make it valid (41_canonical.md R164). -/
theorem Inv.setCodeTable (h : Inv s) {c : Channel} {codes : Table Code}
    (hc : canonicalTable (s.len.get c) = some codes) :
    Inv ((s.setCodeTable c codes).setCValid c true) :=
  { h with
    valid_codes := fun d hd => by
      by_cases hdc : d = c
      · simpa [hdc] using hc
      · simp only [State.cvalidAt, State.setCValid_cvalid, State.setCodeTable_cvalid,
          PerChannel.get_set_ne _ _ hdc] at hd
        simpa [PerChannel.get_set_ne _ _ hdc] using h.valid_codes d hd }

theorem Inv.packerMoved (h : Inv s) (hm : PackerMoved s t) : Inv t := by
  obtain ⟨e, hout, hacc⟩ := hm
  have hfits := hacc h.acc_lt
  have htaken := h.taken_le.trans hout.length_le
  rw [e] at hfits ⊢
  exact { h with acc_lt := hfits, taken_le := htaken }

theorem Inv.readerMoved (h : Inv s) (hm : ReaderMoved s t) : Inv t := by
  obtain ⟨e, hin⟩ := hm
  obtain ⟨hptr, hbit⟩ := hin ⟨h.inptr_le, h.inbit_lt⟩
  rw [e] at hptr hbit ⊢
  exact { h with inptr_le := hptr, inbit_lt := hbit }

/-- Emitting bytes takes none from the host. -/
theorem Inv.emitted (h : Inv s) (xs : List Byte) : Inv { s with out := s.out ++ xs } :=
  { h with taken_le := h.taken_le.trans (List.prefix_append s.out xs).length_le }

/-- An aligned reader may move on by whole delivered bytes. -/
theorem Inv.setInptr (h : Inv s) (hbit : s.inbit = 0#3) {n : Nat} (hn : n ≤ s.inbuf.length) :
    Inv { s with inptr := n } :=
  { h with inptr_le := hn, inbit_lt := fun h0 => absurd hbit h0 }

/-! ### The completion step -/

theorem Inv.okEffect (h : Inv s) {i : Instr} (he : OkEffect s t i) : Inv t := by
  cases i with
  | nop => exact he ▸ h
  | sreset => exact he ▸ inv_resetBlock s
  | clrerr => exact he ▸ h.clearLatch
  | build c => exact he ▸ h.setLenTable c _
  | assign c => obtain ⟨codes, hc, rfl⟩ := he; exact h.setCodeTable hc
  | wrlt c => obtain ⟨xs, rfl⟩ := he; exact h.emitted xs
  | hdrw => obtain ⟨xs, rfl⟩ := he; exact h.emitted xs
  | rdlt c =>
    obtain ⟨lens, hbit, hav, rfl⟩ := he
    exact (h.setLenTable c lens).setInptr hbit hav
  | encsym c y => exact h.packerMoved he
  | encpx pr pg pb => exact h.packerMoved he
  | flush => exact h.packerMoved he
  | decsym c => exact h.readerMoved he
  | decpx => exact h.readerMoved he
  | hdrr =>
    obtain ⟨hbit, hav, e⟩ := he
    rw [e]
    exact { h.setInptr hbit hav with }

/-- A raised error other than Overrun records PEND, and no address (60_exceptions.md R284). -/
theorem Inv.failedState (h : Inv s) {code : BitVec 4} (h0 : code ≠ 0#4) (h10 : code.toNat < 10) :
    Inv (failedState code s) := by
  unfold Safety.failedState
  split
  · exact { h with
      err_le := h10.le
      err_clear := fun e => absurd e h0
      err_addr := fun _ => rfl
      err_overrun := fun (e : code = 10#4) => by simp [e] at h10
      err_flight := nofun }
  · exact h.clearBusy

theorem Inv.exec (h : Inv s) {i : Instr} (hx : exec i s = .next t) : Inv t := by
  rcases exec_answers hx with ⟨u, he, rfl⟩ | ⟨e, hl, rfl⟩ | ⟨rfl, -⟩
  · exact (h.okEffect he).clearBusy
  · exact h.failedState (errorNumber_ne_zero e) (listedErrors_lt_overrun i _ hl)
  · exact h

theorem Inv.coreStep (h : Inv s) (hx : coreStep s = .next t) : Inv t := by
  unfold Machine.coreStep at hx
  split at hx
  · cases hx; exact h
  · split at hx
    · exact h.exec hx
    · rw [execIllegal, complete_err] at hx
      cases hx
      exact h.failedState (by decide) (by decide)

/-! ### The host's moves -/

theorem Inv.latchOverrun (h : Inv s) (wa : WordAddr) : Inv (latchOverrun wa s) := by
  unfold Machine.latchOverrun
  split
  · exact { h with
      err_le := by simp [errorNumber]
      err_clear := fun _ => rfl
      err_addr := fun h10 => absurd rfl h10
      err_overrun := fun _ => rfl
      err_flight := fun _ _ => .inl rfl }
  · exact h

/-- With an error latched only SRESET and CLRERR get into PEND (30_encoding.md R120). -/
theorem Inv.accept (h : Inv s) (w : Word) : Inv (accept w s) := by
  unfold Machine.accept
  split
  · exact h
  · next ha =>
    exact { h with err_flight := fun _ h0 => .inr (by simpa [noError, h0] using ha) }

theorem Inv.hostWrite (h : Inv s) (wa : WordAddr) (v : Word) : Inv (hostWrite wa v s) := by
  unfold Machine.hostWrite
  split
  · exact h.latchOverrun wa
  · split
    · exact h.accept v
    · exact { h with }
    · exact { h with }
    · exact { h with }
    · next c y _ => exact h.setLenTable c (Table.set (s.len.get c) y (v.extractLsb' 0 8))
    all_goals exact h

/-- The host's reads take no byte of OUT. -/
theorem Inv.hostRead (h : Inv s) (wa : WordAddr) : Inv (hostRead wa s) := by
  unfold Machine.hostRead
  split <;> exact { h with }

theorem Inv.hostReceive (h : Inv s) : Inv (hostReceive s) := by
  unfold Machine.hostReceive
  split
  · exact h
  · next hx => exact { h with taken_le := (List.getElem?_eq_some_iff.1 hx).1 }

theorem Inv.hostDeliver (h : Inv s) {x : Byte} (hx : hostDeliver x s = .next t) : Inv t := by
  unfold Machine.hostDeliver at hx
  split at hx
  · cases hx
  · cases hx
    have hle : s.inbuf.length ≤ (s.inbuf ++ [x]).length := (List.prefix_append _ _).length_le
    exact { h with
      inptr_le := h.inptr_le.trans hle
      inbit_lt := fun hb => (h.inbit_lt hb).trans_le hle }

/-- Which events are to come is no concern of the invariant. -/
theorem Inv.consumeEvent (h : Inv s) (rest : List Event) : Inv (consumeEvent s rest) := { h with }

theorem Inv.hostEndInput (h : Inv s) : Inv (hostEndInput s) := { h with }

theorem Inv.step (h : Inv s) (hx : step s = .next t) : Inv t := by
  unfold Machine.step at hx
  split at hx
  · exact h.coreStep hx
  · next rest _ => exact (h.consumeEvent rest).coreStep hx
  · next rest _ => cases hx; exact (h.consumeEvent rest).hostWrite _ _
  · next rest _ => cases hx; exact (h.consumeEvent rest).hostRead _
  · next rest _ => exact (h.consumeEvent rest).hostDeliver hx
  · next rest _ => cases hx; exact (h.consumeEvent rest).hostEndInput
  · next rest _ => cases hx; exact (h.consumeEvent rest).hostReceive
  · next rest _ => cases hx; exact inv_resetBlock _

end Sys2Proof.Safety

namespace Sys2Proof

open Machine Safety

/-- Settles O57: each event and each command keeps the invariant. -/
theorem stepKeepsTheInvariant : Obligations.StepKeepsTheInvariant :=
  fun _ _ h hx => h.step hx

/-- Settles O58: the invariant makes the codes of a valid channel canonical, so none begins another. -/
theorem validCodesArePrefixFree : Obligations.ValidCodesArePrefixFree :=
  fun _ c h _ hc => canonical_codes_prefixFree (h.valid_codes c hc)

end Sys2Proof
end

section
/-! Which command writes what: the frame of the completion step, register by register and array by
array. -/

namespace Sys2Proof.Machine

open Sys2Proof.Safety

theorem PerChannel.get_set_of_ne {α : Type} (p : PerChannel α) {c d : Channel} (v : α) (h : c ≠ d) :
    (p.set c v).get d = p.get d := p.get_set_ne v h.symm

/-- A command that fails writes the error registers and BUSY alone (60_exceptions.md R283). -/
theorem failedState_frame (code : BitVec 4) (s : State) :
    failedState code s = { s with
      errCode := (failedState code s).errCode
      errCmd := (failedState code s).errCmd
      errAddr := (failedState code s).errAddr
      busy := false } := by
  unfold failedState
  split <;> rfl

/-- The latch keeps an error it holds, and takes a first one with the word in PEND (R284). -/
theorem failedState_latch {code : BitVec 4} (h : code ≠ 0#4) (s : State) :
    ((failedState code s).errCode = s.errCode ∧ (failedState code s).errCmd = s.errCmd ∧
      (failedState code s).errAddr = s.errAddr) ∨
    (s.errCode = 0#4 ∧ (failedState code s).errCode ≠ 0#4 ∧ (failedState code s).errCmd = s.pend ∧
      (failedState code s).errAddr = 0#16) := by
  unfold failedState
  split
  · next h0 => exact .inr ⟨h0, h, rfl, rfl⟩
  · exact .inl ⟨rfl, rfl, rfl⟩

/-- Where the latch was free, a failed command leaves an error in it. -/
theorem failedState_errCode {code : BitVec 4} {s : State} (h0 : s.errCode = 0#4) :
    (failedState code s).errCode = code := by simp [failedState, h0]

theorem exec_next (i : Instr) (s : State) : ∃ t, exec i s = .next t :=
  exec_eq_complete i s ▸ complete_next s _

variable {i : Instr} {s t : State}

/-- From s to t the arrays have changed only as command i may change them (10_state.md R50 to R52). -/
def ArraysKept (i : Instr) (s t : State) : Prop :=
  t.freq = s.freq ∧
  (∀ c, i ≠ .build c → i ≠ .rdlt c → t.len.get c = s.len.get c) ∧
  ∀ c, i ≠ .assign c → t.code.get c = s.code.get c

theorem OkEffect.arraysKept (he : OkEffect s t i) (hi : i ≠ .sreset) : ArraysKept i s t := by
  unfold ArraysKept
  cases i with
  | sreset => exact absurd rfl hi
  | nop => cases he; simp
  | clrerr => cases he; simp
  | build c => cases he; simp +contextual [PerChannel.get_set_of_ne]
  | assign c => obtain ⟨codes, -, rfl⟩ := he; simp +contextual [PerChannel.get_set_of_ne]
  | rdlt c => obtain ⟨lens, -, -, rfl⟩ := he; simp +contextual [PerChannel.get_set_of_ne]
  | wrlt c => obtain ⟨xs, rfl⟩ := he; simp
  | hdrw => obtain ⟨xs, rfl⟩ := he; simp
  | hdrr => obtain ⟨-, -, e⟩ := he; rw [e]; simp
  | flush => obtain ⟨e, -⟩ := he; rw [e]; simp
  | encsym c y => obtain ⟨e, -⟩ := he; rw [e]; simp
  | encpx pr pg pb => obtain ⟨e, -⟩ := he; rw [e]; simp
  | decsym c => obtain ⟨e, -⟩ := he; rw [e]; simp
  | decpx => obtain ⟨e, -⟩ := he; rw [e]; simp

/-- A command other than SRESET that completes, fails or holds keeps the arrays it does not name. -/
theorem exec_arraysKept (hx : exec i s = .next t) (hi : i ≠ .sreset) : ArraysKept i s t := by
  rcases exec_answers hx with ⟨u, he, rfl⟩ | ⟨e, -, rfl⟩ | ⟨rfl, -⟩
  · exact he.arraysKept hi
  · rw [failedState_frame]; exact ⟨rfl, fun _ _ _ => rfl, fun _ _ => rfl⟩
  · exact ⟨rfl, fun _ _ _ => rfl, fun _ _ => rfl⟩

/-- An ASSIGN that latched no error leaves the canonical codes of its channel's lengths (R164). -/
theorem exec_assign_canonical {c : Channel} (h0 : s.errCode = 0#4)
    (hx : exec (.assign c) s = .next t) (ht : t.errCode = 0#4) :
    canonicalTable (t.len.get c) = some (t.code.get c) := by
  rcases exec_answers hx with ⟨u, ⟨codes, hc, rfl⟩, rfl⟩ | ⟨e, -, rfl⟩ | ⟨-, -, hi⟩
  · simpa using hc
  · rw [failedState_errCode h0] at ht
    exact absurd ht (errorNumber_ne_zero e)
  · simp at hi

end Sys2Proof.Machine

namespace Sys2Proof

open Machine Safety

/-- Settles O30: the codes ASSIGN leaves are canonical, and canonical codes fit their lengths. -/
theorem assignedCodesFit : Obligations.AssignedCodesFit := by
  intro s t c h0 hx ht y
  have hc := exec_assign_canonical h0 hx ht
  exact ⟨fun _ => canonicalTable_fits hc y, (canonicalTable_codes hc).1 y⟩

/-- Settles O55, by the effect of each command that returns ok, the frame of one that fails, and the
unchanged state of one that holds. -/
theorem onlyTheNamedCommandsWrite : Obligations.OnlyTheNamedCommandsWrite := by
  intro i s
  obtain ⟨t, hx⟩ := exec_next i s
  refine ⟨t, hx, ?_⟩
  rcases exec_answers hx with ⟨u, he, rfl⟩ | ⟨e, -, rfl⟩ | ⟨rfl, -⟩
  · refine ⟨.inl rfl, fun hi => ?_⟩
    cases i with
    | sreset => exact absurd rfl hi
    | nop => cases he; simp [State.cvalidAt]
    | clrerr => cases he; simp [State.cvalidAt]
    | build c => cases he; simp +contextual [State.cvalidAt, PerChannel.get_set_of_ne]
    | assign c =>
      obtain ⟨codes, -, rfl⟩ := he
      simp +contextual [State.cvalidAt, PerChannel.get_set_of_ne]
    | rdlt c =>
      obtain ⟨lens, -, -, rfl⟩ := he
      simp +contextual [State.cvalidAt, PerChannel.get_set_of_ne]
    | wrlt c => obtain ⟨xs, rfl⟩ := he; simp [State.cvalidAt]
    | hdrw => obtain ⟨xs, rfl⟩ := he; simp [State.cvalidAt]
    | hdrr => obtain ⟨-, -, e⟩ := he; rw [e]; simp [State.cvalidAt]
    | flush => obtain ⟨e, ho, -⟩ := he; rw [e]; simp [State.cvalidAt, ho]
    | encsym c y => obtain ⟨e, ho, -⟩ := he; rw [e]; simp [State.cvalidAt, ho]
    | encpx pr pg pb => obtain ⟨e, ho, -⟩ := he; rw [e]; simp [State.cvalidAt, ho]
    | decsym c => obtain ⟨e, -⟩ := he; rw [e]; simp [State.cvalidAt]
    | decpx => obtain ⟨e, -⟩ := he; rw [e]; simp [State.cvalidAt]
  · rw [failedState_frame]
    refine ⟨.inl rfl, fun _ => ?_⟩
    simp [State.cvalidAt, failedState_latch (errorNumber_ne_zero e) s]
  · exact ⟨.inr rfl, fun _ => by simp⟩

end Sys2Proof
end

section
/-! The host's window (20_memory.md R82): its addresses, what each reads as, and what a write to each
does while BUSY = 0. -/

namespace Sys2Proof.Machine

open Sys2Proof.Safety

/-! ### The address map -/

/-- The byte address a register or array entry has in R82. The reserved addresses have no one address;
the value given them is never used. -/
def addressOf : BusTarget → Nat
  | .cmd => 0x0000
  | .status => 0x0004
  | .errCode => 0x0008
  | .errCmd => 0x000C
  | .errAddr => 0x0010
  | .width => 0x0014
  | .height => 0x0018
  | .result => 0x001C
  | .pack => 0x0020
  | .inptr => 0x0024
  | .inbit => 0x0028
  | .id => 0x002C
  | .freq c y => 0x1000 + 0x400 * channelNumber c + 4 * y.toNat
  | .len c y => 0x2000 + 0x400 * channelNumber c + 4 * y.toNat
  | .code c y j => 0x4000 + 0x2000 * channelNumber c + 32 * y.toNat + 4 * j
  | .reserved => 0xFFFC

theorem channelNumber_channelOfNumber {n : Nat} (h : n < 3) :
    channelNumber (channelOfNumber n) = n := by
  interval_cases n <;> rfl

/-- The map of R82 loses no aligned address that it gives a name. -/
theorem addressOf_of_busTargetAt {a : Nat} {b : BusTarget} (h : busTargetAt a = b)
    (ha : a % 4 = 0) (hb : b ≠ .reserved) : addressOf b = a := by
  rw [busTargetAt] at h
  iterate 12
    rcases ite_eq_iff.1 h with ⟨ha, rfl⟩ | ⟨-, h⟩
    · exact ha.symm
  rcases ite_eq_iff.1 h with ⟨-, h⟩ | ⟨hlow, h⟩
  · exact absurd h.symm hb
  rcases ite_eq_iff.1 h with ⟨hfreq, rfl⟩ | ⟨-, h⟩
  · rw [addressOf, channelNumber_channelOfNumber (by omega), BitVec.toNat_ofNat]
    omega
  rcases ite_eq_iff.1 h with ⟨-, h⟩ | ⟨hlow, h⟩
  · exact absurd h.symm hb
  rcases ite_eq_iff.1 h with ⟨hlen, rfl⟩ | ⟨-, h⟩
  · rw [addressOf, channelNumber_channelOfNumber (by omega), BitVec.toNat_ofNat]
    omega
  rcases ite_eq_iff.1 h with ⟨-, h⟩ | ⟨hlow, h⟩
  · exact absurd h.symm hb
  rcases ite_eq_iff.1 h with ⟨hcode, rfl⟩ | ⟨-, h⟩
  · rw [addressOf, channelNumber_channelOfNumber (by omega), BitVec.toNat_ofNat]
    omega
  · exact absurd h.symm hb

/-- A word address that names something is given back by what it names. -/
theorem addressOf_busTarget {wa : WordAddr} (h : busTarget wa ≠ .reserved) :
    addressOf (busTarget wa) = 4 * wa.toNat :=
  addressOf_of_busTargetAt (busTarget_eq wa).symm (by omega) h

/-- The word address of FREQ[c][y]. -/
theorem busTarget_freq (c : Channel) (y : Symbol) :
    busTarget (BitVec.ofNat 14 ((0x1000 + 0x400 * channelNumber c + 4 * y.toNat) / 4)) = .freq c y := by
  have hc : channelNumber c < 3 := by cases c <;> decide
  have hy := y.isLt
  rw [busTarget_ofNat (by omega), ← busTargetAt_freq c y]
  congr 1
  omega

/-- The word address of LEN[c][y]. -/
theorem busTarget_len (c : Channel) (y : Symbol) :
    busTarget (BitVec.ofNat 14 ((0x2000 + 0x400 * channelNumber c + 4 * y.toNat) / 4)) = .len c y := by
  have hc : channelNumber c < 3 := by cases c <;> decide
  have hy := y.isLt
  rw [busTarget_ofNat (by omega), ← busTargetAt_len c y]
  congr 1
  omega

/-! ### What an address reads as, and what a write does while BUSY = 0 -/

variable {s : State} {wa : WordAddr} {c : Channel} {y : Symbol}

theorem busValue_freq (h : busTarget wa = .freq c y) : busValue s wa = s.freqAt c y := by
  rw [busValue, h]

theorem busValue_len (h : busTarget wa = .len c y) :
    busValue s wa = BitVec.setWidth 32 (s.lenAt c y) := by rw [busValue, h]

theorem busValue_code {j : Nat} (h : busTarget wa = .code c y j) :
    busValue s wa = (s.codeAt c y).extractLsb' (32 * j) 32 := by rw [busValue, h]

theorem hostRead_idle (wa : WordAddr) (hs : s.busy = false) :
    hostRead wa s = recordRead wa (busValue s wa) s := by simp [hostRead, hs]

theorem hostWrite_freq (hs : s.busy = false) (h : busTarget wa = .freq c y) (v : Word) :
    hostWrite wa v s = s.setFreqAt c y v := by simp [hostWrite, hs, h]

theorem hostWrite_len (hs : s.busy = false) (h : busTarget wa = .len c y) (v : Word) :
    hostWrite wa v s = (s.setLenAt c y (v.extractLsb' 0 8)).setCValid c false := by
  simp [hostWrite, hs, h]

theorem freqAt_setFreqAt (s : State) (c d : Channel) (y z : Symbol) (v : Word) :
    (s.setFreqAt c y v).freqAt d z = if d = c ∧ z = y then v else s.freqAt d z := by
  by_cases hd : d = c
  · subst hd; simp [State.freqAt, Table.get_set]
  · simp [State.freqAt, PerChannel.get_set_ne _ _ hd, hd]

theorem lenAt_setLenAt (s : State) (c d : Channel) (y z : Symbol) (v : BitVec 8) :
    (s.setLenAt c y v).lenAt d z = if d = c ∧ z = y then v else s.lenAt d z := by
  by_cases hd : d = c
  · subst hd; simp [State.lenAt, Table.get_set]
  · simp [State.lenAt, PerChannel.get_set_ne _ _ hd, hd]

theorem cvalidAt_setCValid (s : State) (c d : Channel) (v : Bool) :
    (s.setCValid c v).cvalidAt d = if d = c then v else s.cvalidAt d :=
  PerChannel.get_set ..

end Sys2Proof.Machine

namespace Sys2Proof

open Machine Safety

/-- Settles O17: what an address names determines the address. -/
theorem addressMapHasNoAliases : Obligations.AddressMapHasNoAliases := by
  intro wa wb h hr
  have ha := addressOf_busTarget hr
  have hb := addressOf_busTarget (h ▸ hr)
  rw [h, hb] at ha
  exact BitVec.eq_of_toNat_eq (by omega)

/-- Settles O15: the two windows name the entries, and a write sets the entry it names. -/
theorem freqAndLenWindows : Obligations.FreqAndLenWindows := by
  intro s c y v hs
  have hf := busTarget_freq c y
  have hl := busTarget_len c y
  refine ⟨busValue_freq hf, busValue_len hl, ?_, ?_⟩
  · dsimp only
    rw [hostWrite_freq hs hf]
    exact ⟨rfl, fun d z => freqAt_setFreqAt s c d y z v⟩
  · dsimp only
    rw [hostWrite_len hs hl]
    refine ⟨rfl, fun d z => ?_, fun d => cvalidAt_setCValid _ c d false⟩
    exact lenAt_setLenAt s c d y z _

/-- Settles O18: a word of an array window reads the entry it names, and the command keeps that entry. -/
theorem commandsKeepOtherArrays : Obligations.CommandsKeepOtherArrays := by
  intro i s t wa hx hi
  obtain ⟨hfreq, hlen, hcode⟩ := exec_arraysKept hx hi
  split
  · next h => rw [busValue_freq h, busValue_freq h, State.freqAt, hfreq]; rfl
  · next c y h =>
    intro hb hr
    rw [busValue_len h, busValue_len h, State.lenAt, hlen c hb hr]; rfl
  · next c y j h =>
    intro ha
    rw [busValue_code h, busValue_code h, State.codeAt, hcode c ha]; rfl
  · trivial

end Sys2Proof
end

section
/-! The registers of the window (10_state.md R34 to R44). -/

namespace Sys2Proof.Machine

open Sys2Proof.Safety

variable (s : State)

theorem errFlag_toNat : (errFlag s).toNat = if s.errCode = 0#4 then 0 else 1 := by
  by_cases h : s.errCode = 0#4 <;> simp [errFlag, h]

/-- STATUS as a number: each flag at its bit (R34). -/
theorem statusWord_toNat :
    (statusWord s).toNat = s.busy.toNat + 2 * (errFlag s).toNat + 16 * s.cvalid.r.toNat +
      32 * s.cvalid.g.toNat + 64 * s.cvalid.b.toNat := by
  unfold statusWord
  generalize s.busy = busy, errFlag s = err, s.cvalid.r = r, s.cvalid.g = g, s.cvalid.b = b
  revert busy err r g b
  decide

/-- The seven low bits of STATUS (R34). -/
theorem statusWord_getLsbD_low (k : Fin 7) :
    (statusWord s).getLsbD k =
      [s.busy, errFlag s, false, false, s.cvalid.r, s.cvalid.g, s.cvalid.b][k] := by
  unfold statusWord
  generalize s.busy = busy, errFlag s = err, s.cvalid.r = r, s.cvalid.g = g, s.cvalid.b = b
  revert k busy err r g b
  decide

/-- STATUS has no bit above them (R34). -/
theorem statusWord_getLsbD_high {k : Nat} (hk : 7 ≤ k) : (statusWord s).getLsbD k = false := by
  have hlt : (statusWord s).toNat < 2 ^ 7 := by
    have h0 := Bool.toNat_le s.busy
    have h1 := Bool.toNat_le (errFlag s)
    have h4 := Bool.toNat_le s.cvalid.r
    have h5 := Bool.toNat_le s.cvalid.g
    have h6 := Bool.toNat_le s.cvalid.b
    rw [statusWord_toNat]
    omega
  exact Nat.testBit_lt_two_pow (hlt.trans_le (Nat.pow_le_pow_right (by omega) hk))

/-- PACK as a number: CNT above the eight bits of ACC (R42). -/
theorem packWord_toNat : (packWord s).toNat = s.acc.toNat + 256 * s.cnt.toNat := by
  have hacc := s.acc.isLt
  rw [packWord, BitVec.toNat_append, BitVec.toNat_append, BitVec.toNat_ofNat, Nat.zero_mod,
    Nat.zero_shiftLeft, Nat.zero_or, ← Nat.shiftLeft_add_eq_or_of_lt hacc, Nat.shiftLeft_eq]
  omega

variable {s : State}

theorem hostWrite_width (hs : s.busy = false) (v : Word) :
    hostWrite 5#14 v s = { s with width := v.extractLsb' 0 16 } := if_neg (by simp [hs])

theorem hostWrite_height (hs : s.busy = false) (v : Word) :
    hostWrite 6#14 v s = { s with height := v.extractLsb' 0 16 } := if_neg (by simp [hs])

theorem hostWrite_status (hs : s.busy = false) (v : Word) : hostWrite 1#14 v s = s :=
  if_neg (by simp [hs])

theorem busValue_status (s : State) : busValue s 1#14 = statusWord s := rfl

end Sys2Proof.Machine

namespace Sys2Proof

open Machine Safety

/-- Settles O13: the word addresses 0 to 11 name the twelve registers, each read as its own word. -/
theorem registerWindow : Obligations.RegisterWindow := by
  intro s v hs
  have hstatus : (busValue s 1#14).toNat =
      2 * (if s.errCode = 0#4 then 0 else 1) + 16 * (s.cvalidAt .r).toNat +
        32 * (s.cvalidAt .g).toNat + 64 * (s.cvalidAt .b).toNat := by
    rw [busValue_status, statusWord_toNat, hs, errFlag_toNat, Bool.toNat_false, Nat.zero_add]
    rfl
  exact ⟨fun wa => hostRead_idle wa hs, rfl, hstatus, rfl, rfl, rfl, rfl, rfl, rfl, packWord_toNat s,
    BitVec.toNat_ofNat .., rfl, rfl, hostWrite_width hs v, hostWrite_height hs v⟩

/-- Settles O14: the low bits of STATUS are its flags, and no bit stands above them. -/
theorem statusRegister : Obligations.StatusRegister := by
  intro s v
  have low := statusWord_getLsbD_low s
  have herr : errFlag s = decide (s.errCode ≠ 0#4) := by simp [errFlag, bne, beq_eq_decide]
  exact ⟨low 0, herr ▸ low 1, low 2, low 3, low 4, low 5, low 6,
    fun k hk => statusWord_getLsbD_high s hk, rfl, fun hs => hostWrite_status hs v⟩

end Sys2Proof
end

section
/-! A host write to a busy block (20_memory.md R84): no command and no illegal word reads the error
latch, so the completion step ends as it would have without the write. -/

namespace Sys2Proof.Machine

open Sys2Proof.Safety

/-- The state with the three error registers replaced. -/
def setLatch (e : BitVec 4) (w : Word) (a : ByteAddr) (s : State) : State :=
  { s with errCode := e, errCmd := w, errAddr := a }

/-- The same answer, from the state it leaves on. -/
def CmdResult.mapState (f : State → State) : CmdResult → CmdResult
  | .ok t => .ok (f t)
  | .err e => .err e
  | .hold => .hold

/-- The same for a walk. -/
def WalkResult.mapState (f : State → State) : WalkResult → WalkResult
  | .sym y t => .sym y (f t)
  | .err e => .err e
  | .hold => .hold

/-- From t to u nothing differs but the error registers. -/
def LatchApart (t u : State) : Prop :=
  u = { t with errCode := u.errCode, errCmd := u.errCmd, errAddr := u.errAddr }

/-- A write to a busy block leaves the error registers alone changed (R84). -/
theorem overrunState_eq_setLatch (b : ByteAddr) (s : State) :
    ∃ e w a, overrunState b s = setLatch e w a s := by
  unfold overrunState
  split
  · exact ⟨_, _, _, rfl⟩
  · exact ⟨s.errCode, s.errCmd, s.errAddr, rfl⟩

theorem hostWrite_busy {s : State} (hs : s.busy = true) (wa : WordAddr) (v : Word) :
    hostWrite wa v s = overrunState (byteAddr wa) s := by
  rw [← latchOverrun_eq, hostWrite, if_pos hs]

variable (e : BitVec 4) (w : Word) (a : ByteAddr) (s : State)

/-! ### The packer, the reader and the walk do not read the latch -/

theorem putBit_setLatch (b : Bool) :
    putBit b (setLatch e w a s) = setLatch e w a (putBit b s) := by
  by_cases h : s.cnt = 7#3 <;> simp [putBit, setLatch, emit, h]

theorem putCode_setLatch (v : Code) (l : Nat) :
    putCode v l (setLatch e w a s) = setLatch e w a (putCode v l s) := by
  induction l generalizing s with
  | zero => rfl
  | succ l ih => rw [putCode, putBit_setLatch, ih]; rfl

theorem putSymbol_setLatch (c : Channel) (y : Symbol) :
    putSymbol c y (setLatch e w a s) = setLatch e w a (putSymbol c y s) :=
  putCode_setLatch e w a s _ _

theorem emitAll_setLatch (xs : List Byte) :
    emitAll xs (setLatch e w a s) = setLatch e w a (emitAll xs s) := by
  rw [emitAll_eq, emitAll_eq]; rfl

theorem advanceBit_setLatch : advanceBit (setLatch e w a s) = setLatch e w a (advanceBit s) := by
  by_cases h : s.inbit = 7#3 <;> simp [advanceBit, setLatch, h]

theorem nextBit_setLatch :
    nextBit (setLatch e w a s) = (nextBit s).map fun r => (r.1, setLatch e w a r.2) := by
  simp only [nextBit, advanceBit_setLatch]
  cases h : s.inbuf[s.inptr]? <;> simp [setLatch, h]

theorem walkOutOfInput_setLatch :
    walkOutOfInput (setLatch e w a s) = (walkOutOfInput s).mapState (setLatch e w a) := by
  rw [walkOutOfInput, walkOutOfInput, apply_ite (WalkResult.mapState _)]; rfl

theorem walkFrom_setLatch (c : Channel) (n k p : Nat) :
    walkFrom c n k p (setLatch e w a s) = (walkFrom c n k p s).mapState (setLatch e w a) := by
  induction n generalizing k p s with
  | zero => rfl
  | succ n ih =>
    by_cases hk : k = 0
    · subst hk
      rw [walkFrom_root, walkFrom_root, nextBit_setLatch]
      cases nextBit s with
      | none => exact walkOutOfInput_setLatch e w a s
      | some r => exact ih r.2 1 r.1.toNat
    · rw [walkFrom_node c n p hk, walkFrom_node c n p hk, nextBit_setLatch,
        show nodeKind (setLatch e w a s) c k p = nodeKind s c k p from rfl]
      cases nodeKind s c k p with
      | leaf y => rfl
      | unpopulated => rfl
      | internal =>
        cases nextBit s with
        | none => exact walkOutOfInput_setLatch e w a s
        | some r => exact ih r.2 (k + 1) (2 * p + r.1.toNat)

theorem walk_setLatch (c : Channel) :
    walk c (setLatch e w a s) = (walk c s).mapState (setLatch e w a) := by
  unfold walk
  rw [walkFrom_setLatch, show emptyTree (setLatch e w a s) c = emptyTree s c from rfl]
  split <;> rfl

/-! ### The commands -/

theorem cmdDecsym_setLatch (c : Channel) :
    cmdDecsym c (setLatch e w a s) = (cmdDecsym c s).mapState (setLatch e w a) := by
  unfold cmdDecsym
  rw [walk_setLatch, show (setLatch e w a s).cvalidAt c = s.cvalidAt c from rfl]
  split
  · rfl
  · cases walk c s <;> rfl

theorem cmdDecpx_setLatch :
    cmdDecpx (setLatch e w a s) = (cmdDecpx s).mapState (setLatch e w a) := by
  unfold cmdDecpx
  rw [walk_setLatch, show allCodesReady (setLatch e w a s) = allCodesReady s from rfl]
  split
  · rfl
  · cases walk .r s with
    | err | hold => rfl
    | sym yr s1 =>
      simp only [WalkResult.mapState, walk_setLatch]
      cases walk .g s1 with
      | err | hold => rfl
      | sym yg s2 =>
        simp only [WalkResult.mapState, walk_setLatch]
        cases walk .b s2 <;> rfl

/-- No command's answer rests on the latch, and all but SRESET and CLRERR leave it as it is. -/
theorem resultOf_setLatch {i : Instr} (hreset : i ≠ .sreset) (hclear : i ≠ .clrerr) :
    resultOf i (setLatch e w a s) = (resultOf i s).mapState (setLatch e w a) := by
  cases i with
  | sreset => exact absurd rfl hreset
  | clrerr => exact absurd rfl hclear
  | nop => rfl
  | build c => rfl
  | assign c =>
    simp only [resultOf, cmdAssign, show (setLatch e w a s).len = s.len from rfl]
    cases canonicalTable (s.len.get c) <;> rfl
  | wrlt c => simp only [resultOf, cmdWrlt, emitAll_setLatch, apply_ite (CmdResult.mapState _)]; rfl
  | hdrw => simp only [resultOf, cmdHdrw, emitAll_setLatch, apply_ite (CmdResult.mapState _)]; rfl
  | rdlt c => simp only [resultOf, cmdRdlt, whenInputShort, apply_ite (CmdResult.mapState _)]; rfl
  | hdrr => simp only [resultOf, cmdHdrr, whenInputShort, apply_ite (CmdResult.mapState _)]; rfl
  | flush => simp only [resultOf, cmdFlush, apply_ite (CmdResult.mapState _)]; rfl
  | encsym c y =>
    simp only [resultOf, cmdEncsym, putSymbol_setLatch, apply_ite (CmdResult.mapState _)]; rfl
  | encpx pr pg pb =>
    simp only [resultOf, cmdEncpx, putSymbol_setLatch, apply_ite (CmdResult.mapState _)]; rfl
  | decsym c => exact cmdDecsym_setLatch e w a s c
  | decpx => exact cmdDecpx_setLatch e w a s

/-! ### The completion step -/

variable {e : BitVec 4} {w : Word} {a : ByteAddr} {s t : State}

/-- The same answer completes the same way, but for the latch. -/
theorem complete_setLatch {r : CmdResult} (h : complete s r = .next t) :
    ∃ u, complete (setLatch e w a s) (r.mapState (setLatch e w a)) = .next u ∧ LatchApart t u := by
  rcases complete_cases h with ⟨v, rfl, rfl⟩ | ⟨k, rfl, rfl⟩ | ⟨rfl, rfl⟩
  · exact ⟨_, rfl, rfl⟩
  · refine ⟨_, complete_err .., ?_⟩
    rw [LatchApart, failedState_frame _ s]
    exact failedState_frame ..
  · exact ⟨_, rfl, rfl⟩

theorem exec_setLatch {i : Instr} (h : exec i s = .next t) :
    ∃ u, exec i (setLatch e w a s) = .next u ∧ LatchApart t u := by
  by_cases hi : i = .sreset ∨ i = .clrerr
  · rcases hi with rfl | rfl <;> exact ⟨t, h, rfl⟩
  · obtain ⟨hreset, hclear⟩ := not_or.1 hi
    rw [exec_eq_complete] at h
    rw [exec_eq_complete, resultOf_setLatch e w a s hreset hclear]
    exact complete_setLatch h

/-- The core's turn does not depend on the latch, but for what it leaves in the latch. -/
theorem coreStep_setLatch (h : coreStep s = .next t) :
    ∃ u, coreStep (setLatch e w a s) = .next u ∧ LatchApart t u := by
  unfold coreStep at h ⊢
  rw [show wordInFlight (setLatch e w a s) = wordInFlight s from rfl]
  cases hw : wordInFlight s with
  | none =>
    rw [hw] at h
    cases h
    exact ⟨_, rfl, rfl⟩
  | some word =>
    rw [hw] at h
    dsimp only at h ⊢
    cases hd : decode word with
    | ok i => rw [hd] at h; exact exec_setLatch h
    | error _ => rw [hd] at h; exact complete_setLatch (r := .err .illegalCommand) h

end Sys2Proof.Machine

namespace Sys2Proof

open Machine Safety

/-- Settles O10: the write changes the latch alone, and no completion step reads the latch. -/
theorem writesWhileBusyAreDropped : Obligations.WritesWhileBusyAreDropped := by
  intro s wa v hs
  rw [hostWrite_busy hs]
  refine ⟨rfl, fun t ht => ?_⟩
  obtain ⟨e, w, a, hlatch⟩ := overrunState_eq_setLatch (byteAddr wa) s
  rw [hlatch]
  exact coreStep_setLatch ht

end Sys2Proof
end

section
/-! The rest of the host interface (20_memory.md R83 to R87, R91): reserved and read-only
addresses, the words of a CODE entry, reads while BUSY = 1, the stream ports, and what holds. -/

namespace Sys2Proof.Machine

open Sys2Proof.Safety

/-! ### Reserved and read-only addresses -/

/-- The reserved ranges of R82. -/
def ReservedRange (a : Nat) : Prop :=
  (0x30 ≤ a ∧ a < 0x1000) ∨ (0x1C00 ≤ a ∧ a < 0x2000) ∨ (0x2C00 ≤ a ∧ a < 0x4000) ∨ 0xA000 ≤ a

/-- The read-only ranges of R82. -/
def ReadOnlyRange (a : Nat) : Prop :=
  (0x04 ≤ a ∧ a ≤ 0x10) ∨ (0x1C ≤ a ∧ a ≤ 0x2C) ∨ (0x4000 ≤ a ∧ a < 0xA000)

theorem busTargetAt_reserved {a : Nat} (h : ReservedRange a) : busTargetAt a = .reserved := by
  unfold ReservedRange at h
  unfold busTargetAt
  iterate 12 rw [if_neg (by omega)]
  rcases h with ⟨-, hlow⟩ | ⟨hmid, hlow⟩ | ⟨hmid, hlow⟩ | htop
  · rw [if_pos hlow]
  · iterate 2 rw [if_neg (by omega)]
    rw [if_pos hlow]
  · iterate 4 rw [if_neg (by omega)]
    rw [if_pos hlow]
  · iterate 6 rw [if_neg (by omega)]

theorem busTarget_reserved {wa : WordAddr} (h : ReservedRange (4 * wa.toNat)) :
    busTarget wa = .reserved := by
  rw [busTarget_eq, busTargetAt_reserved h]

/-- The targets a host write changes while BUSY = 0 (R82). -/
def Writable : BusTarget → Prop
  | .cmd | .width | .height | .freq _ _ | .len _ _ => True
  | .status | .errCode | .errCmd | .errAddr | .result | .pack | .inptr | .inbit | .id
  | .code _ _ _ | .reserved => False

/-- The ranges of R82 have no writable address. -/
theorem not_writable_of_range {wa : WordAddr}
    (h : ReservedRange (4 * wa.toNat) ∨ ReadOnlyRange (4 * wa.toNat)) :
    ¬ Writable (busTarget wa) := by
  intro hw
  have haddr : addressOf (busTarget wa) = 4 * wa.toNat :=
    addressOf_busTarget fun hr => by rw [hr] at hw; exact hw
  rw [← haddr, ReservedRange, ReadOnlyRange] at h
  have hchannel (c : Channel) : channelNumber c < 3 := by cases c <;> decide
  cases hb : busTarget wa with
  | freq c y | len c y =>
    have hc := hchannel c
    have hy := y.isLt
    rw [hb, addressOf] at h
    omega
  | cmd | width | height => simp [hb, addressOf] at h
  | _ => rw [hb] at hw; exact hw

theorem hostWrite_of_not_writable {s : State} {wa : WordAddr} (hs : s.busy = false)
    (h : ¬ Writable (busTarget wa)) (v : Word) : hostWrite wa v s = s := by
  rw [hostWrite, if_neg (by simp [hs])]
  cases hb : busTarget wa with
  | cmd | width | height | freq _ _ | len _ _ => rw [hb] at h; exact absurd trivial h
  | _ => rfl

/-! ### The words of a CODE entry -/

/-- A number below 2^(32 k) is spelt by its k words, the least significant first (R91). -/
theorem sum_words (n k : Nat) :
    ((List.range k).map fun j => n / 2 ^ (32 * j) % 2 ^ 32 * 2 ^ (32 * j)).sum =
      n % 2 ^ (32 * k) := by
  induction k with
  | zero => simp [Nat.mod_one]
  | succ k ih =>
    rw [List.range_succ, List.map_append, List.sum_append, ih, Nat.mul_succ, pow_add, Nat.mod_mul]
    simp [Nat.mul_comm]

/-- The word address of word j of CODE[c][y]. -/
theorem busTarget_code (c : Channel) (y : Symbol) {j : Nat} (hj : j < 8) :
    busTarget (BitVec.ofNat 14 ((0x4000 + 0x2000 * channelNumber c + 32 * y.toNat + 4 * j) / 4)) =
      .code c y j := by
  have hc : channelNumber c < 3 := by cases c <;> decide
  have hy := y.isLt
  rw [busTarget_ofNat (by omega), ← busTargetAt_code c y hj]
  congr 1
  omega

/-! ### Reads while BUSY = 1 -/

variable {s : State} {wa : WordAddr}

/-- The five addresses of R85 are those of STATUS, ERRCODE, ERRCMD, ERRADDR and ID. -/
theorem exactWhileBusy_iff (wa : WordAddr) :
    exactWhileBusy wa = true ↔ wa.toNat ∈ [1, 2, 3, 4, 11] := by
  constructor
  · intro h
    cases hb : busTarget wa with
    | status | errCode | errCmd | errAddr | id =>
      have haddr : addressOf (busTarget wa) = 4 * wa.toNat := addressOf_busTarget (by simp [hb])
      rw [hb, addressOf] at haddr
      simp only [List.mem_cons]
      omega
    | _ => simp [exactWhileBusy, hb] at h
  · intro h
    have hwa : wa = 1#14 ∨ wa = 2#14 ∨ wa = 3#14 ∨ wa = 4#14 ∨ wa = 11#14 := by
      simpa [← BitVec.toNat_inj] using h
    rcases hwa with rfl | rfl | rfl | rfl | rfl <;> rfl

theorem hostRead_exact (h : exactWhileBusy wa = true) (s : State) :
    hostRead wa s = recordRead wa (busValue s wa) s := by simp [hostRead, h]

theorem hostRead_free (hs : s.busy = true) (h : exactWhileBusy wa ≠ true) :
    hostRead wa s = countDraw (recordRead wa (Config.freeRead s.host.draws) s) := by
  simp [hostRead, hs, h]

/-! ### The stream ports -/

variable {rest : List Event}

theorem step_deliver {x : Byte} (h : s.host.pending = .deliver x :: rest) :
    step s = hostDeliver x (consumeEvent s rest) := by rw [step, h]

theorem step_endInput (h : s.host.pending = .endInput :: rest) :
    step s = .next (hostEndInput (consumeEvent s rest)) := by rw [step, h]

theorem step_receive (h : s.host.pending = .receive :: rest) :
    step s = .next (hostReceive (consumeEvent s rest)) := by rw [step, h]

theorem hostDeliver_open (he : s.eos = false) (x : Byte) :
    hostDeliver x s = .next { s with inbuf := s.inbuf ++ [x] } := if_neg (by simp [he])

theorem hostDeliver_ended (he : s.eos = true) (x : Byte) :
    hostDeliver x s = .refused .deliveryAfterEndOfInput := if_pos he

theorem hostReceive_some {x : Byte} (h : s.out[s.host.taken]? = some x) :
    hostReceive s = { s with
      host := { s.host with taken := s.host.taken + 1, received := s.host.received ++ [x] } } := by
  rw [hostReceive, h]

theorem hostReceive_none (h : s.out[s.host.taken]? = none) : hostReceive s = s := by
  rw [hostReceive, h]

end Sys2Proof.Machine

namespace Sys2Proof

open Machine Safety

/-- Settles O12: a reserved address names nothing, and no address of these ranges is writable. -/
theorem reservedAndReadOnlyAddresses : Obligations.ReservedAndReadOnlyAddresses := by
  intro s wa v hs a reserved readOnly
  refine ⟨fun hr => ?_, fun hr => hostWrite_of_not_writable hs (not_writable_of_range hr) v⟩
  rw [hostRead_idle wa hs, busValue, busTarget_reserved hr]
  rfl

/-- Settles O16: each word is a slice of 32 bits of the code, and the code has 255 bits. -/
theorem codeWindowSpellsTheCode : Obligations.CodeWindowSpellsTheCode := by
  intro s c y word
  have hword {j : Nat} (hj : j < 8) : word j = (s.codeAt c y).extractLsb' (32 * j) 32 :=
    busValue_code (busTarget_code c y hj)
  have hvalue : ∀ j ∈ List.range 8, (word j).toNat * 2 ^ (32 * j) =
      s.codeNat c y / 2 ^ (32 * j) % 2 ^ 32 * 2 ^ (32 * j) := fun j hj => by
    rw [hword (List.mem_range.1 hj), BitVec.extractLsb'_toNat, Nat.shiftRight_eq_div_pow]; rfl
  constructor
  · rw [List.map_congr_left hvalue, sum_words, Nat.mod_eq_of_lt]
    exact (s.codeAt c y).isLt.trans (by decide)
  · rw [hword (by decide), BitVec.getLsbD_extractLsb', BitVec.getLsbD_of_ge _ _ (by decide)]
    rfl

/-- Settles O54, by what a command that completes, fails or holds leaves: only a hold keeps BUSY. -/
theorem heldCommandChangesNothing : Obligations.HeldCommandChangesNothing := by
  intro i s t hx hbusy
  rcases exec_answers hx with ⟨u, -, rfl⟩ | ⟨e, -, rfl⟩ | hhold
  · exact absurd hbusy Bool.false_ne_true
  · rw [failedState_frame] at hbusy
    exact absurd hbusy Bool.false_ne_true
  · exact hhold

/-- Settles O7, by what each move at a port does. -/
theorem streamPortEvents : Obligations.StreamPortEvents := by
  intro s rest x
  refine ⟨fun h he => ?_, fun h he => ?_, fun h => step_endInput h, fun h hx => ?_, fun h hx => ?_⟩
  · rw [step_deliver h, hostDeliver_open (s := consumeEvent s rest) he]; rfl
  · rw [step_deliver h, hostDeliver_ended (s := consumeEvent s rest) he]
  · rw [step_receive h, hostReceive_some (s := consumeEvent s rest) hx]; rfl
  · rw [step_receive h, hostReceive_none (s := consumeEvent s rest) hx]; rfl

/-- Settles O11: a read is exact at the five addresses of R85 and a free draw elsewhere. -/
theorem readsWhileBusy : Obligations.ReadsWhileBusy := by
  intro s wa hs
  have hflag : (busValue s 1#14).getLsbD 0 = s.busy := statusWord_getLsbD_low s 0
  exact ⟨fun h => hostRead_exact ((exactWhileBusy_iff wa).2 h) s,
    fun h => hostRead_free hs (mt (exactWhileBusy_iff wa).1 h), hflag.trans hs, rfl, rfl, rfl, rfl⟩

end Sys2Proof
end

section
/-! The encoding (30_encoding.md R110 to R119): the fields of a word, the four formats, and the decoder
as the inverse of the encoder. -/

namespace Sys2Proof

/-! ### Fields of a word -/

/-- A word is two fields side by side exactly when they read back from it. -/
theorem eq_append_iff {m n : Nat} {w : BitVec (m + n)} {a : BitVec m} {b : BitVec n} :
    w = a ++ b ↔ w.extractLsb' n m = a ∧ w.extractLsb' 0 n = b := by
  constructor
  · rintro rfl
    exact ⟨BitVec.extractLsb'_append_eq_left, BitVec.extractLsb'_append_eq_right⟩
  · rintro ⟨rfl, rfl⟩
    exact BitVec.extractLsb'_append_extractLsb'.symm

/-- A field of a field is a field. -/
theorem extractLsb'_of_extractLsb' {n start len inner k : Nat} (w : BitVec n) (h : inner + k ≤ len) :
    (w.extractLsb' start len).extractLsb' inner k = w.extractLsb' (start + inner) k := by
  ext i hi
  have hlt : inner + i < len := by omega
  simp [hlt, Nat.add_assoc]

/-- A masked word is zero exactly when each of its fields is zero under its part of the mask. -/
theorem and_append_eq_zero_iff {m n : Nat} {x : BitVec (m + n)} {a : BitVec m} {b : BitVec n} :
    x &&& (a ++ b) = 0#(m + n) ↔ x.extractLsb' n m &&& a = 0#m ∧ x.extractLsb' 0 n &&& b = 0#n := by
  rw [← BitVec.zero_append_zero, eq_append_iff, BitVec.extractLsb'_and, BitVec.extractLsb'_and,
    BitVec.extractLsb'_append_eq_left, BitVec.extractLsb'_append_eq_right]

variable {w : Word} {o : BitVec 8}

/-- Format N, field by field (R111). -/
theorem eq_encodeN_iff : w = encodeN o ↔ w.extractLsb' 24 8 = o ∧ w.extractLsb' 0 24 = 0#24 :=
  eq_append_iff (m := 8) (n := 24)

/-- Format C, field by field (R112). -/
theorem eq_encodeC_iff {c : Channel} : w = encodeC o c ↔
    w.extractLsb' 24 8 = o ∧ w.extractLsb' 22 2 = channelBits c ∧ w.extractLsb' 0 22 = 0#22 := by
  refine (eq_append_iff (m := 10) (n := 22)).trans ?_
  rw [eq_append_iff (m := 8) (n := 2)]
  simp [extractLsb'_of_extractLsb', and_assoc]

/-- Format CS, field by field (R113). -/
theorem eq_encodeCS_iff {c : Channel} {y : Symbol} : w = encodeCS o c y ↔
    w.extractLsb' 24 8 = o ∧ w.extractLsb' 22 2 = channelBits c ∧ w.extractLsb' 8 14 = 0#14 ∧
      w.extractLsb' 0 8 = y := by
  refine (eq_append_iff (m := 24) (n := 8)).trans ?_
  rw [eq_append_iff (m := 10) (n := 14), eq_append_iff (m := 8) (n := 2)]
  simp [extractLsb'_of_extractLsb', and_assoc]

/-- Format P, field by field (R114). -/
theorem eq_encodeP_iff {pr pg pb : Symbol} : w = encodeP o pr pg pb ↔
    w.extractLsb' 24 8 = o ∧ w.extractLsb' 16 8 = pr ∧ w.extractLsb' 8 8 = pg ∧
      w.extractLsb' 0 8 = pb := by
  refine (eq_append_iff (m := 24) (n := 8)).trans ?_
  rw [eq_append_iff (m := 16) (n := 8), eq_append_iff (m := 8) (n := 8)]
  simp [extractLsb'_of_extractLsb', and_assoc]

theorem channelOfBits_eq_some_iff {ch : BitVec 2} {c : Channel} :
    channelOfBits ch = some c ↔ ch = channelBits c := by
  revert ch
  cases c <;> decide

/-- CH names a channel unless it is 3 (R112). -/
theorem exists_channelBits_iff {ch : BitVec 2} : (∃ c, ch = channelBits c) ↔ ch ≠ 3#2 := by
  have hnone : channelOfBits ch = none ↔ ch = 3#2 := by revert ch; decide
  simp only [← channelOfBits_eq_some_iff, ← Option.ne_none_iff_exists', ne_eq, hnone]

theorem ite_ok_eq_ok_iff {p : Prop} [Decidable p] {i j : Instr} {r : DecodeReject} :
    (if p then Except.ok i else Except.error r) = Except.ok j ↔ p ∧ i = j := by
  split <;> simp [*]

/-! ### The formats -/

/-- The format of a row of the opcode map, with the command its operands make (R111 to R114). -/
inductive Format where
  | n (i : Instr)
  | c (mk : Channel → Instr)
  | cs (mk : Channel → Symbol → Instr)
  | p (mk : Symbol → Symbol → Symbol → Instr)

namespace Format

/-- The decoder of a format. -/
def decode (w : Word) : Format → Except DecodeReject Instr
  | n i => decodeN w i
  | c mk => decodeC w mk
  | cs mk => decodeCS w mk
  | p mk => decodeP w mk

/-- w is the word of this format with opcode o and the operands that make j. -/
def Writes (o : BitVec 8) (w : Word) (j : Instr) : Format → Prop
  | n i => w = encodeN o ∧ i = j
  | c mk => ∃ ch, w = encodeC o ch ∧ mk ch = j
  | cs mk => ∃ ch y, w = encodeCS o ch y ∧ mk ch y = j
  | p mk => ∃ pr pg pb, w = encodeP o pr pg pb ∧ mk pr pg pb = j

/-- The reserved bits of the format are zero. -/
def ReservedZero (w : Word) : Format → Prop
  | n _ => w.extractLsb' 0 24 = 0#24
  | c _ => w.extractLsb' 0 22 = 0#22
  | cs _ => w.extractLsb' 8 14 = 0#14
  | p _ => True

/-- CH names a channel where the format has one. -/
def ChannelLegal (w : Word) : Format → Prop
  | c _ | cs _ => w.extractLsb' 22 2 ≠ 3#2
  | n _ | p _ => True

/-- The part of a row's mask below the opcode: the reserved bits of the format (R116). -/
def lowMask : Format → BitVec 24
  | n _ => BitVec.allOnes 24
  | c _ => 0#2 ++ BitVec.allOnes 22
  | cs _ => 0#2 ++ (BitVec.allOnes 14 ++ 0#8)
  | p _ => 0#24

variable {j : Instr} (f : Format)

/-- The decoder of a format reads the words the format writes. -/
theorem decode_eq_ok_iff (h : w.extractLsb' 24 8 = o) : f.decode w = .ok j ↔ f.Writes o w j := by
  cases f with
  | n i => simp [decode, decodeN, Writes, eq_encodeN_iff, h, ite_ok_eq_ok_iff]
  | c mk =>
    simp only [decode, decodeC, Writes, eq_encodeC_iff, h, ← channelOfBits_eq_some_iff]
    cases channelOfBits (w.extractLsb' 22 2) <;> simp [ite_ok_eq_ok_iff]
  | cs mk =>
    simp only [decode, decodeCS, Writes, eq_encodeCS_iff, h, ← channelOfBits_eq_some_iff]
    cases channelOfBits (w.extractLsb' 22 2) <;> simp [ite_ok_eq_ok_iff, and_assoc]
  | p mk => simp [decode, decodeP, Writes, eq_encodeP_iff, h]

/-- The words a format writes, by their opcode, their channel and their reserved bits. -/
theorem exists_writes_iff : (∃ j, f.Writes o w j) ↔
    w.extractLsb' 24 8 = o ∧ f.ChannelLegal w ∧ f.ReservedZero w := by
  cases f <;> simp [Writes, ReservedZero, ChannelLegal, eq_encodeN_iff, eq_encodeC_iff,
    eq_encodeCS_iff, eq_encodeP_iff, ← exists_channelBits_iff]

/-- The low bits of the mask select the reserved bits. -/
theorem and_lowMask_eq_zero_iff :
    w.extractLsb' 0 24 &&& f.lowMask = 0#24 ↔ f.ReservedZero w := by
  cases f with
  | n i => rw [lowMask, BitVec.and_allOnes]; rfl
  | c mk =>
    refine (and_append_eq_zero_iff (m := 2) (n := 22)).trans ?_
    rw [BitVec.and_zero, BitVec.and_allOnes]
    simp [ReservedZero, extractLsb'_of_extractLsb']
  | cs mk =>
    refine (and_append_eq_zero_iff (m := 2) (n := 22)).trans ?_
    rw [BitVec.and_zero, and_append_eq_zero_iff (m := 14) (n := 8), BitVec.and_allOnes,
      BitVec.and_zero]
    simp [ReservedZero, extractLsb'_of_extractLsb']
  | p mk => simp [lowMask, ReservedZero]

/-- A word matches under the mask of the format exactly when its opcode and its reserved bits do. -/
theorem and_mask_eq_iff :
    w &&& (0xFF#8 ++ f.lowMask) = encodeN o ↔ w.extractLsb' 24 8 = o ∧ f.ReservedZero w := by
  rw [eq_encodeN_iff, ← and_lowMask_eq_zero_iff, BitVec.extractLsb'_and, BitVec.extractLsb'_and,
    BitVec.extractLsb'_append_eq_left, BitVec.extractLsb'_append_eq_right,
    show 0xFF#8 = BitVec.allOnes 8 from rfl, BitVec.and_allOnes]

end Format

end Sys2Proof
end

section
/-! The opcode map (30_encoding.md R116): the opcode and the format of each command, the decoder and
Legal(w) in terms of them, and the rows of the map. -/

namespace Sys2Proof

/-! ### The opcode and the format of a command -/

/-- The opcode of a command (R116). -/
def opcodeOf : Instr → BitVec 8
  | .nop => 0x00#8
  | .sreset => 0x01#8
  | .clrerr => 0x02#8
  | .build _ => 0x10#8
  | .assign _ => 0x11#8
  | .wrlt _ => 0x20#8
  | .rdlt _ => 0x21#8
  | .encsym _ _ => 0x30#8
  | .encpx _ _ _ => 0x31#8
  | .flush => 0x32#8
  | .decsym _ => 0x40#8
  | .decpx => 0x41#8
  | .hdrw => 0x50#8
  | .hdrr => 0x51#8

/-- The format of a command (R116). -/
def formatOf : Instr → Format
  | .build _ => .c .build
  | .assign _ => .c .assign
  | .wrlt _ => .c .wrlt
  | .rdlt _ => .c .rdlt
  | .decsym _ => .c .decsym
  | .encsym _ _ => .cs .encsym
  | .encpx _ _ _ => .p .encpx
  | i => .n i

/-- One command of each row of the map. -/
def commandOfEachRow : List Instr :=
  [.nop, .sreset, .clrerr, .build .r, .assign .r, .wrlt .r, .rdlt .r, .encsym .r 0#8,
   .encpx 0#8 0#8 0#8, .flush, .decsym .r, .decpx, .hdrw, .hdrr]

/-- The command of that list in the same row, which no operand decides. -/
def rowCommand : Instr → Instr
  | .build _ => .build .r
  | .assign _ => .assign .r
  | .wrlt _ => .wrlt .r
  | .rdlt _ => .rdlt .r
  | .encsym _ _ => .encsym .r 0#8
  | .encpx _ _ _ => .encpx 0#8 0#8 0#8
  | .decsym _ => .decsym .r
  | i => i

/-- The opcode stands in the map of R116. -/
def Assigned (o : BitVec 8) : Prop := ∃ i, o = opcodeOf i

theorem assigned_of_mem {o : BitVec 8} (h : o ∈ commandOfEachRow.map opcodeOf) : Assigned o := by
  obtain ⟨i, -, hi⟩ := List.mem_map.1 h
  exact ⟨i, hi.symm⟩

/-- The encoder writes a command in its format with its opcode. -/
theorem writes_encode (i : Instr) : (formatOf i).Writes (opcodeOf i) (encode i) i := by
  cases i with
  | nop | sreset | clrerr | flush | decpx | hdrw | hdrr => exact ⟨rfl, rfl⟩
  | build c | assign c | wrlt c | rdlt c | decsym c => exact ⟨c, rfl, rfl⟩
  | encsym c y => exact ⟨c, y, rfl, rfl⟩
  | encpx pr pg pb => exact ⟨pr, pg, pb, rfl, rfl⟩

/-- A word written in the format of a command with its opcode is what the encoder writes. -/
theorem encode_of_writes {i j : Instr} {w : Word} (h : (formatOf i).Writes (opcodeOf i) w j) :
    encode j = w := by
  cases i with
  | nop | sreset | clrerr | flush | decpx | hdrw | hdrr =>
    obtain ⟨rfl, rfl⟩ := h
    rfl
  | build | assign | wrlt | rdlt | decsym =>
    obtain ⟨c, rfl, rfl⟩ := h
    rfl
  | encsym =>
    obtain ⟨c, y, rfl, rfl⟩ := h
    rfl
  | encpx =>
    obtain ⟨pr, pg, pb, rfl, rfl⟩ := h
    rfl

variable {i j : Instr} {w : Word}

theorem op_encode (i : Instr) : (encode i).extractLsb' 24 8 = opcodeOf i :=
  ((formatOf i).exists_writes_iff.1 ⟨i, writes_encode i⟩).1

/-! ### The decoder -/

/-- The opcode alone selects the format (R110). -/
theorem decode_of_opcode (h : w.extractLsb' 24 8 = opcodeOf i) : decode w = (formatOf i).decode w := by
  unfold decode
  rw [h]
  cases i <;> rfl

/-- An opcode outside the map is no command (R116). -/
theorem decode_of_not_assigned (h : ¬ Assigned (w.extractLsb' 24 8)) :
    decode w = .error (.reservedOpcode (w.extractLsb' 24 8)) := by
  have hnat : (w.extractLsb' 24 8).toNat ∉ commandOfEachRow.map fun i => (opcodeOf i).toNat := by
    intro hmem
    obtain ⟨i, -, hi⟩ := List.mem_map.1 hmem
    exact h ⟨i, BitVec.eq_of_toNat_eq hi.symm⟩
  unfold decode
  split
  case h_15 => rfl
  all_goals
    rename_i hop
    rw [hop] at hnat
    exact absurd (by decide) hnat

/-- The decoder inverts the encoder, and ignores no bit. -/
theorem decode_eq_ok_iff : decode w = .ok j ↔ encode j = w := by
  constructor
  · intro hdec
    by_cases hop : Assigned (w.extractLsb' 24 8)
    · obtain ⟨i, hi⟩ := hop
      rw [decode_of_opcode hi, Format.decode_eq_ok_iff _ hi] at hdec
      exact encode_of_writes hdec
    · rw [decode_of_not_assigned hop] at hdec
      cases hdec
  · rintro rfl
    rw [decode_of_opcode (op_encode j), Format.decode_eq_ok_iff _ (op_encode j)]
    exact writes_encode j

/-! ### Legal(w) (R117) -/

theorem opcodeAssigned_iff : WellFormed.opcodeAssigned w = true ↔ Assigned (w.extractLsb' 24 8) := by
  unfold WellFormed.opcodeAssigned WellFormed.op
  constructor
  · intro h
    have hsub : WellFormed.formatNOps ++ (WellFormed.formatCOps ++
        [WellFormed.formatCSOp, WellFormed.formatPOp]) ⊆ commandOfEachRow.map opcodeOf := by decide
    refine assigned_of_mem (hsub ?_)
    simpa [or_assoc] using h
  · rintro ⟨i, hi⟩
    rw [hi]
    cases i <;> rfl

theorem reservedZero_iff (h : w.extractLsb' 24 8 = opcodeOf i) :
    WellFormed.reservedZero w = true ↔ (formatOf i).ReservedZero w := by
  unfold WellFormed.reservedZero WellFormed.op
  rw [h]
  cases i with
  | encpx => exact iff_of_true rfl trivial
  | _ => exact beq_iff_eq

theorem channelLegal_iff (h : w.extractLsb' 24 8 = opcodeOf i) :
    WellFormed.channelLegal w = true ↔ (formatOf i).ChannelLegal w := by
  unfold WellFormed.channelLegal WellFormed.op
  rw [h]
  cases i with
  | build | assign | wrlt | rdlt | decsym | encsym => exact bne_iff_ne
  | _ => exact iff_of_true rfl trivial

theorem legal_iff (h : w.extractLsb' 24 8 = opcodeOf i) : WellFormed.legal w = true ↔
    WellFormed.channelLegal w = true ∧ (formatOf i).ReservedZero w := by
  have hop : WellFormed.opcodeAssigned w = true := opcodeAssigned_iff.2 ⟨i, h⟩
  rw [WellFormed.legal, hop, Bool.true_and, Bool.and_eq_true, reservedZero_iff h, and_comm]

/-- The decoder accepts exactly the legal words. -/
theorem exists_decode_eq_ok_iff : (∃ j, decode w = .ok j) ↔ WellFormed.legal w = true := by
  by_cases hop : Assigned (w.extractLsb' 24 8)
  · obtain ⟨i, hi⟩ := hop
    simp only [decode_of_opcode hi, Format.decode_eq_ok_iff _ hi, Format.exists_writes_iff,
      legal_iff hi, channelLegal_iff hi, hi, true_and]
  · rw [decode_of_not_assigned hop, WellFormed.legal, Bool.and_eq_true, Bool.and_eq_true,
      opcodeAssigned_iff]
    simp [hop]

theorem decode_eq_error_of_not_legal (h : WellFormed.legal w = false) : ∃ r, decode w = .error r := by
  cases hdec : decode w with
  | ok i => exact absurd (exists_decode_eq_ok_iff.1 ⟨i, hdec⟩) (by simp [h])
  | error r => exact ⟨r, rfl⟩

/-! ### The rows of the map (R116) -/

/-- The row of a command: the opcode is fixed, and so are the reserved bits of the format. -/
def rowOf (i : Instr) : OpcodeRow :=
  ⟨mnemonicOf i, encodeN (opcodeOf i), 0xFF#8 ++ (formatOf i).lowMask⟩

theorem opcodeRows_eq : opcodeRows = commandOfEachRow.map rowOf := by decide

theorem rowCommand_mem (i : Instr) : rowCommand i ∈ commandOfEachRow := by
  cases i <;> simp [rowCommand, commandOfEachRow]

theorem rowOf_rowCommand (i : Instr) : rowOf (rowCommand i) = rowOf i := by cases i <;> rfl

theorem rowOf_mem (i : Instr) : rowOf i ∈ opcodeRows := by
  rw [← rowOf_rowCommand, opcodeRows_eq]
  exact List.mem_map_of_mem (rowCommand_mem i)

/-- No mnemonic has two opcodes, and no opcode two mnemonics. -/
theorem mnemonicOf_eq_iff : mnemonicOf i = mnemonicOf j ↔ opcodeOf i = opcodeOf j := by
  have hrows : ∀ a ∈ commandOfEachRow, ∀ b ∈ commandOfEachRow,
      mnemonicOf a = mnemonicOf b ↔ opcodeOf a = opcodeOf b := by decide
  have hmnem (k : Instr) : mnemonicOf (rowCommand k) = mnemonicOf k := by cases k <;> rfl
  have hop (k : Instr) : opcodeOf (rowCommand k) = opcodeOf k := by cases k <;> rfl
  simpa only [hmnem, hop] using hrows _ (rowCommand_mem i) _ (rowCommand_mem j)

/-- A word matches the row of a command, CH = 3 apart, when it is a legal word with its opcode. -/
theorem matches_rowOf_iff :
    (w &&& (rowOf i).mask = (rowOf i).pattern ∧ WellFormed.channelLegal w = true) ↔
      w.extractLsb' 24 8 = opcodeOf i ∧ WellFormed.legal w = true := by
  rw [rowOf, Format.and_mask_eq_iff, and_assoc]
  exact and_congr_right fun hop => by rw [legal_iff hop, and_comm]

/-- A word decodes to a command with a given mnemonic when it is a legal word with the opcode. -/
theorem exists_decode_mnemonic_iff :
    (∃ j, decode w = .ok j ∧ mnemonicOf j = mnemonicOf i) ↔
      w.extractLsb' 24 8 = opcodeOf i ∧ WellFormed.legal w = true := by
  have hop {j : Instr} (hdec : decode w = .ok j) : w.extractLsb' 24 8 = opcodeOf j := by
    rw [← decode_eq_ok_iff.1 hdec, op_encode]
  constructor
  · rintro ⟨j, hdec, hmnem⟩
    exact ⟨(hop hdec).trans (mnemonicOf_eq_iff.1 hmnem), exists_decode_eq_ok_iff.1 ⟨j, hdec⟩⟩
  · rintro ⟨hi, hlegal⟩
    obtain ⟨j, hdec⟩ := exists_decode_eq_ok_iff.2 hlegal
    exact ⟨j, hdec, mnemonicOf_eq_iff.2 ((hop hdec).symm.trans hi)⟩

/-- Settles O1: the decoder reads each format where the encoder writes it. -/
theorem decodeInvertsEncode : Obligations.DecodeInvertsEncode := fun _ => decode_eq_ok_iff.2 rfl

/-- Settles O2: the fields a format reads and its reserved bits make up the word. -/
theorem encodeInvertsDecode : Obligations.EncodeInvertsDecode := fun _ _ => decode_eq_ok_iff.1

/-- Settles O4: a row fixes the opcode and the reserved bits, and so does the decoder. -/
theorem decoderAgreesWithOpcodeMap : Obligations.DecoderAgreesWithOpcodeMap := by
  refine ⟨fun r hr w => ?_, fun i => ⟨rowOf i, rowOf_mem i, rfl⟩⟩
  rw [opcodeRows_eq] at hr
  obtain ⟨i, -, rfl⟩ := List.mem_map.1 hr
  exact matches_rowOf_iff.trans exists_decode_mnemonic_iff.symm

/-- Settles O5: each of the ten words is what the encoder writes for its command; three are not legal. -/
theorem specWordsDecode : Obligations.SpecWordsDecode := by
  simp only [Obligations.SpecWordsDecode, decode_eq_ok_iff]
  decide

end Sys2Proof
end

section
/-! The step on the core's turn and on a host access (30_encoding.md R120, R121; 20_memory.md R95). -/

namespace Sys2Proof.Machine

open Sys2Proof.Safety

variable {s : State} {rest : List Event}

/-! ### The core's turn (R121) -/

theorem coreStep_idle (hs : s.busy = false) : coreStep s = .next s := by
  simp [coreStep, wordInFlight, hs]

theorem coreStep_command {i : Instr} (hs : s.busy = true) (hdec : decode s.pend = .ok i) :
    coreStep s = exec i s := by
  simp [coreStep, wordInFlight, hs, hdec]

theorem coreStep_illegal (hs : s.busy = true) (h : WellFormed.legal s.pend = false) :
    coreStep s = .next (failedState 9#4 s) := by
  obtain ⟨r, hdec⟩ := decode_eq_error_of_not_legal h
  simp [coreStep, wordInFlight, hs, hdec, execIllegal, complete_err, errorNumber]

/-! ### The earliest event (R95) -/

theorem step_of_no_event (h : s.host.pending = []) : step s = coreStep s := by rw [step, h]

theorem step_coreTurn (h : s.host.pending = .coreTurn :: rest) :
    step s = coreStep (consumeEvent s rest) := by rw [step, h]

theorem step_write {wa : WordAddr} {v : Word} (h : s.host.pending = .write wa v :: rest) :
    step s = .next (hostWrite wa v (consumeEvent s rest)) := by rw [step, h]

theorem step_read {wa : WordAddr} (h : s.host.pending = .read wa :: rest) :
    step s = .next (hostRead wa (consumeEvent s rest)) := by rw [step, h]

/-! ### The word written to CMD (R120) -/

theorem hostWrite_cmd (hs : s.busy = false) (w : Word) : hostWrite 0#14 w s = accept w s :=
  if_neg (by simp [hs])

theorem accept_discarded {w : Word} (he : s.errCode ≠ 0#4) (hw : acceptedInError w = false) :
    accept w s = s :=
  if_pos (by simp [noError, he, hw])

theorem accept_taken {w : Word} (h : s.errCode = 0#4 ∨ acceptedInError w = true) :
    accept w s = { s with pend := w, busy := true } :=
  if_neg (by rcases h with h | h <;> simp [noError, h])

theorem acceptedInError_iff {w : Word} :
    acceptedInError w = true ↔ w = 0x01000000#32 ∨ w = 0x02000000#32 := by
  simp [acceptedInError]

end Sys2Proof.Machine

namespace Sys2Proof

open Machine Safety

/-- Settles O3: both fix the opcode, the channel and the reserved bits; a word that does not decode is
executed as IllegalCommand. -/
theorem legalWordsAreTheCommands : Obligations.LegalWordsAreTheCommands :=
  ⟨fun _ => exists_decode_eq_ok_iff, fun _ => coreStep_illegal⟩

/-- Settles O6: the earliest event is taken, and the core's turn is that of the word in flight. -/
theorem stepRunsTheCommandInFlight : Obligations.StepRunsTheCommandInFlight :=
  ⟨fun _ _ hs h hdec => (step_of_no_event h).trans (coreStep_command hs hdec),
    fun s _ rest hs h hdec =>
      (step_coreTurn h).trans (coreStep_command (s := consumeEvent s rest) hs hdec),
    fun _ hs h hill => (step_of_no_event h).trans (coreStep_illegal hs hill),
    fun s rest hs h hill =>
      (step_coreTurn h).trans (coreStep_illegal (s := consumeEvent s rest) hs hill),
    fun _ hs h => (step_of_no_event h).trans (coreStep_idle hs),
    fun s rest hs h => (step_coreTurn h).trans (coreStep_idle (s := consumeEvent s rest) hs),
    fun _ _ _ _ h => step_write h, fun _ _ _ h => step_read h⟩

/-- Settles O8: a busy block drops the word, an error discards it, and otherwise PEND takes it. -/
theorem commandAcceptance : Obligations.CommandAcceptance := by
  intro s w
  refine ⟨fun hs => hostWrite_busy hs 0#14 w, fun hs he h1 h2 => ?_, fun hs h => ?_⟩
  · rw [hostWrite_cmd hs, accept_discarded he]
    exact Bool.eq_false_iff.2 (mt acceptedInError_iff.1 (not_or.2 ⟨h1, h2⟩))
  · rw [hostWrite_cmd hs, accept_taken (h.imp_right acceptedInError_iff.2)]

end Sys2Proof
end

section
/-! The queue of BUILD (40_tree_builder.md R142, R143, R145, R146): what one merge does, said once,
and what every number of merges keeps. -/

namespace Sys2Proof.Machine

variable {q rest : List HTree} {a b : HTree}

/-! ### The priority order (R142) -/

theorem comesBefore_iff :
    comesBefore a b = true ↔ a.weight < b.weight ∨ (a.weight = b.weight ∧ a.id < b.id) := by
  simp [comesBefore]

/-- Between nodes of different ids the order is total (R142). -/
theorem comesBefore_of_not (hid : a.id ≠ b.id) (h : comesBefore b a = false) :
    comesBefore a b = true := by
  rw [← Bool.not_eq_true, comesBefore_iff] at h
  rw [comesBefore_iff]
  omega

/-- A node that does not come before another is at least as heavy (R142). -/
theorem weight_le_of_not_comesBefore (h : comesBefore b a = false) : a.weight ≤ b.weight := by
  rw [← Bool.not_eq_true, comesBefore_iff] at h
  omega

/-- a comes first of the queue in the priority order, and b first of the others, which are rest
(R142). -/
structure FirstTwo (q : List HTree) (a b : HTree) (rest : List HTree) : Prop where
  perm : q.Perm (a :: b :: rest)
  first : ∀ n ∈ b :: rest, comesBefore n a = false
  second : ∀ n ∈ rest, comesBefore n b = false

/-! ### One merge (R143) -/

/-- None of the nodes left comes before the one extracted (R142). -/
theorem extractMin_first (t : HTree) (q : List HTree) :
    ∀ n ∈ (extractMin t q).2, comesBefore n (extractMin t q).1 = false :=
  fun n hn => extractMin_le t q n ((extractMin_perm t q).subset (List.mem_cons_of_mem _ hn))

/-- All a merge can do: nothing to a queue of less than two nodes, and otherwise put a new node in
the place of the first two (R143). -/
theorem mergeOnce_cases (id : Nat) (q : List HTree) :
    (q.length ≤ 1 ∧ mergeOnce id q = q) ∨
    ∃ a b rest, FirstTwo q a b rest ∧
      mergeOnce id q = .node id (a.weight + b.weight) a b :: rest := by
  match q with
  | [] => exact .inl ⟨by simp, rfl⟩
  | [t] => exact .inl ⟨by simp, rfl⟩
  | t :: u :: us =>
    right
    have hperm1 := extractMin_perm t (u :: us)
    have hfirst1 := extractMin_first t (u :: us)
    rw [mergeOnce]
    cases h1 : extractMin t (u :: us) with
    | mk a q1 =>
      rw [h1] at hperm1 hfirst1
      cases q1 with
      | nil => simpa using hperm1.length_eq
      | cons v q1 =>
        have hperm2 := extractMin_perm v q1
        refine ⟨a, (extractMin v q1).1, (extractMin v q1).2, ?_, rfl⟩
        exact {
          perm := hperm1.symm.trans (hperm2.symm.cons a)
          first := fun n hn => hfirst1 n (hperm2.subset hn)
          second := extractMin_first v q1 }

/-- The merge of a queue of two or more nodes (R143). -/
theorem mergeOnce_firstTwo (id : Nat) (h : 2 ≤ q.length) :
    ∃ a b rest, FirstTwo q a b rest ∧
      mergeOnce id q = .node id (a.weight + b.weight) a b :: rest :=
  (mergeOnce_cases id q).resolve_left fun h1 => by omega

/-! ### Any number of merges (R145) -/

theorem mergeTimes_succ (n id : Nat) (q : List HTree) :
    mergeTimes (n + 1) id q = mergeOnce (id + n) (mergeTimes n id q) := by
  induction n generalizing id q with
  | zero => rfl
  | succ n ih =>
    rw [mergeTimes, ih, ← mergeTimes]
    congr 1
    omega

/-- Fewer merges than there are nodes take away one node each. -/
theorem length_mergeTimes (id : Nat) {n : Nat} (h : n < q.length) :
    (mergeTimes n id q).length = q.length - n := by
  induction n with
  | zero => rfl
  | succ n ih =>
    have hn := ih (by omega)
    rw [mergeTimes_succ, length_mergeOnce _ (by omega)]
    omega

/-- What every merge keeps, any number of merges keep. -/
theorem mergeTimes_keeps {P : List HTree → Prop} (hstep : ∀ id q, P q → P (mergeOnce id q))
    (n id : Nat) (h : P q) : P (mergeTimes n id q) := by
  induction n with
  | zero => exact h
  | succ n ih => exact mergeTimes_succ n id q ▸ hstep _ _ ih

/-- A merge keeps what is true of every node, when a node made of two has it from them. -/
theorem forall_mem_mergeOnce {P : HTree → Prop}
    (hnode : ∀ id a b, P a → P b → P (.node id (a.weight + b.weight) a b)) (id : Nat)
    (h : ∀ t ∈ q, P t) : ∀ t ∈ mergeOnce id q, P t := by
  rcases mergeOnce_cases id q with ⟨-, he⟩ | ⟨a, b, rest, hq, he⟩
  · rwa [he]
  · rw [he]
    have hab : ∀ t ∈ a :: b :: rest, P t := fun t ht => h t (hq.perm.symm.subset ht)
    simp only [List.forall_mem_cons] at hab ⊢
    obtain ⟨ha, hb, hrest⟩ := hab
    exact ⟨hnode id a b ha hb, hrest⟩

theorem forall_mem_mergeTimes {P : HTree → Prop}
    (hnode : ∀ id a b, P a → P b → P (.node id (a.weight + b.weight) a b)) (n id : Nat)
    (h : ∀ t ∈ q, P t) : ∀ t ∈ mergeTimes n id q, P t :=
  mergeTimes_keeps (P := fun q => ∀ t ∈ q, P t) (fun id _ => forall_mem_mergeOnce hnode id) n id h

/-! ### Ids (R141) -/

/-- The nodes have ids of their own, all below m. -/
def IdsBelow (m : Nat) (q : List HTree) : Prop := (q.map HTree.id).Nodup ∧ ∀ t ∈ q, t.id < m

theorem IdsBelow.perm {m : Nat} {q r : List HTree} (h : IdsBelow m q) (hp : q.Perm r) :
    IdsBelow m r :=
  ⟨(hp.map _).nodup_iff.1 h.1, fun t ht => h.2 t (hp.symm.subset ht)⟩

/-- A merge that gives its node the first free id leaves the next one free. -/
theorem IdsBelow.mergeOnce {m : Nat} (h : IdsBelow m q) : IdsBelow (m + 1) (mergeOnce m q) := by
  rcases mergeOnce_cases m q with ⟨-, he⟩ | ⟨a, b, rest, hq, he⟩
  · rw [he]
    exact ⟨h.1, fun t ht => Nat.lt_succ_of_lt (h.2 t ht)⟩
  · rw [he]
    obtain ⟨hnodup, hlt⟩ := h.perm hq.perm
    have hrest : ∀ t ∈ rest, t.id < m := fun t ht => hlt t (by simp [ht])
    refine ⟨List.nodup_cons.2 ⟨?_, hnodup.of_cons.of_cons⟩, List.forall_mem_cons.2 ⟨?_, ?_⟩⟩
    · intro hm
      obtain ⟨t, ht, hid⟩ := List.mem_map.1 hm
      exact absurd hid (Nat.ne_of_lt (hrest t ht))
    · exact Nat.lt_succ_self m
    · exact fun t ht => Nat.lt_succ_of_lt (hrest t ht)

theorem IdsBelow.mergeTimes {m : Nat} (h : IdsBelow m q) (n : Nat) :
    IdsBelow (m + n) (mergeTimes n m q) := by
  induction n with
  | zero => exact h
  | succ n ih => exact mergeTimes_succ n m q ▸ ih.mergeOnce

/-- Between nodes of different ids the first two are strictly the first (R142). -/
theorem FirstTwo.strict {m : Nat} (h : FirstTwo q a b rest) (hid : IdsBelow m q) :
    comesBefore a b = true ∧ ∀ n ∈ rest, comesBefore a n = true ∧ comesBefore b n = true := by
  obtain ⟨hnodup, -⟩ := hid.perm h.perm
  simp only [List.map_cons, List.nodup_cons, List.mem_cons, List.mem_map, not_or, not_exists,
    not_and] at hnodup
  obtain ⟨⟨hab, harest⟩, hbrest, -⟩ := hnodup
  refine ⟨comesBefore_of_not hab (h.first b List.mem_cons_self), fun n hn => ⟨?_, ?_⟩⟩
  · exact comesBefore_of_not (Ne.symm (harest n hn)) (h.first n (List.mem_cons_of_mem b hn))
  · exact comesBefore_of_not (Ne.symm (hbrest n hn)) (h.second n hn)

/-! ### Weights (R146) -/

/-- A merge keeps the sum of the weights. -/
theorem sum_weight_mergeOnce (id : Nat) (q : List HTree) :
    ((mergeOnce id q).map HTree.weight).sum = (q.map HTree.weight).sum := by
  rcases mergeOnce_cases id q with ⟨-, he⟩ | ⟨a, b, rest, hq, he⟩
  · rw [he]
  · rw [he, (hq.perm.map HTree.weight).sum_eq]
    simp [HTree.weight, Nat.add_assoc]

theorem sum_weight_mergeTimes (n id : Nat) (q : List HTree) :
    ((mergeTimes n id q).map HTree.weight).sum = (q.map HTree.weight).sum :=
  mergeTimes_keeps (P := fun r => (r.map HTree.weight).sum = (q.map HTree.weight).sum)
    (fun id r h => (sum_weight_mergeOnce id r).trans h) n id rfl

/-! ### The leaves (R141) -/

theorem length_leavesOf (f : Table Word) : (leavesOf f).length = (presentSymbols f).length := by
  simp [leavesOf]

theorem mem_leavesOf (f : Table Word) (t : HTree) :
    t ∈ leavesOf f ↔ ∃ y, Table.get f y ≠ 0#32 ∧ t = .leaf y (Table.get f y).toNat := by
  simp only [leavesOf, List.mem_map, mem_presentSymbols, eq_comm]

theorem idsBelow_leavesOf (f : Table Word) : IdsBelow 256 (leavesOf f) := by
  refine ⟨?_, fun t ht => ?_⟩
  · rw [leavesOf, List.map_map]
    exact (nodup_presentSymbols f).map fun _ _ h => BitVec.eq_of_toNat_eq h
  · obtain ⟨y, -, rfl⟩ := (mem_leavesOf f t).1 ht
    exact y.isLt

/-- At most 256 counts of 32 bits (R146). -/
theorem sum_weight_leavesOf_lt (f : Table Word) :
    ((leavesOf f).map HTree.weight).sum < 2 ^ 40 := by
  have hsum := List.sum_le_card_nsmul ((leavesOf f).map HTree.weight) (2 ^ 32 - 1) (by
    intro w hw
    obtain ⟨t, ht, rfl⟩ := List.mem_map.1 hw
    obtain ⟨y, -, rfl⟩ := (mem_leavesOf f t).1 ht
    exact Nat.le_sub_one_of_lt (Table.get f y).isLt)
  have hlen := length_presentSymbols_le f
  rw [List.length_map, length_leavesOf, smul_eq_mul] at hsum
  omega

/-- One merge fewer than there are leaves leaves one tree (R145). -/
theorem mergeTimes_eq_singleton (f : Table Word) (h : presentSymbols f ≠ []) :
    ∃ t, mergeTimes ((presentSymbols f).length - 1) 256 (leavesOf f) = [t] ∧
      huffmanTree f = some t := by
  have hpos := List.length_pos_iff.2 h
  have hlen := length_leavesOf f
  obtain ⟨t, ht⟩ := List.length_eq_one_iff.1
    ((length_mergeTimes 256 (q := leavesOf f) (n := (presentSymbols f).length - 1)
      (by omega)).trans (by omega))
  exact ⟨t, ht, by rw [huffmanTree, ht]; rfl⟩

end Sys2Proof.Machine

namespace Sys2Proof

open Machine

/-- Settles O59: ids stay different, so the two nodes a merge extracts are strictly the first. -/
theorem mergesFollowThePriorityOrder : Obligations.MergesFollowThePriorityOrder := by
  intro f before
  refine ⟨mem_leavesOf f, (idsBelow_leavesOf f).1.of_map, fun k hk => ?_, fun h => ?_⟩
  · have hlen := length_mergeTimes 256 (q := leavesOf f) (n := k) (by omega)
    obtain ⟨a, b, rest, hq, he⟩ := mergeOnce_firstTwo (256 + k)
      (q := mergeTimes k 256 (leavesOf f)) (by omega)
    obtain ⟨hab, hrest⟩ := hq.strict ((idsBelow_leavesOf f).mergeTimes k)
    simp only [comesBefore_iff] at hab hrest
    exact ⟨a, b, rest, hq.perm, hab, hrest, by rw [mergeTimes_succ, he]⟩
  · rw [length_leavesOf]
    exact mergeTimes_eq_singleton f fun h0 => h (by simp [leavesOf, h0])

/-- Settles O25: merges keep the sum of the weights, which no weight exceeds. -/
theorem buildWeightsFitFortyBits : Obligations.BuildWeightsFitFortyBits := by
  intro f n t ht
  have hle := List.single_le_sum (fun _ _ => Nat.zero_le _) _
    (List.mem_map_of_mem (f := HTree.weight) ht)
  rw [sum_weight_mergeTimes] at hle
  exact hle.trans_lt (sum_weight_leavesOf_lt f)

end Sys2Proof
end

section
/-! The tree of BUILD and the lengths it gives (40_tree_builder.md R144, R145, R147, R149): the
leaves through the merges, the depth of a leaf, and what BUILD writes. -/

namespace Sys2Proof.Machine

/-! ### The leaves below a node -/

namespace HTree

/-- The symbols of the leaves below a node, left to right. -/
def symbols : HTree → List Symbol
  | .leaf y _ => [y]
  | .node _ _ l r => l.symbols ++ r.symbols

theorem leafDepths_symbols (t : HTree) (d : Nat) : (t.leafDepths d).map Prod.fst = t.symbols := by
  induction t generalizing d with
  | leaf y w => rfl
  | node id w l r ihl ihr => simp [leafDepths, symbols, ihl, ihr]

theorem symbols_length_pos (t : HTree) : 0 < t.symbols.length := by
  induction t with
  | leaf y w => simp [symbols]
  | node id w l r ihl ihr => simp [symbols]; omega

/-- Below a node with n leaves a leaf is at most n - 1 edges down (R147). -/
theorem leafDepth_lt {t : HTree} {d e : Nat} {y : Symbol} (h : (y, e) ∈ t.leafDepths d) :
    e < d + t.symbols.length := by
  induction t generalizing d with
  | leaf z w =>
    simp only [leafDepths, List.mem_singleton, Prod.mk.injEq] at h
    simp [symbols, h.2]
  | node id w l r ihl ihr =>
    have hl := l.symbols_length_pos
    have hr := r.symbols_length_pos
    rw [symbols, List.length_append]
    rcases List.mem_append.1 h with h | h
    · have := ihl h
      omega
    · have := ihr h
      omega

end HTree

/-- A merge keeps the leaves of the queue. -/
theorem symbols_mergeOnce (id : Nat) (q : List HTree) :
    ((mergeOnce id q).flatMap HTree.symbols).Perm (q.flatMap HTree.symbols) := by
  rcases mergeOnce_cases id q with ⟨-, he⟩ | ⟨a, b, rest, hq, he⟩
  · rw [he]
  · rw [he]
    refine List.Perm.trans ?_ (hq.perm.flatMap_right HTree.symbols).symm
    simp [HTree.symbols]

theorem symbols_mergeTimes (n id : Nat) (q : List HTree) :
    ((mergeTimes n id q).flatMap HTree.symbols).Perm (q.flatMap HTree.symbols) :=
  mergeTimes_keeps (P := fun r => (r.flatMap HTree.symbols).Perm (q.flatMap HTree.symbols))
    (fun id r h => (symbols_mergeOnce id r).trans h) n id (List.Perm.refl _)

theorem symbols_leavesOf (f : Table Word) : (leavesOf f).flatMap HTree.symbols =
    presentSymbols f := by
  simp [leavesOf, List.flatMap_map, HTree.symbols]

/-! ### The tree -/

variable {f : Table Word} {t : HTree} {y : Symbol}

theorem mergeTimes_eq_of_huffmanTree (h : huffmanTree f = some t) :
    mergeTimes ((presentSymbols f).length - 1) 256 (leavesOf f) = [t] := by
  have hne : presentSymbols f ≠ [] := by
    intro h0
    simp [huffmanTree, leavesOf, h0, mergeTimes] at h
  obtain ⟨u, hu, hf⟩ := mergeTimes_eq_singleton f hne
  rwa [← Option.some.inj (hf.symm.trans h)]

/-- The leaves of the tree are the symbols present, one each (R141). -/
theorem huffmanTree_symbols (h : huffmanTree f = some t) : t.symbols.Perm (presentSymbols f) := by
  have hp := symbols_mergeTimes ((presentSymbols f).length - 1) 256 (leavesOf f)
  rwa [mergeTimes_eq_of_huffmanTree h, symbols_leavesOf, List.flatMap_singleton] at hp

theorem exists_huffmanTree (h : 2 ≤ (presentSymbols f).length) : ∃ t, huffmanTree f = some t := by
  obtain ⟨t, -, ht⟩ := mergeTimes_eq_singleton f (List.length_pos_iff.1 (by omega))
  exact ⟨t, ht⟩

/-- A symbol has one leaf at most, so one depth. -/
theorem depth_unique (h : huffmanTree f = some t) {d e : Nat} (hd : (y, d) ∈ t.leafDepths 0)
    (he : (y, e) ∈ t.leafDepths 0) : d = e := by
  have hnodup : ((t.leafDepths 0).map Prod.fst).Nodup := by
    rw [HTree.leafDepths_symbols]
    exact (huffmanTree_symbols h).nodup_iff.2 (nodup_presentSymbols f)
  exact congrArg Prod.snd (List.inj_on_of_nodup_map hnodup hd he rfl)

/-! ### The code lengths (R144) -/

theorem buildLength_of_two (h2 : 2 ≤ (presentSymbols f).length) (h : huffmanTree f = some t)
    (y : Symbol) : buildLength f y = ((t.leafDepths 0).lookup y).getD 0 := by
  rw [buildLength, h]
  match hp : presentSymbols f with
  | [] => simp [hp] at h2
  | [_] => simp [hp] at h2
  | _ :: _ :: _ => rfl

theorem buildLength_single {z : Symbol} (h : presentSymbols f = [z]) : buildLength f z = 1 := by
  simp [buildLength, h]

theorem buildLength_absent (h : Table.get f y = 0#32) : buildLength f y = 0 := by
  have hy : y ∉ presentSymbols f := fun hm => (mem_presentSymbols f y).1 hm h
  match hp : presentSymbols f with
  | [] => simp [buildLength, hp]
  | [z] => simpa [buildLength, hp] using hy
  | _ :: _ :: _ =>
    have h2 : 2 ≤ (presentSymbols f).length := by simp [hp]
    obtain ⟨t, ht⟩ := exists_huffmanTree h2
    have hnone : (t.leafDepths 0).lookup y = none :=
      lookup_of_not_mem_symbols
        (by rwa [HTree.leafDepths_symbols, (huffmanTree_symbols ht).mem_iff])
    rw [buildLength_of_two h2 ht, hnone]
    rfl

/-- The length of a symbol present, of two or more, is the depth of its leaf (R144). -/
theorem mem_leafDepths_iff (h2 : 2 ≤ (presentSymbols f).length) (h : huffmanTree f = some t)
    (y : Symbol) (d : Nat) :
    (y, d) ∈ t.leafDepths 0 ↔ Table.get f y ≠ 0#32 ∧ buildLength f y = d := by
  have hmem : y ∈ (t.leafDepths 0).map Prod.fst ↔ Table.get f y ≠ 0#32 := by
    rw [HTree.leafDepths_symbols, (huffmanTree_symbols h).mem_iff, mem_presentSymbols]
  have hlength {v : Nat} (hv : (t.leafDepths 0).lookup y = some v) : buildLength f y = v := by
    rw [buildLength_of_two h2 h, hv]
    rfl
  constructor
  · intro hd
    have hy := List.mem_map_of_mem (f := Prod.fst) hd
    obtain ⟨v, hv, hvmem⟩ := lookup_of_mem_symbols hy
    exact ⟨hmem.1 hy, (hlength hv).trans (depth_unique h hvmem hd)⟩
  · rintro ⟨hy, rfl⟩
    obtain ⟨v, hv, hvmem⟩ := lookup_of_mem_symbols (hmem.2 hy)
    rwa [hlength hv]

/-- No leaf of the tree is more than n - 1 edges down (R147). -/
theorem depth_le (h : huffmanTree f = some t) {d : Nat} (hd : (y, d) ∈ t.leafDepths 0) :
    d ≤ (presentSymbols f).length - 1 := by
  have hlt := HTree.leafDepth_lt hd
  rw [(huffmanTree_symbols h).length_eq] at hlt
  omega

theorem buildLength_le (f : Table Word) (y : Symbol) : buildLength f y ≤ 255 := by
  by_cases hy : Table.get f y = 0#32
  · simp [buildLength_absent hy]
  have hm := (mem_presentSymbols f y).2 hy
  match hp : presentSymbols f with
  | [] => simp [hp] at hm
  | [z] =>
    obtain rfl : y = z := by simpa [hp] using hm
    simp [buildLength_single hp]
  | _ :: _ :: _ =>
    have h2 : 2 ≤ (presentSymbols f).length := by simp [hp]
    obtain ⟨t, ht⟩ := exists_huffmanTree h2
    have hd := depth_le ht ((mem_leafDepths_iff h2 ht y _).2 ⟨hy, rfl⟩)
    have hle := length_presentSymbols_le f
    omega

/-- The byte BUILD stores is the code length (R147). -/
theorem buildTable_toNat (f : Table Word) (y : Symbol) :
    (Table.get (buildTable f) y).toNat = buildLength f y := by
  rw [buildTable, Table.get_ofFn, BitVec.toNat_ofNat]
  exact Nat.mod_eq_of_lt (Nat.lt_succ_of_le (buildLength_le f y))

/-! ### The command (R145) -/

/-- What BUILD leaves. -/
def afterBuild (c : Channel) (s : State) : State :=
  { (s.setLenTable c (buildTable (s.freq.get c))).setCValid c false with busy := false }

theorem exec_build (c : Channel) (s : State) : exec (.build c) s = .next (afterBuild c s) := rfl

theorem afterBuild_cvalidAt (c d : Channel) (s : State) :
    (afterBuild c s).cvalidAt d = if d = c then false else s.cvalidAt d :=
  PerChannel.get_set s.cvalid c d false

theorem afterBuild_lenAt (c : Channel) (s : State) (y : Symbol) :
    (afterBuild c s).lenAt c y = Table.get (buildTable (s.freq.get c)) y :=
  congrArg (Table.get · y) (PerChannel.get_set_self s.len c _)

theorem afterBuild_lenAt_ne {c d : Channel} (h : d ≠ c) (s : State) (y : Symbol) :
    (afterBuild c s).lenAt d y = s.lenAt d y :=
  congrArg (Table.get · y) (PerChannel.get_set_ne s.len _ h)

theorem afterBuild_lenNat (c : Channel) (s : State) (y : Symbol) :
    (afterBuild c s).lenNat c y = buildLength (s.freq.get c) y := by
  rw [State.lenNat, afterBuild_lenAt, buildTable_toNat]

end Sys2Proof.Machine

namespace Sys2Proof

open Machine

/-- Settles O23: the three cases of R144, with the frame of the completion step. -/
theorem buildWritesTreeDepths : Obligations.BuildWritesTreeDepths := by
  intro s c
  refine ⟨afterBuild c s, exec_build c s, rfl, by simp [afterBuild_cvalidAt], fun d hd => ?_,
    fun y hy => ?_, fun h1 y hy => ?_, fun h2 => ?_⟩
  · exact ⟨by simp [afterBuild_cvalidAt, hd], afterBuild_lenAt_ne hd s⟩
  · rw [afterBuild_lenNat, buildLength_absent hy]
  · obtain ⟨z, hz⟩ := List.length_eq_one_iff.1 h1
    have hm := (mem_presentSymbols (s.freq.get c) y).2 hy
    obtain rfl : y = z := by simpa [hz] using hm
    rw [afterBuild_lenNat, buildLength_single hz]
  · obtain ⟨t, ht⟩ := exists_huffmanTree h2
    refine ⟨t, ht, fun y d => ?_⟩
    rw [afterBuild_lenNat]
    exact mem_leafDepths_iff h2 ht y d

/-- Settles O24: a node has a leaf on either side of the path, so no path is longer than n - 1. -/
theorem buildLengthsFitOneByte : Obligations.BuildLengthsFitOneByte := by
  intro f
  refine ⟨fun t y d ht hd => depth_le ht hd, length_presentSymbols_le f, fun y hy => ?_,
    buildTable_toNat f⟩
  rw [buildTable_toNat, buildLength_single hy]

/-- Settles O28: equal counts are one table, from which both write the lengths. -/
theorem buildIsDeterministic : Obligations.BuildIsDeterministic := by
  intro s1 s2 c h
  refine ⟨_, _, exec_build c s1, exec_build c s2, fun y => ?_⟩
  rw [afterBuild_lenAt, afterBuild_lenAt, Table.ext_get h]

end Sys2Proof
end

section
/-! BUILD is optimal (40_tree_builder.md R148). Every node of the queue is given a length, with Kraft
sum at most 1. A merge can be followed by such lengths without raising the total: the first two nodes
take the greatest lengths, as an exchange with a heavier node never costs more, are shortened to the
same one, and stand one bit below their new parent. So no lengths of the leaves cost less than the one
tree that is left. -/

namespace Sys2Proof.Machine

variable {q rest : List HTree} {a b t : HTree} {ps : List (HTree × Nat)}

/-! ### The cost of a node at a depth -/

namespace HTree

/-- The weights of the internal nodes below a node, its own among them, added up. -/
def mergeCost : HTree → Nat
  | .leaf _ _ => 0
  | .node _ w l r => l.mergeCost + r.mergeCost + w

/-- The weighted length of the leaves below a node that stands at depth d. -/
def costAt (t : HTree) (d : Nat) : Nat := t.mergeCost + t.weight * d

theorem costAt_mono (t : HTree) {d e : Nat} (h : d ≤ e) : t.costAt d ≤ t.costAt e :=
  Nat.add_le_add_left (Nat.mul_le_mul_left _ h) _

/-- Two children one edge below their parent. -/
theorem costAt_node (id d : Nat) (a b : HTree) :
    (node id (a.weight + b.weight) a b).costAt d = a.costAt (d + 1) + b.costAt (d + 1) := by
  simp only [costAt, mergeCost, weight]
  ring

/-- The lighter of two nodes takes the greater depth at no cost. -/
theorem costAt_exchange {a b : HTree} (hw : a.weight ≤ b.weight) {d e : Nat} (h : d ≤ e) :
    a.costAt e + b.costAt d ≤ a.costAt d + b.costAt e := by
  have hmul := mul_add_mul_le_mul_add_mul hw h
  simp only [costAt]
  linarith

end HTree

/-- What the tree of these counts has at every depth: its cost there is the weighted length of its
leaves. -/
def CostsItsLeaves (f : Table Word) (t : HTree) : Prop :=
  ∀ d, ((t.leafDepths d).map fun p => (Table.get f p.1).toNat * p.2).sum = t.costAt d

theorem CostsItsLeaves.node {f : Table Word} (id : Nat) (a b : HTree) (ha : CostsItsLeaves f a)
    (hb : CostsItsLeaves f b) : CostsItsLeaves f (.node id (a.weight + b.weight) a b) := by
  intro d
  rw [HTree.leafDepths, List.map_append, List.sum_append, ha, hb, HTree.costAt_node]

theorem huffmanTree_costsItsLeaves {f : Table Word} (h : huffmanTree f = some t) :
    CostsItsLeaves f t := by
  refine forall_mem_mergeTimes CostsItsLeaves.node _ 256 (q := leavesOf f) (fun u hu d => ?_) t
    (mergeTimes_eq_of_huffmanTree h ▸ List.mem_singleton_self t)
  obtain ⟨y, -, rfl⟩ := (mem_leavesOf f u).1 hu
  simp [HTree.leafDepths, HTree.costAt, HTree.mergeCost, HTree.weight]

/-! ### Lengths of the nodes of a queue -/

/-- The Kraft sum of these lengths. -/
def kraftSum (ls : List Nat) : ℚ := (ls.map fun l => (1 / 2 : ℚ) ^ l).sum

/-- The weighted length of all leaves, each node at the depth given with it. -/
def totalCost (ps : List (HTree × Nat)) : Nat := (ps.map fun p => p.1.costAt p.2).sum

/-- The nodes of the queue, each given a length, with Kraft sum at most 1. -/
structure Assigns (ps : List (HTree × Nat)) (q : List HTree) : Prop where
  nodes : (ps.map Prod.fst).Perm q
  kraft : kraftSum (ps.map Prod.snd) ≤ 1

@[simp] theorem kraftSum_cons (l : Nat) (ls : List Nat) :
    kraftSum (l :: ls) = (1 / 2) ^ l + kraftSum ls := by simp [kraftSum]

/-- The sum in the terms of Mathlib's inequality. -/
theorem kraftSum_cast (ls : List Nat) :
    (kraftSum ls : ℝ) = (ls.map fun l => (1 / Fintype.card Bool : ℝ) ^ l).sum := by
  induction ls with
  | nil => simp [kraftSum]
  | cons l ls ih => simp [ih]

theorem kraftSum_perm {ls ms : List Nat} (h : ls.Perm ms) : kraftSum ls = kraftSum ms :=
  (h.map _).sum_eq

theorem kraftSum_nonneg (ls : List Nat) : 0 ≤ kraftSum ls := by
  refine List.sum_nonneg fun x hx => ?_
  obtain ⟨l, -, rfl⟩ := List.mem_map.1 hx
  positivity

@[simp] theorem totalCost_cons (p : HTree × Nat) (ps : List (HTree × Nat)) :
    totalCost (p :: ps) = p.1.costAt p.2 + totalCost ps := by simp [totalCost]

theorem totalCost_perm {ps qs : List (HTree × Nat)} (h : ps.Perm qs) :
    totalCost ps = totalCost qs :=
  (h.map _).sum_eq

/-- Lengths of at most m have a Kraft sum that is a multiple of 2^-m. -/
theorem kraftSum_eq_div {ls : List Nat} {m : Nat} (h : ∀ l ∈ ls, l ≤ m) :
    ∃ k : Nat, kraftSum ls = k / 2 ^ m := by
  induction ls with
  | nil => exact ⟨0, by simp [kraftSum]⟩
  | cons l ls ih =>
    obtain ⟨hl, hls⟩ := List.forall_mem_cons.1 h
    obtain ⟨k, hk⟩ := ih hls
    refine ⟨2 ^ (m - l) + k, ?_⟩
    have hpow : (2 : ℚ) ^ m = 2 ^ (m - l) * 2 ^ l := by rw [← pow_add, Nat.sub_add_cancel hl]
    rw [kraftSum_cons, hk, hpow, one_div, inv_pow]
    push_cast
    field_simp

/-- Below 1, a Kraft sum of lengths of at most m leaves room for one more length m. -/
theorem kraftSum_cons_le {ls : List Nat} {m : Nat} (h : ∀ l ∈ ls, l ≤ m) (hlt : kraftSum ls < 1) :
    kraftSum (m :: ls) ≤ 1 := by
  obtain ⟨k, hk⟩ := kraftSum_eq_div h
  have hpos : (0 : ℚ) < 2 ^ m := by positivity
  rw [hk, div_lt_one hpos] at hlt
  have hle : (k : ℚ) + 1 ≤ 2 ^ m := by exact_mod_cast hlt
  rw [kraftSum_cons, hk, one_div, inv_pow, ← one_div, ← add_div, div_le_one hpos]
  linarith

/-! ### The exchange -/

/-- A node no heavier than the others takes the greatest of the lengths, at no cost: it passes the
others one by one and exchanges its length for each greater one. -/
theorem exists_greatest_first (l : Nat) (h : ∀ p ∈ ps, a.weight ≤ p.1.weight) :
    ∃ m qs, qs.map Prod.fst = ps.map Prod.fst ∧
      (m :: qs.map Prod.snd).Perm (l :: ps.map Prod.snd) ∧ (∀ k ∈ qs.map Prod.snd, k ≤ m) ∧
      totalCost ((a, m) :: qs) ≤ totalCost ((a, l) :: ps) := by
  induction ps with
  | nil => exact ⟨l, [], rfl, List.Perm.refl _, by simp, le_rfl⟩
  | cons p ps ih =>
    obtain ⟨c, k⟩ := p
    obtain ⟨hc, hps⟩ := List.forall_mem_cons.1 h
    obtain ⟨m, qs, hnodes, hperm, hmax, hcost⟩ := ih hps
    simp only [totalCost_cons] at hcost
    have hswap : (m :: k :: qs.map Prod.snd).Perm (l :: k :: ps.map Prod.snd) :=
      (List.Perm.swap ..).trans ((hperm.cons k).trans (List.Perm.swap ..))
    rcases le_total k m with hk | hk
    · refine ⟨m, (c, k) :: qs, by simp [hnodes], hswap, List.forall_mem_cons.2 ⟨hk, hmax⟩, ?_⟩
      simp only [totalCost_cons]
      omega
    · refine ⟨k, (c, m) :: qs, by simp [hnodes], (List.Perm.swap ..).trans hswap,
        List.forall_mem_cons.2 ⟨hk, fun n hn => (hmax n hn).trans hk⟩, ?_⟩
      have hexchange := HTree.costAt_exchange hc hk
      simp only [totalCost_cons] at hexchange ⊢
      omega

/-- A node of the queue taken out, with its length. -/
theorem exists_perm_cons_of_map_fst (h : (ps.map Prod.fst).Perm (a :: q)) :
    ∃ l qs, ps.Perm ((a, l) :: qs) ∧ (qs.map Prod.fst).Perm q := by
  obtain ⟨⟨c, l⟩, hp, rfl⟩ := List.mem_map.1 (h.symm.subset List.mem_cons_self)
  have hperm := List.perm_cons_erase hp
  exact ⟨l, _, hperm, ((hperm.map Prod.fst).symm.trans h).cons_inv⟩

/-- The first two nodes of the queue take the greatest lengths, at no cost. -/
theorem exists_greatest_first_two (hq : FirstTwo q a b rest) (h : Assigns ps q) :
    ∃ m n qs, (qs.map Prod.fst).Perm rest ∧ n ≤ m ∧ (∀ k ∈ qs.map Prod.snd, k ≤ n) ∧
      kraftSum (m :: n :: qs.map Prod.snd) ≤ 1 ∧
      totalCost ((a, m) :: (b, n) :: qs) ≤ totalCost ps := by
  obtain ⟨la, pa, hpa, hpanodes⟩ := exists_perm_cons_of_map_fst (h.nodes.trans hq.perm)
  obtain ⟨m, qa, hqanodes, hqaperm, hqamax, hqacost⟩ := exists_greatest_first (a := a) (ps := pa) la
    fun p hp => weight_le_of_not_comesBefore
      (hq.first _ (hpanodes.subset (List.mem_map_of_mem hp)))
  obtain ⟨lb, pb, hpb, hpbnodes⟩ := exists_perm_cons_of_map_fst (hqanodes ▸ hpanodes)
  obtain ⟨n, qb, hqbnodes, hqbperm, hqbmax, hqbcost⟩ := exists_greatest_first (a := b) (ps := pb) lb
    fun p hp => weight_le_of_not_comesBefore
      (hq.second _ (hpbnodes.subset (List.mem_map_of_mem hp)))
  have hlengths : (qa.map Prod.snd).Perm (n :: qb.map Prod.snd) :=
    (hpb.map Prod.snd).trans hqbperm.symm
  refine ⟨m, n, qb, hqbnodes ▸ hpbnodes, hqamax n (hlengths.symm.subset List.mem_cons_self), hqbmax,
    ?_, ?_⟩
  · have hperm : (m :: n :: qb.map Prod.snd).Perm (ps.map Prod.snd) :=
      (hlengths.symm.cons m).trans (hqaperm.trans (hpa.map Prod.snd).symm)
    exact kraftSum_perm hperm ▸ h.kraft
  · calc totalCost ((a, m) :: (b, n) :: qb)
      _ ≤ totalCost ((a, m) :: (b, lb) :: pb) := by
        rw [totalCost_cons, totalCost_cons (a, m)]
        exact Nat.add_le_add_left hqbcost _
      _ = totalCost ((a, m) :: qa) := totalCost_perm (hpb.symm.cons _)
      _ ≤ totalCost ((a, la) :: pa) := hqacost
      _ = totalCost ps := totalCost_perm hpa.symm

/-- The first two nodes of the queue can both be given one length, of a bit at least, at no cost. -/
theorem exists_equal_first_two (hq : FirstTwo q a b rest) (h : Assigns ps q) :
    ∃ n qs, (qs.map Prod.fst).Perm rest ∧
      kraftSum ((n + 1) :: (n + 1) :: qs.map Prod.snd) ≤ 1 ∧
      totalCost ((a, n + 1) :: (b, n + 1) :: qs) ≤ totalCost ps := by
  obtain ⟨m, n, qs, hnodes, hnm, hmax, hkraft, hcost⟩ := exists_greatest_first_two hq h
  have hroom : kraftSum (n :: qs.map Prod.snd) < 1 := by
    have hpos : (0 : ℚ) < (1 / 2) ^ m := by positivity
    rw [kraftSum_cons] at hkraft
    linarith
  have hequal : kraftSum (n :: n :: qs.map Prod.snd) ≤ 1 :=
    kraftSum_cons_le (List.forall_mem_cons.2 ⟨le_rfl, hmax⟩) hroom
  cases n with
  | zero =>
    have hrest := kraftSum_nonneg (qs.map Prod.snd)
    rw [kraftSum_cons, pow_zero] at hroom
    linarith
  | succ n =>
    refine ⟨n, qs, hnodes, hequal, le_trans ?_ hcost⟩
    have hshorter := a.costAt_mono hnm
    rw [totalCost_cons, totalCost_cons (a, m)]
    exact Nat.add_le_add_right hshorter _

/-! ### The merges -/

/-- The nodes of the queue can be given lengths whose total is at most c. -/
def CanBeAssigned (c : Nat) (q : List HTree) : Prop := ∃ ps, Assigns ps q ∧ totalCost ps ≤ c

/-- The lengths of a queue go over to the queue after a merge, at no cost. -/
theorem CanBeAssigned.mergeOnce {c : Nat} (id : Nat) (h : CanBeAssigned c q) :
    CanBeAssigned c (mergeOnce id q) := by
  obtain ⟨ps, hps, hle⟩ := h
  rcases mergeOnce_cases id q with ⟨-, he⟩ | ⟨a, b, rest, hq, he⟩
  · exact ⟨ps, by rwa [he], hle⟩
  · obtain ⟨n, qs, hnodes, hkraft, hcost⟩ := exists_equal_first_two hq hps
    refine ⟨(.node id (a.weight + b.weight) a b, n) :: qs, ⟨he ▸ hnodes.cons _, ?_⟩, ?_⟩
    · simp only [kraftSum_cons, List.map_cons, pow_succ] at hkraft ⊢
      linarith
    · simp only [totalCost_cons, HTree.costAt_node] at hcost ⊢
      omega

/-- No lengths of the leaves cost less than the tree (R148). -/
theorem costAt_zero_le_totalCost {f : Table Word} (ht : huffmanTree f = some t)
    (h : Assigns ps (leavesOf f)) : t.costAt 0 ≤ totalCost ps := by
  have hroot : CanBeAssigned (totalCost ps) [t] := mergeTimes_eq_of_huffmanTree ht ▸
    mergeTimes_keeps (fun id _ => CanBeAssigned.mergeOnce id) _ 256 ⟨ps, h, le_rfl⟩
  obtain ⟨qs, hqs, hle⟩ := hroot
  obtain ⟨l, rs, hperm, -⟩ := exists_perm_cons_of_map_fst hqs.nodes
  rw [totalCost_perm hperm, totalCost_cons] at hle
  exact (t.costAt_mono (Nat.zero_le l)).trans ((Nat.le_add_right _ _).trans hle)

end Sys2Proof.Machine
end

section
/-! The codes that BUILD's lengths are compared with (40_tree_builder.md R148): their lengths have
Kraft sum at most 1, so they are lengths of the leaves BUILD starts from. -/

namespace Sys2Proof.Machine

open Safety

variable {f : Table Word} {code : Symbol → List Bool}

/-! ### Codes of which none begins another -/

/-- Words of which none is empty or begins another can be told apart in any sequence. -/
theorem uniquelyDecodable_of_prefixFree {S : Set (List Bool)} (hne : [] ∉ S)
    (hfree : ∀ v ∈ S, ∀ w ∈ S, v <+: w → v = w) : InformationTheory.UniquelyDecodable S := by
  intro vs ws hvs hws h
  induction vs generalizing ws with
  | nil =>
    cases ws with
    | nil => rfl
    | cons w ws =>
      obtain ⟨rfl, -⟩ := List.append_eq_nil_iff.1 h.symm
      exact absurd (hws _ List.mem_cons_self) hne
  | cons v vs ih =>
    cases ws with
    | nil =>
      obtain ⟨rfl, -⟩ := List.append_eq_nil_iff.1 h
      exact absurd (hvs _ List.mem_cons_self) hne
    | cons w ws =>
      obtain ⟨hv, hvs'⟩ := List.forall_mem_cons.1 hvs
      obtain ⟨hw, hws'⟩ := List.forall_mem_cons.1 hws
      rw [List.flatten_cons, List.flatten_cons] at h
      have hvw : v = w := by
        rcases List.prefix_or_prefix_of_prefix (List.prefix_append v vs.flatten)
          (h ▸ List.prefix_append w ws.flatten) with hp | hp
        · exact hfree v hv w hw hp
        · exact (hfree w hw v hv hp).symm
      subst hvw
      rw [ih ws hvs' hws' (List.append_cancel_left h)]

/-- Of the codes of the symbols present, none begins another. -/
def PrefixFreeCode (f : Table Word) (code : Symbol → List Bool) : Prop :=
  ∀ y z, y ≠ z → Table.get f y ≠ 0#32 → Table.get f z ≠ 0#32 → ¬ code y <+: code z

/-- Of two or more symbols present, none is alone. -/
theorem exists_other_symbol (h2 : 2 ≤ (presentSymbols f).length) (y : Symbol) :
    ∃ z ∈ presentSymbols f, z ≠ y := by
  by_contra! hall
  have hle := (nodup_presentSymbols f).length_le_of_subset (l₂ := [y])
    fun z hz => List.mem_singleton.2 (hall z hz)
  simp at hle
  omega

/-- The inequality of Kraft, of the codes of the symbols present. -/
theorem PrefixFreeCode.kraftSum_le (h : PrefixFreeCode f code)
    (h2 : 2 ≤ (presentSymbols f).length) :
    kraftSum ((presentSymbols f).map fun y => (code y).length) ≤ 1 := by
  have hfree {y z : Symbol} (hy : y ∈ presentSymbols f) (hz : z ∈ presentSymbols f)
      (hp : code y <+: code z) : y = z := by
    by_contra hne
    exact h y z hne ((mem_presentSymbols f y).1 hy) ((mem_presentSymbols f z).1 hz) hp
  have hdecodable : InformationTheory.UniquelyDecodable
      (((presentSymbols f).toFinset.image code : Finset (List Bool)) : Set (List Bool)) := by
    apply uniquelyDecodable_of_prefixFree
    · intro hnil
      simp only [Finset.mem_coe, Finset.mem_image, List.mem_toFinset] at hnil
      obtain ⟨y, hy, he⟩ := hnil
      obtain ⟨z, hz, hzy⟩ := exists_other_symbol h2 y
      exact hzy (hfree hy hz (he ▸ List.nil_prefix)).symm
    · simp only [Finset.mem_coe, Finset.mem_image, List.mem_toFinset]
      rintro _ ⟨y, hy, rfl⟩ _ ⟨z, hz, rfl⟩ hp
      rw [hfree hy hz hp]
  have hkraft := InformationTheory.kraft_mcmillan_inequality hdecodable
  rw [Finset.sum_image, List.sum_toFinset _ (nodup_presentSymbols f)] at hkraft
  · have hcast : (kraftSum ((presentSymbols f).map fun y => (code y).length) : ℝ) ≤ 1 := by
      rw [kraftSum_cast, List.map_map]
      exact hkraft
    exact_mod_cast hcast
  · intro y hy z hz he
    exact hfree (by simpa using hy) (by simpa using hz) (he ▸ List.prefix_refl _)

theorem PrefixFreeCode.assigns (h : PrefixFreeCode f code) (h2 : 2 ≤ (presentSymbols f).length) :
    Assigns ((presentSymbols f).map fun y => (.leaf y (Table.get f y).toNat, (code y).length))
      (leavesOf f) where
  nodes := by simp [leavesOf, Function.comp_def]
  kraft := by simpa [Function.comp_def] using h.kraftSum_le h2

/-! ### The weighted length -/

/-- Only the symbols present weigh. -/
theorem weightedLength_eq (f : Table Word) (l : Symbol → Nat) :
    weightedLength f l = ((presentSymbols f).map fun y => (Table.get f y).toNat * l y).sum := by
  have habsent : ∀ x ∈ (allSymbols.filter fun y => ¬ Table.get f y ≠ 0#32).map
      fun y => (Table.get f y).toNat * l y, x = 0 := by
    simp +contextual
  rw [weightedLength, presentSymbols_eq,
    ← List.sum_map_filter_add_sum_map_filter_not fun y => Table.get f y ≠ 0#32,
    List.sum_eq_zero habsent, add_zero]
  simp [bne, beq_eq_decide]

/-- The weighted length of the lengths of BUILD is the cost of the tree. -/
theorem weightedLength_buildLength {t : HTree} (h2 : 2 ≤ (presentSymbols f).length)
    (ht : huffmanTree f = some t) : weightedLength f (buildLength f) = t.costAt 0 := by
  have hdepth : ∀ p ∈ t.leafDepths 0, buildLength f p.1 = p.2 := fun p hp =>
    ((mem_leafDepths_iff h2 ht p.1 p.2).1 hp).2
  rw [weightedLength_eq, ← huffmanTree_costsItsLeaves ht 0,
    ← ((huffmanTree_symbols ht).map _).sum_eq, ← t.leafDepths_symbols 0, List.map_map]
  exact congrArg List.sum (List.map_congr_left fun p hp => by simp [hdepth p hp])

end Sys2Proof.Machine

namespace Sys2Proof

open Machine Safety

/-- Settles O27: the lengths of codes of which none begins another have Kraft sum at most 1, and no
such lengths of the leaves cost less than the tree. -/
theorem buildIsOptimal : Obligations.BuildIsOptimal := by
  intro s t c code hx h2 hcode
  obtain rfl : afterBuild c s = t := Host.Outcome.next.inj ((exec_build c s).symm.trans hx)
  obtain ⟨tree, htree⟩ := exists_huffmanTree h2
  have hcode : PrefixFreeCode (s.freq.get c) code := hcode
  have hle := costAt_zero_le_totalCost htree (hcode.assigns h2)
  rw [funext (afterBuild_lenNat c s), weightedLength_buildLength h2 htree, weightedLength_eq]
  simpa [totalCost, HTree.costAt, HTree.mergeCost, HTree.weight, Function.comp_def] using hle

end Sys2Proof
end

section
/-! ASSIGN (41_canonical.md R162 to R168): the codes in closed form, and Kraft's condition for all of
them to fit. The next code of a length is the number of codes of that length already taken, those that
begin with an earlier code. -/

namespace Sys2Proof.Machine

open Sys2Proof.Safety

/-! ### The codes taken -/

/-- How many codes of length l begin with the code of one of the pairs, none of them longer (R163). -/
def codesTaken (ps : List (Nat × Symbol)) (l : Nat) : Nat := (ps.map fun p => 2 ^ (l - p.1)).sum

variable {ps qs : List (Nat × Symbol)} {prev : Option (Nat × Nat)} {cs : List (Symbol × Nat)}
  {l m : Nat} {y : Symbol}

theorem codesTaken_append (ps qs : List (Nat × Symbol)) (l : Nat) :
    codesTaken (ps ++ qs) l = codesTaken ps l + codesTaken qs l := by simp [codesTaken]

/-- A pair takes one code of its own length. -/
theorem codesTaken_concat (ps : List (Nat × Symbol)) (l : Nat) (y : Symbol) :
    codesTaken (ps ++ [(l, y)]) l = codesTaken ps l + 1 := by simp [codesTaken]

/-- Every code taken extends to 2^(m - l) codes of the greater length m. -/
theorem codesTaken_extend (hps : ∀ p ∈ ps, p.1 ≤ l) (hlm : l ≤ m) :
    codesTaken ps m = codesTaken ps l * 2 ^ (m - l) := by
  rw [codesTaken, codesTaken, ← List.sum_map_mul_right]
  refine congrArg List.sum (List.map_congr_left fun p hp => ?_)
  have hp := hps p hp
  rw [← Nat.pow_add]
  congr 1
  omega

/-- A code is left for one more pair exactly where the codes taken with it, extended to the length m,
are at most all of that length (R163). -/
theorem code_left_iff (hps : ∀ p ∈ ps, p.1 ≤ l) (hlm : l ≤ m) :
    codesTaken ps l < 2 ^ l ↔ codesTaken (ps ++ [(l, y)]) m ≤ 2 ^ m := by
  have hall : ∀ p ∈ ps ++ [(l, y)], p.1 ≤ l := by simpa [or_imp, forall_and] using hps
  have hpow : 2 ^ m = 2 ^ l * 2 ^ (m - l) := by rw [← Nat.pow_add, Nat.add_sub_cancel' hlm]
  rw [codesTaken_extend hall hlm, codesTaken_concat, hpow,
    Nat.mul_le_mul_right_iff (Nat.two_pow_pos _), Nat.succ_le_iff]

/-! ### The codes of the sorted pairs -/

/-- After the pairs ps the recurrence of R162 goes on with the number of codes they take. -/
def CountsTaken (prev : Option (Nat × Nat)) (ps : List (Nat × Symbol)) : Prop :=
  ∀ l, (∀ p ∈ ps, p.1 ≤ l) → nextCode prev l = codesTaken ps l

theorem countsTaken_nil : CountsTaken none [] := fun _ _ => rfl

theorem CountsTaken.concat (h : CountsTaken prev ps) (hps : ∀ p ∈ ps, p.1 ≤ l) (y : Symbol) :
    CountsTaken (some (nextCode prev l, l)) (ps ++ [(l, y)]) := by
  intro k hk
  obtain ⟨-, hlk⟩ : (∀ p ∈ ps, p.1 ≤ k) ∧ l ≤ k := by
    simpa [or_imp, forall_and] using hk
  have hall : ∀ p ∈ ps ++ [(l, y)], p.1 ≤ l := by simpa [or_imp, forall_and] using hps
  rw [codesTaken_extend hall hlk, codesTaken_concat, nextCode, Nat.shiftLeft_eq, h l hps]

theorem length_le_of_sorted (h : (ps ++ (l, y) :: qs).Pairwise pairLe) : ∀ p ∈ ps, p.1 ≤ l :=
  fun p hp => ((List.pairwise_append.1 h).2.2 p hp _ (List.mem_cons_self ..)).elim
    le_of_lt fun he => he.1.le

theorem assignCodes_cons_isSome : (assignCodes prev ((l, y) :: qs)).isSome ↔
    nextCode prev l < 2 ^ l ∧ (assignCodes (some (nextCode prev l, l)) qs).isSome := by
  simp only [Option.isSome_iff_exists, assignCodes_cons_eq_some]
  constructor
  · rintro ⟨_, hfit, ds, hds, -⟩
    exact ⟨hfit, ds, hds⟩
  · rintro ⟨hfit, ds, hds⟩
    exact ⟨_, hfit, ds, hds, rfl⟩

/-- Going on after ps, the pairs qs can be assigned exactly where all of them together take at most
the codes of a length m that none exceeds: Kraft's condition (R163). -/
theorem assignCodes_isSome_iff (h : CountsTaken prev ps) (hsort : (ps ++ qs).Pairwise pairLe)
    (hm : ∀ q ∈ qs, q.1 ≤ m) (hps : codesTaken ps m ≤ 2 ^ m) :
    (assignCodes prev qs).isSome ↔ codesTaken (ps ++ qs) m ≤ 2 ^ m := by
  induction qs generalizing prev ps with
  | nil => simp [assignCodes, hps]
  | cons q qs ih =>
    obtain ⟨l, y⟩ := q
    obtain ⟨hlm, hm⟩ := List.forall_mem_cons.1 hm
    have hle := length_le_of_sorted hsort
    have hnext := h.concat hle y
    rw [h l hle] at hnext
    rw [assignCodes_cons_isSome, h l hle, code_left_iff (y := y) hle hlm]
    rw [List.append_cons ps (l, y) qs] at hsort ⊢
    constructor
    · rintro ⟨hroom, hqs⟩
      exact (ih hnext hsort hm hroom).1 hqs
    · intro hall
      have hroom : codesTaken (ps ++ [(l, y)]) m ≤ 2 ^ m :=
        (codesTaken_append .. ▸ Nat.le_add_right ..).trans hall
      exact ⟨hroom, (ih hnext hsort hm hroom).2 hall⟩

/-- The code given to a pair is the number of codes the pairs before it take, and fits. -/
theorem assignCodes_eq_codesTaken (hcs : assignCodes prev qs = some cs) (h : CountsTaken prev ps)
    (hsort : (ps ++ qs).Pairwise pairLe) {v : Nat} (hv : (y, v) ∈ cs) :
    ∃ l before after, qs = before ++ (l, y) :: after ∧ v = codesTaken (ps ++ before) l ∧
      v < 2 ^ l := by
  induction qs generalizing prev ps cs with
  | nil =>
    obtain rfl : [] = cs := Option.some.inj hcs
    simp at hv
  | cons q qs ih =>
    obtain ⟨l, z⟩ := q
    have hle := length_le_of_sorted hsort
    obtain ⟨hfit, ds, hds, rfl⟩ := assignCodes_cons_eq_some.1 hcs
    rcases List.mem_cons.1 hv with he | hv
    · obtain ⟨rfl, rfl⟩ := Prod.mk.inj he
      exact ⟨l, [], qs, rfl, by simpa using h l hle, hfit⟩
    · obtain ⟨k, before, after, rfl, hval, hlt⟩ :=
        ih hds (h.concat hle z) (List.append_cons .. ▸ hsort) hv
      exact ⟨k, (l, z) :: before, after, rfl, by rw [hval, List.append_cons ps (l, z) before], hlt⟩

/-! ### The sums over all symbols -/

variable {lens : Table (BitVec 8)} {codes : Table Code}

/-- A sum over the sorted pairs is one over the symbols with a length. -/
theorem sum_map_sortedPairs (lens : Table (BitVec 8)) (g : Nat × Symbol → Nat) :
    ((sortedPairs lens).map g).sum =
      (allSymbols.map fun y =>
        if codeLength lens y = 0 then 0 else g (codeLength lens y, y)).sum := by
  rw [sortedPairs, ((List.perm_insertionSort pairLe _).map g).sum_eq, codedPairs_eq, List.filter_map,
    List.map_map, List.sum_map_ite, List.map_const', List.sum_replicate, smul_zero, zero_add]
  exact congrArg (fun ys => (List.map _ ys).sum) (List.filter_congr fun y _ =>
    Bool.eq_iff_iff.2 (bne_iff_ne.trans decide_eq_true_iff.symm))

theorem kraft_eq_codesTaken (lens : Table (BitVec 8)) :
    kraft lens = codesTaken (sortedPairs lens) 255 := by
  rw [codesTaken, sum_map_sortedPairs, kraft]
  rfl

theorem pairLe_antisymm {a b : Nat × Symbol} (hab : pairLe a b) (hba : pairLe b a) : a = b := by
  unfold pairLe at hab hba
  exact Prod.ext (by omega) (BitVec.eq_of_toNat_eq (by omega))

/-- Coming before y is the strict part of the order of the pairs (R161). -/
theorem pairBefore_iff (lens : Table (BitVec 8)) (z y : Symbol) : pairBefore lens z y = true ↔
    ¬ pairLe (codeLength lens y, y) (codeLength lens z, z) := by
  simp only [pairBefore, pairLe, codeLength, Bool.or_eq_true, Bool.and_eq_true, decide_eq_true_eq,
    beq_iff_eq]
  omega

/-- How many codes as long as y's a pair takes where it stands before y, and none elsewhere. -/
def takenBefore (lens : Table (BitVec 8)) (y : Symbol) (p : Nat × Symbol) : Nat :=
  if pairBefore lens p.2 y then 2 ^ (codeLength lens y - p.1) else 0

/-- The codes that the pairs before a symbol's take are its closed-form code (R163). -/
theorem codesTaken_before (h : sortedPairs lens = ps ++ (l, y) :: qs) :
    codesTaken ps l = canonicalSum lens y := by
  have hlen : ∀ p ∈ ps ++ (l, y) :: qs, codeLength lens p.2 = p.1 := fun p hp =>
    ((mem_sortedPairs lens p.1 p.2).1 (h ▸ hp)).2
  obtain ⟨-, hafter, hsort⟩ := List.pairwise_append.1 (h ▸ pairwise_sortedPairs lens)
  obtain ⟨-, -, hne⟩ := List.pairwise_append.1 (h ▸ nodup_sortedPairs lens)
  obtain rfl : codeLength lens y = l := hlen (l, y) (by simp)
  have hbefore : ∀ p ∈ ps, takenBefore lens y p = 2 ^ (codeLength lens y - p.1) := fun p hp => by
    obtain ⟨k, z⟩ := p
    obtain rfl : codeLength lens z = k := hlen (k, z) (by simp [hp])
    refine if_pos ((pairBefore_iff lens z y).2 fun hle => ?_)
    refine hne _ hp _ (List.mem_cons_self ..) (pairLe_antisymm ?_ hle)
    exact hsort _ hp _ (List.mem_cons_self ..)
  have hrest : ∀ p ∈ (codeLength lens y, y) :: qs, takenBefore lens y p = 0 := fun p hp => by
    obtain ⟨k, z⟩ := p
    obtain rfl : codeLength lens z = k := hlen (k, z) (List.mem_append_right _ hp)
    refine if_neg fun hb => (pairBefore_iff lens z y).1 hb ?_
    rcases List.mem_cons.1 hp with he | hp
    · exact .inr ⟨by rw [(Prod.mk.inj he).2], by rw [(Prod.mk.inj he).2]⟩
    · exact (List.pairwise_cons.1 hafter).1 _ hp
  calc codesTaken ps (codeLength lens y)
      = ((sortedPairs lens).map (takenBefore lens y)).sum := by
        rw [h, List.map_append, List.sum_append, List.map_congr_left hbefore, List.sum_eq_zero
          (List.forall_mem_map.2 hrest), codesTaken, add_zero]
    _ = canonicalSum lens y := by
        rw [sum_map_sortedPairs, canonicalSum]
        refine congrArg List.sum (List.map_congr_left fun z _ => ?_)
        unfold takenBefore codeLength
        split <;> simp [*]

/-! ### The table of codes -/

theorem sortedPairs_length_le (lens : Table (BitVec 8)) : ∀ p ∈ sortedPairs lens, p.1 ≤ 255 :=
  fun p hp => ((mem_sortedPairs lens p.1 p.2).1 hp).2 ▸ codeLength_le lens p.2

/-- The codes of a table exist exactly where its Kraft sum is at most 1 (R163). -/
theorem canonicalTable_isSome_iff (lens : Table (BitVec 8)) :
    (canonicalTable lens).isSome ↔ kraft lens ≤ 2 ^ 255 := by
  have h : (canonicalTable lens).isSome ↔ (assignCodes none (sortedPairs lens)).isSome := by
    unfold canonicalTable
    split <;> simp [*]
  rw [h, kraft_eq_codesTaken]
  exact assignCodes_isSome_iff countsTaken_nil (pairwise_sortedPairs lens)
    (sortedPairs_length_le lens) (Nat.zero_le _)

/-- The codes of a table in closed form (R163). -/
theorem canonicalTable_codeValue (h : canonicalTable lens = some codes) (y : Symbol) :
    codeValue codes y = if codeLength lens y = 0 then 0 else canonicalSum lens y := by
  by_cases hy : codeLength lens y = 0
  · rw [if_pos hy, (canonicalTable_codes h).1 y hy]
  unfold canonicalTable at h
  split at h
  · cases h
  · next cs hcs =>
    have hmem : y ∈ cs.map Prod.fst := by
      simpa [assignCodes_symbols hcs, mem_sortedPairs, codeLength] using hy
    obtain ⟨v, hv, hin⟩ := lookup_of_mem_symbols hmem
    obtain ⟨l, before, after, hpairs, rfl, hfit⟩ :=
      assignCodes_eq_codesTaken hcs countsTaken_nil (pairwise_sortedPairs lens) hin
    have hl : l ≤ 255 := sortedPairs_length_le lens (l, y) (by simp [hpairs])
    rw [if_neg hy, codeValue, ← Option.some.inj h, Table.get_ofFn, BitVec.toNat_ofNat, hv,
      Option.getD_some, List.nil_append, ← codesTaken_before hpairs]
    exact Nat.mod_eq_of_lt (hfit.trans_le (Nat.pow_le_pow_right (by omega) hl))

/-! ### The command (R164) -/

/-- What an ASSIGN that gets these codes leaves. -/
def afterAssign (c : Channel) (codes : Table Code) (s : State) : State :=
  { (s.setCodeTable c codes).setCValid c true with busy := false }

variable {s : State} {c : Channel}

theorem exec_assign_of_codes (h : canonicalTable (s.len.get c) = some codes) :
    exec (.assign c) s = .next (afterAssign c codes s) := by
  rw [exec_eq_complete, resultOf, cmdAssign, h]
  rfl

theorem exec_assign_of_none (h : canonicalTable (s.len.get c) = none) :
    exec (.assign c) s = .next (failedState 5#4 s) := by
  rw [exec_eq_complete, resultOf, cmdAssign, h]
  exact complete_err s .oversubscribedLengths

theorem afterAssign_cvalidAt (c d : Channel) (codes : Table Code) (s : State) :
    (afterAssign c codes s).cvalidAt d = if d = c then true else s.cvalidAt d :=
  PerChannel.get_set s.cvalid c d true

theorem afterAssign_codeAt (c : Channel) (codes : Table Code) (s : State) (y : Symbol) :
    (afterAssign c codes s).codeAt c y = Table.get codes y :=
  congrArg (Table.get · y) (PerChannel.get_set_self s.code c codes)

theorem afterAssign_codeAt_ne {d : Channel} (h : d ≠ c) (codes : Table Code) (s : State)
    (y : Symbol) : (afterAssign c codes s).codeAt d y = s.codeAt d y :=
  congrArg (Table.get · y) (PerChannel.get_set_ne s.code codes h)

/-- The same codes given again change nothing (R168). -/
theorem afterAssign_afterAssign (c : Channel) (codes : Table Code) (s : State) :
    afterAssign c codes (afterAssign c codes s) = afterAssign c codes s := by
  cases c <;> rfl

end Sys2Proof.Machine

namespace Sys2Proof

open Machine

/-- Settles O29: the codes exist exactly under Kraft's condition, and each counts the codes of its
length that begin with an earlier one. -/
theorem assignGivesCanonicalCodes : Obligations.AssignGivesCanonicalCodes := by
  intro s c
  constructor
  · intro hkraft
    obtain ⟨codes, hc⟩ := Option.isSome_iff_exists.1 ((canonicalTable_isSome_iff _).2 hkraft)
    refine ⟨afterAssign c codes s, exec_assign_of_codes hc, rfl, by simp [afterAssign_cvalidAt],
      fun d hd => ⟨by simp [afterAssign_cvalidAt, hd], afterAssign_codeAt_ne hd codes s⟩,
      fun y => ?_⟩
    rw [State.codeNat, afterAssign_codeAt]
    exact canonicalTable_codeValue hc y
  · intro hkraft
    have hnone := mt (canonicalTable_isSome_iff (s.len.get c)).1 (not_le.2 hkraft)
    exact exec_assign_of_none (Option.not_isSome_iff_eq_none.1 hnone)

/-- Settles O31: the codes ASSIGN leaves are canonical, and of those none begins another. -/
theorem assignedCodesArePrefixFree : Obligations.AssignedCodesArePrefixFree :=
  fun _ _ _ h0 hx ht => canonical_codes_prefixFree (exec_assign_canonical h0 hx ht)

/-- Settles O32: equal lengths are one table with one table of codes, and the codes written leave the
lengths as they were. -/
theorem assignIsReproducible : Obligations.AssignIsReproducible := by
  intro s1 s2 t1 t2 c hlens h1 h2 hx1 hx2 ht
  obtain ⟨-, hkept, -⟩ := exec_arraysKept hx1 (by simp)
  obtain ⟨codes, hc⟩ : ∃ codes, canonicalTable (s1.len.get c) = some codes :=
    ⟨_, hkept c (by simp) (by simp) ▸ exec_assign_canonical h1 hx1 ht⟩
  obtain rfl := Host.Outcome.next.inj ((exec_assign_of_codes hc).symm.trans hx1)
  have heq : s1.len.get c = s2.len.get c := Table.ext_get hlens
  obtain rfl := Host.Outcome.next.inj ((exec_assign_of_codes (heq ▸ hc)).symm.trans hx2)
  refine ⟨h2, fun y => by rw [afterAssign_codeAt, afterAssign_codeAt], ?_⟩
  have hagain : canonicalTable ((afterAssign c codes s1).len.get c) = some codes := hc
  rw [exec_assign_of_codes hagain, afterAssign_afterAssign]

end Sys2Proof
end

section
/-! The length tables on the streams (42_length_table.md R180 to R184): what WRLT and RDLT leave, and
RDLTs one after another once the input has ended. -/

namespace Sys2Proof.Machine

open Sys2Proof.Safety

variable {s : State} {c : Channel}

/-! ### WRLT (R181) -/

/-- What a WRLT with no partial byte pending leaves. -/
def afterWrlt (c : Channel) (s : State) : State :=
  { s with out := s.out ++ Table.entries (s.len.get c), busy := false }

theorem exec_wrlt_of_aligned (h : s.cnt = 0#3) : exec (.wrlt c) s = .next (afterWrlt c s) := by
  rw [exec_eq_complete, resultOf, cmdWrlt, if_neg (not_not.2 h), emitAll_eq]
  rfl

theorem exec_wrlt_of_misaligned (h : s.cnt ≠ 0#3) :
    exec (.wrlt c) s = .next (failedState 8#4 s) := by
  rw [exec_eq_complete, resultOf, cmdWrlt, if_pos h]
  exact complete_err s .streamNotAligned

/-! ### RDLT (R182) -/

theorem inAvail_lt_iff {n : Nat} (hn : 0 < n) : inAvail s < n ↔ s.inbuf.length < s.inptr + n := by
  unfold inAvail
  omega

/-- The byte read at a delivered position is that byte. -/
theorem inByte_eq {i : Nat} {x : Byte} (h : s.inbuf[i]? = some x) : inByte s i = x := by
  rw [inByte, List.getD_eq_getElem?_getD, h, Option.getD_some]

/-- What an RDLT that finds its table leaves. -/
def afterRdlt (c : Channel) (s : State) : State :=
  { (s.setLenTable c (Table.ofFn fun y => inByte s (s.inptr + y.toNat))).setCValid c false with
    inptr := s.inptr + 256, busy := false }

theorem afterRdlt_cvalidAt (c d : Channel) (s : State) :
    (afterRdlt c s).cvalidAt d = if d = c then false else s.cvalidAt d :=
  PerChannel.get_set s.cvalid c d false

theorem afterRdlt_lenAt (c : Channel) (s : State) (y : Symbol) :
    (afterRdlt c s).lenAt c y = inByte s (s.inptr + y.toNat) := by
  simp [afterRdlt, State.lenAt]

theorem afterRdlt_lenAt_ne {d : Channel} (h : d ≠ c) (s : State) (y : Symbol) :
    (afterRdlt c s).lenAt d y = s.lenAt d y :=
  congrArg (Table.get · y) (PerChannel.get_set_ne s.len _ h)

theorem inAvail_afterRdlt (c : Channel) (h : s.inptr + 256 ≤ s.inbuf.length) :
    inAvail s = inAvail (afterRdlt c s) + 256 := by
  show s.inbuf.length - s.inptr = s.inbuf.length - (s.inptr + 256) + 256
  omega

theorem exec_rdlt_of_misaligned (h : s.inbit ≠ 0#3) :
    exec (.rdlt c) s = .next (failedState 8#4 s) := by
  rw [exec_eq_complete, resultOf, cmdRdlt, if_pos h]
  exact complete_err s .streamNotAligned

theorem exec_rdlt_of_table (hbit : s.inbit = 0#3) (h : s.inptr + 256 ≤ s.inbuf.length) :
    exec (.rdlt c) s = .next (afterRdlt c s) := by
  have hav : ¬ inAvail s < 256 := by rwa [inAvail_lt_iff (by decide), not_lt]
  rw [exec_eq_complete, resultOf, cmdRdlt, if_neg (not_not.2 hbit), if_neg hav]
  rfl

/-- With fewer than 256 bytes unread the answer is that of the short-input rule (R87). -/
theorem exec_rdlt_of_short (hbit : s.inbit = 0#3) (h : s.inbuf.length < s.inptr + 256) :
    exec (.rdlt c) s = complete s (whenInputShort s .truncatedLengthTable) := by
  rw [exec_eq_complete, resultOf, cmdRdlt, if_neg (not_not.2 hbit),
    if_pos ((inAvail_lt_iff (by decide)).2 h)]

theorem exec_rdlt_holds (hbit : s.inbit = 0#3) (h : s.inbuf.length < s.inptr + 256)
    (heos : s.eos = false) : exec (.rdlt c) s = .next s := by
  rw [exec_rdlt_of_short hbit h, whenInputShort, heos]
  exact complete_hold s

theorem exec_rdlt_truncated (hbit : s.inbit = 0#3) (h : s.inbuf.length < s.inptr + 256)
    (heos : s.eos = true) : exec (.rdlt c) s = .next (failedState 2#4 s) := by
  rw [exec_rdlt_of_short hbit h, whenInputShort, heos]
  exact complete_err s .truncatedLengthTable

/-! ### RDLTs one after another (R184) -/

theorem execAll_cons_of_next {i : Instr} {is : List Instr} {t : State} (h : exec i s = .next t) :
    execAll (i :: is) s = execAll is t := by
  rw [execAll, h]

/-- Once a table is short, no later RDLT changes the reader or the error latched. -/
theorem execAll_rdlt_of_latched (cs : List Channel) (hbit : s.inbit = 0#3) (heos : s.eos = true)
    (h : s.inbuf.length < s.inptr + 256) (herr : s.errCode ≠ 0#4) :
    ∃ t, execAll (cs.map .rdlt) s = .next t ∧ t.errCode = s.errCode ∧ t.inptr = s.inptr := by
  induction cs generalizing s with
  | nil => exact ⟨s, rfl, rfl, rfl⟩
  | cons c cs ih =>
    have hfail : failedState 2#4 s = { s with busy := false } := if_neg herr
    rw [List.map_cons, execAll_cons_of_next (exec_rdlt_truncated hbit h heos), hfail]
    exact ih hbit heos h herr

/-- RDLTs on an input that has ended read every table there is, and then latch
TruncatedLengthTable. -/
theorem execAll_rdlt (cs : List Channel) (hbit : s.inbit = 0#3) (heos : s.eos = true)
    (herr : s.errCode = 0#4) (hin : s.inptr ≤ s.inbuf.length) :
    ∃ t, execAll (cs.map .rdlt) s = .next t ∧
      (256 * cs.length ≤ inAvail s → t.errCode = 0#4 ∧ t.inptr = s.inptr + 256 * cs.length) ∧
      (inAvail s < 256 * cs.length →
        t.errCode = 2#4 ∧ t.inptr = s.inptr + 256 * (inAvail s / 256)) := by
  induction cs generalizing s with
  | nil => exact ⟨s, rfl, by simp [herr], by simp⟩
  | cons c cs ih =>
    rw [List.map_cons, List.length_cons]
    by_cases h : s.inptr + 256 ≤ s.inbuf.length
    · rw [execAll_cons_of_next (exec_rdlt_of_table hbit h)]
      obtain ⟨t, hx, hall, hshort⟩ := ih (s := afterRdlt c s) hbit heos herr h
      have hptr : (afterRdlt c s).inptr = s.inptr + 256 := rfl
      have hav := inAvail_afterRdlt c h
      refine ⟨t, hx, fun hle => ?_, fun hlt => ?_⟩
      · obtain ⟨he, hp⟩ := hall (by omega)
        exact ⟨he, by omega⟩
      · obtain ⟨he, hp⟩ := hshort (by omega)
        exact ⟨he, by omega⟩
    · have hlt : s.inbuf.length < s.inptr + 256 := not_le.1 h
      have hav : inAvail s < 256 := (inAvail_lt_iff (by decide)).2 hlt
      rw [execAll_cons_of_next (exec_rdlt_truncated hbit hlt heos)]
      have hfail : failedState 2#4 s = { s with
          errCode := 2#4, errCmd := s.pend, errAddr := 0#16, busy := false } := if_pos herr
      obtain ⟨t, hx, he, hp⟩ :=
        execAll_rdlt_of_latched (s := failedState 2#4 s) cs (hfail ▸ hbit) (hfail ▸ heos)
          (hfail ▸ hlt) (by simp [hfail])
      rw [hfail] at he hp
      exact ⟨t, hx, fun hle => by omega, fun _ => ⟨he, by simp [hp, Nat.div_eq_of_lt hav]⟩⟩

end Sys2Proof.Machine

namespace Sys2Proof

open Machine

/-- Settles O34: an aligned WRLT appends the entries of the table, entry y at position y. -/
theorem wrltEmitsTheTable : Obligations.WrltEmitsTheTable := by
  refine fun s c => ⟨fun h => ⟨afterWrlt c s, exec_wrlt_of_aligned h, rfl, ?_, ?_, fun y => ?_⟩,
    exec_wrlt_of_misaligned⟩
  · simp [afterWrlt]
  · exact List.prefix_append ..
  · rw [afterWrlt, List.getElem?_append_right (Nat.le_add_right ..), Nat.add_sub_cancel_left]
    exact Table.getElem?_entries _ y

/-- Settles O35, by the three tests of R182 in their order: alignment, the bytes there, the end of the
input. -/
theorem rdltReadsTheTable : Obligations.RdltReadsTheTable := by
  refine fun s c => ⟨fun hbit h => ⟨afterRdlt c s, exec_rdlt_of_table hbit h, rfl, fun y => ?_,
    by simp [afterRdlt_cvalidAt], fun d hd => ?_⟩, exec_rdlt_holds, exec_rdlt_truncated,
    exec_rdlt_of_misaligned⟩
  · have hy : s.inptr + y.toNat < s.inbuf.length := by have := y.isLt; omega
    have hx := List.getElem?_eq_getElem hy
    rw [afterRdlt_lenAt, inByte_eq hx, hx]
  · exact ⟨by simp [afterRdlt_cvalidAt, hd], afterRdlt_lenAt_ne hd s⟩

/-- Settles O36: three RDLTs want 768 bytes, and each that finds its 256 moves the reader past
them. -/
theorem threeTablesNeed768Bytes : Obligations.ThreeTablesNeed768Bytes :=
  fun _ hbit heos herr hin => execAll_rdlt [.r, .g, .b] hbit heos herr hin

/-- Settles O37: the bytes WRLT emitted are the entries of the table, and byte y of them is what RDLT
stores at y. -/
theorem lengthTableRoundTrip : Obligations.LengthTableRoundTrip := by
  intro e e' d c bytes rest hcnt hx hout hbit hin
  obtain rfl := Host.Outcome.next.inj ((exec_wrlt_of_aligned hcnt).symm.trans hx)
  obtain rfl : Table.entries (e.len.get c) = bytes := List.append_cancel_left hout
  have hlen : d.inptr + 256 ≤ d.inbuf.length := by
    have hl := congrArg List.length hin
    rw [List.length_drop, List.length_append, Table.length_entries] at hl
    omega
  refine ⟨afterRdlt c d, exec_rdlt_of_table hbit hlen, fun y => ?_, ?_⟩
  · rw [afterRdlt_lenAt]
    apply inByte_eq
    rw [← List.getElem?_drop, hin, List.getElem?_append_left (by simpa using y.isLt)]
    exact Table.getElem?_entries _ y
  · calc d.inbuf.drop (d.inptr + 256) = (d.inbuf.drop d.inptr).drop 256 := by rw [List.drop_drop]
      _ = rest := by rw [hin]; exact List.drop_left' (Table.length_entries _)

end Sys2Proof
end

section
/-! The packer's commands (43_bit_packer.md R201 to R209): ENCSYM and ENCPX append the codes of their
symbols to the packed bits, FLUSH the padding of the last byte. -/

namespace Sys2Proof.Machine

open Sys2Proof.Safety

variable {s t u : State} {c : Channel} {y pr pg pb : Symbol} {bits more : List Bool}

/-! ### Bits packed -/

theorem length_packedBits (s : State) :
    (packedBits s).length = 8 * s.out.length + s.cnt.toNat := by simp [packedBits]

/-- With no partial byte pending, the packed bits are those of OUT. -/
theorem packedBits_of_aligned (h : s.cnt = 0#3) : packedBits s = bitsOf s.out := by
  simp [packedBits, h]

/-- From s to t these bits were packed, and nothing but the packer and BUSY has changed. -/
structure Packed (s : State) (bits : List Bool) (t : State) : Prop where
  frame : t = { s with acc := t.acc, cnt := t.cnt, out := t.out, busy := t.busy }
  out_prefix : s.out <+: t.out
  packedBits_eq : packedBits t = packedBits s ++ bits

namespace Packed

theorem refl (s : State) : Packed s [] s := ⟨rfl, List.prefix_refl _, (List.append_nil _).symm⟩

theorem trans (h1 : Packed s bits t) (h2 : Packed t more u) : Packed s (bits ++ more) u := by
  obtain ⟨e1, o1, b1⟩ := h1
  obtain ⟨e2, o2, b2⟩ := h2
  rw [e1] at e2
  exact ⟨e2, o1.trans o2, by rw [b2, b1, List.append_assoc]⟩

/-- OUT and CNT together count the bits packed (R201). -/
theorem count (h : Packed s bits t) :
    8 * t.out.length + t.cnt.toNat = 8 * s.out.length + s.cnt.toNat + bits.length := by
  rw [← length_packedBits, ← length_packedBits, h.packedBits_eq, List.length_append]

theorem errCode (h : Packed s bits t) : t.errCode = s.errCode := by rw [h.frame]

theorem cvalidAt (h : Packed s bits t) (c : Channel) : t.cvalidAt c = s.cvalidAt c := by
  rw [h.frame]; rfl

theorem lenNat (h : Packed s bits t) (c : Channel) (y : Symbol) : t.lenNat c y = s.lenNat c y := by
  rw [h.frame]; rfl

theorem codeString (h : Packed s bits t) (c : Channel) (y : Symbol) :
    codeString t c y = codeString s c y := by
  rw [h.frame]; rfl

end Packed

/-! ### What a command that completes, and one that fails, leaves -/

/-- The state with BUSY cleared, as a command that completes leaves it (30_encoding.md R121). -/
def idle (s : State) : State := { s with busy := false }

theorem idle_idle (s : State) : idle (idle s) = idle s := rfl

theorem putBit_idle (b : Bool) (s : State) : putBit b (idle s) = idle (putBit b s) := by
  by_cases h : s.cnt = 7#3 <;> simp [putBit, idle, emit, h]

theorem putCode_idle (v : Code) (l : Nat) (s : State) :
    putCode v l (idle s) = idle (putCode v l s) := by
  induction l generalizing s with
  | zero => rfl
  | succ l ih => rw [putCode, putBit_idle, ih]; rfl

theorem putSymbol_idle (c : Channel) (y : Symbol) (s : State) :
    putSymbol c y (idle s) = idle (putSymbol c y s) :=
  putCode_idle _ _ s

/-- A command that fails leaves an error latched, an earlier one or its own (60_exceptions.md
R284). -/
theorem errCode_ne_zero_of_failed {i : Instr} {code : BitVec 4} (hcode : code ≠ 0#4)
    (hfail : exec i s = .next (failedState code s)) (hx : exec i s = .next t) :
    t.errCode ≠ 0#4 := by
  cases hfail.symm.trans hx
  unfold failedState
  split <;> assumption

/-! ### ENCSYM (R205) -/

theorem hasCode_iff : hasCode s c y = true ↔ s.lenNat c y ≠ 0 := by
  simp [hasCode, State.lenNat, BitVec.toNat_eq]

/-- What an ENCSYM that packs its code leaves. -/
def afterEncsym (c : Channel) (y : Symbol) (s : State) : State := idle (putSymbol c y s)

theorem afterEncsym_packed (c : Channel) (y : Symbol) (s : State) :
    Packed s (codeString s c y) (afterEncsym c y s) := by
  obtain ⟨e, o, -⟩ := putSymbol_packerMoved c y s
  exact ⟨congrArg idle e, o, packedBits_putCode _ _ s⟩

theorem exec_encsym_of_code (hv : s.cvalidAt c = true) (hl : s.lenNat c y ≠ 0) :
    exec (.encsym c y) s = .next (afterEncsym c y s) := by
  rw [exec_eq_complete, resultOf, cmdEncsym, hv, hasCode_iff.2 hl]
  rfl

theorem exec_encsym_not_ready (hv : s.cvalidAt c = false) :
    exec (.encsym c y) s = .next (failedState 7#4 s) := by
  rw [exec_eq_complete, resultOf, cmdEncsym, hv]
  exact complete_err s .codesNotReady

theorem exec_encsym_absent (hv : s.cvalidAt c = true) (hl : s.lenNat c y = 0) :
    exec (.encsym c y) s = .next (failedState 6#4 s) := by
  rw [exec_eq_complete, resultOf, cmdEncsym, hv,
    eq_false_of_ne_true (mt hasCode_iff.1 (not_not.2 hl))]
  exact complete_err s .symbolAbsent

/-- An ENCSYM that leaves no error latched has packed its code. -/
theorem exec_encsym_ok (hx : exec (.encsym c y) s = .next t) (ht : t.errCode = 0#4) :
    t = afterEncsym c y s := by
  by_cases hv : s.cvalidAt c = true
  · by_cases hl : s.lenNat c y = 0
    · exact absurd ht (errCode_ne_zero_of_failed (by decide) (exec_encsym_absent hv hl) hx)
    · cases (exec_encsym_of_code hv hl).symm.trans hx
      rfl
  · have hfail := exec_encsym_not_ready (y := y) (eq_false_of_ne_true hv)
    exact absurd ht (errCode_ne_zero_of_failed (by decide) hfail hx)

/-! ### ENCPX (R207) -/

theorem allCodesReady_iff : allCodesReady s = true ↔ ∀ c, s.cvalidAt c = true := by
  simp only [allCodesReady, allChannels, List.all_cons, List.all_nil, Bool.and_true, Bool.and_eq_true]
  exact ⟨fun ⟨hr, hg, hb⟩ c => by cases c <;> assumption, fun h => ⟨h .r, h .g, h .b⟩⟩

/-- The three symbols of the pixel have codes. -/
def HasPixelCodes (s : State) (pr pg pb : Symbol) : Prop :=
  s.lenNat .r pr ≠ 0 ∧ s.lenNat .g pg ≠ 0 ∧ s.lenNat .b pb ≠ 0

theorem hasCode_pixel_iff : (hasCode s .r pr && hasCode s .g pg && hasCode s .b pb) = true ↔
    HasPixelCodes s pr pg pb := by
  simp only [Bool.and_eq_true, hasCode_iff, HasPixelCodes, and_assoc]

/-- What an ENCPX that packs its codes leaves: what the three ENCSYM leave (R208). -/
def afterEncpx (pr pg pb : Symbol) (s : State) : State :=
  afterEncsym .b pb (afterEncsym .g pg (afterEncsym .r pr s))

theorem afterEncpx_packed (pr pg pb : Symbol) (s : State) :
    Packed s (codeString s .r pr ++ codeString s .g pg ++ codeString s .b pb)
      (afterEncpx pr pg pb s) := by
  have hr := afterEncsym_packed .r pr s
  have hg := hr.trans (afterEncsym_packed .g pg _)
  have hb := hg.trans (afterEncsym_packed .b pb _)
  rwa [hg.codeString, hr.codeString] at hb

theorem exec_encpx_of_codes (hv : ∀ c, s.cvalidAt c = true) (hl : HasPixelCodes s pr pg pb) :
    exec (.encpx pr pg pb) s = .next (afterEncpx pr pg pb s) := by
  rw [exec_eq_complete, resultOf, cmdEncpx, allCodesReady_iff.2 hv, hasCode_pixel_iff.2 hl]
  simp only [afterEncpx, afterEncsym, putSymbol_idle, idle_idle]
  exact complete_ok s _

theorem exec_encpx_not_ready (hv : ¬ ∀ c, s.cvalidAt c = true) :
    exec (.encpx pr pg pb) s = .next (failedState 7#4 s) := by
  rw [exec_eq_complete, resultOf, cmdEncpx, eq_false_of_ne_true (mt allCodesReady_iff.1 hv)]
  exact complete_err s .codesNotReady

theorem exec_encpx_absent (hv : ∀ c, s.cvalidAt c = true) (hl : ¬ HasPixelCodes s pr pg pb) :
    exec (.encpx pr pg pb) s = .next (failedState 6#4 s) := by
  rw [exec_eq_complete, resultOf, cmdEncpx, allCodesReady_iff.2 hv,
    eq_false_of_ne_true (mt hasCode_pixel_iff.1 hl)]
  exact complete_err s .symbolAbsent

/-- An ENCPX that leaves no error latched has found its three codes and packed them. -/
theorem exec_encpx_ok (hx : exec (.encpx pr pg pb) s = .next t) (ht : t.errCode = 0#4) :
    (∀ c, s.cvalidAt c = true) ∧ HasPixelCodes s pr pg pb ∧ t = afterEncpx pr pg pb s := by
  by_cases hv : ∀ c, s.cvalidAt c = true
  · by_cases hl : HasPixelCodes s pr pg pb
    · cases (exec_encpx_of_codes hv hl).symm.trans hx
      exact ⟨hv, hl, rfl⟩
    · exact absurd ht (errCode_ne_zero_of_failed (by decide) (exec_encpx_absent hv hl) hx)
  · exact absurd ht (errCode_ne_zero_of_failed (by decide) (exec_encpx_not_ready hv) hx)

/-! ### FLUSH (R203) -/

/-- A shift to the left puts zeros after a bit string. -/
theorem lowBits_shiftLeft (v l n : Nat) :
    lowBits (v <<< n) (l + n) = lowBits v l ++ List.replicate n false := by
  induction n with
  | zero => simp
  | succ n ih =>
    have hbit := lowBits_append_bit (v <<< n) (l + n) false
    rw [Bool.toNat_false, Nat.add_zero] at hbit
    rw [Nat.shiftLeft_succ, ← Nat.add_assoc, hbit, ih, List.append_assoc, List.replicate_succ']

/-- The low bits of a byte, left-aligned in it and filled up with zeros. -/
theorem byteBits_shiftLeft (x : Byte) {k : Nat} (hk : k ≤ 8) :
    byteBits (x <<< (8 - k)) = lowBits x.toNat k ++ List.replicate (8 - k) false := by
  have hshift := lowBits_shiftLeft x.toNat k (8 - k)
  rw [Nat.add_sub_cancel' hk] at hshift
  rw [byteBits_eq, BitVec.toNat_shiftLeft, lowBits_mod _ _ le_rfl, hshift]

/-- What a FLUSH with a partial byte pending leaves. -/
def afterFlush (s : State) : State :=
  { s with acc := 0#8, cnt := 0#3, out := s.out ++ [s.acc <<< (8 - s.cnt.toNat)], busy := false }

theorem afterFlush_packed (s : State) :
    Packed s (List.replicate (8 - s.cnt.toNat) false) (afterFlush s) := by
  refine ⟨rfl, List.prefix_append .., ?_⟩
  rw [packedBits_of_aligned rfl, packedBits, afterFlush, bitsOf_append, bitsOf_cons, bitsOf_nil,
    byteBits_shiftLeft _ s.cnt.isLt.le, List.append_nil, List.append_assoc]

theorem exec_flush_of_aligned (h : s.cnt = 0#3) : exec .flush s = .next (idle s) := by
  rw [exec_eq_complete, resultOf, cmdFlush, if_pos h]
  rfl

theorem exec_flush_of_partial (h : s.cnt ≠ 0#3) : exec .flush s = .next (afterFlush s) := by
  rw [exec_eq_complete, resultOf, cmdFlush, if_neg h]
  rfl

/-- A FLUSH packs the zeros that are missing from a whole byte, and no byte of zeros. -/
theorem exec_flush_packed (hx : exec .flush s = .next t) :
    t.cnt = 0#3 ∧ ∃ n < 8, Packed s (List.replicate n false) t := by
  by_cases h : s.cnt = 0#3
  · cases (exec_flush_of_aligned h).symm.trans hx
    exact ⟨h, 0, by decide, rfl, List.prefix_refl _, (List.append_nil _).symm⟩
  · cases (exec_flush_of_partial h).symm.trans hx
    have hpos : s.cnt.toNat ≠ 0 := fun h0 => h (BitVec.eq_of_toNat_eq h0)
    exact ⟨rfl, 8 - s.cnt.toNat, by omega, afterFlush_packed s⟩

/-! ### Commands one after another (R209) -/

/-- The codes a command asks the packer for. -/
def codesOf (s : State) : Instr → List Bool
  | .encsym c y => codeString s c y
  | .encpx pr pg pb => codeString s .r pr ++ codeString s .g pg ++ codeString s .b pb
  | _ => []

theorem Packed.codesOf (h : Packed s bits t) : codesOf t = codesOf s := by
  funext i
  cases i <;> simp only [Machine.codesOf, h.codeString]

/-- ENCSYM or ENCPX. -/
def IsEncode (i : Instr) : Prop := (∃ c y, i = .encsym c y) ∨ ∃ pr pg pb, i = .encpx pr pg pb

theorem exec_encode_packed {i : Instr} (hi : IsEncode i) (hx : exec i s = .next t)
    (ht : t.errCode = 0#4) : Packed s (codesOf s i) t := by
  rcases hi with ⟨c, y, rfl⟩ | ⟨pr, pg, pb, rfl⟩
  · exact exec_encsym_ok hx ht ▸ afterEncsym_packed c y s
  · obtain ⟨-, -, rfl⟩ := exec_encpx_ok hx ht
    exact afterEncpx_packed pr pg pb s

/-- Commands that leave no error latched latched none on the way, and packed all their codes. -/
theorem execAll_encode_packed {is : List Instr} (hi : ∀ i ∈ is, IsEncode i)
    (hx : execAll is s = .next t) (ht : t.errCode = 0#4) : Packed s (is.flatMap (codesOf s)) t := by
  induction is generalizing s with
  | nil =>
    cases hx
    exact .refl _
  | cons i is ih =>
    obtain ⟨hhead, htail⟩ := List.forall_mem_cons.1 hi
    obtain ⟨v, hv⟩ := exec_next i s
    rw [execAll_cons_of_next hv] at hx
    have hrest := ih htail hx
    have hfirst := exec_encode_packed hhead hv (hrest.errCode ▸ ht)
    exact List.flatMap_cons ▸ hfirst.trans (hfirst.codesOf ▸ hrest)

end Sys2Proof.Machine

namespace Sys2Proof

open Machine Safety

/-- Settles O38, by the two tests of R205; OUT and CNT follow from the number of bits packed. -/
theorem encsymPacksTheCode : Obligations.EncsymPacksTheCode := by
  refine fun s c y => ⟨fun hv hl => ?_, exec_encsym_not_ready, exec_encsym_absent⟩
  have hp := afterEncsym_packed c y s
  have hcount := hp.count
  have hcnt := (afterEncsym c y s).cnt.isLt
  rw [codeString, length_lowBits] at hcount
  exact ⟨_, exec_encsym_of_code hv hl, hp.frame, hp.packedBits_eq, hp.out_prefix, by omega,
    by omega⟩

/-- Settles O39, by the two tests of R207, each of all three channels. -/
theorem encpxPacksThePixel : Obligations.EncpxPacksThePixel := by
  refine fun s pr pg pb => ⟨fun hv hr hg hb => ?_, fun ⟨c, hc⟩ => ?_, fun hv hl => ?_⟩
  · have hp := afterEncpx_packed pr pg pb s
    refine ⟨_, exec_encpx_of_codes hv ⟨hr, hg, hb⟩, hp.frame, hp.out_prefix, ?_⟩
    simpa only [List.append_assoc] using hp.packedBits_eq
  · exact exec_encpx_not_ready fun hv => absurd (hv c) (by simp [hc])
  · refine exec_encpx_absent hv fun ⟨hr, hg, hb⟩ => ?_
    rcases hl with h | h | h
    exacts [hr h, hg h, hb h]

/-- Settles O40: packing changes no length, no code and no CVALID, so each ENCSYM finds its code. -/
theorem encpxIsThreeEncsym : Obligations.EncpxIsThreeEncsym := by
  intro s t pr pg pb _ hx ht
  obtain ⟨hv, ⟨hr, hg, hb⟩, rfl⟩ := exec_encpx_ok hx ht
  have hr' := afterEncsym_packed .r pr s
  have hg' := hr'.trans (afterEncsym_packed .g pg _)
  rw [execAll_cons_of_next (exec_encsym_of_code (hv .r) hr),
    execAll_cons_of_next (exec_encsym_of_code (hr'.cvalidAt .g ▸ hv .g) (hr'.lenNat .g pg ▸ hg)),
    execAll_cons_of_next (exec_encsym_of_code (hg'.cvalidAt .b ▸ hv .b) (hg'.lenNat .b pb ▸ hb))]
  rfl

/-- Settles O41: the byte emitted is the partial byte, left-aligned; after it CNT is 0. -/
theorem flushPadsWithZeros : Obligations.FlushPadsWithZeros := by
  refine fun s => ⟨exec_flush_of_aligned, fun h => ⟨afterFlush s, exec_flush_of_partial h, rfl,
    ?_, ?_, exec_flush_of_aligned rfl⟩⟩
  · simp [afterFlush]
  · rw [← packedBits_of_aligned (s := afterFlush s) rfl, (afterFlush_packed s).packedBits_eq]

/-- Settles O42: from one whole byte to another the codes and fewer than 8 zeros were packed. -/
theorem packedOutputLength : Obligations.PackedOutputLength := by
  intro s t u is hi hcnt _ hx ht hflush codes
  obtain ⟨hzero, n, hn, hpad⟩ := exec_flush_packed hflush
  have hp : Packed s (codes ++ List.replicate n false) u :=
    (execAll_encode_packed hi hx ht).trans hpad
  obtain ⟨bytes, hout⟩ := hp.out_prefix
  have hbits : bitsOf bytes = codes ++ List.replicate n false := by
    have h := hp.packedBits_eq
    rw [packedBits_of_aligned hzero, packedBits_of_aligned hcnt, ← hout, bitsOf_append] at h
    exact List.append_cancel_left h
  have hlen := congrArg List.length hbits
  rw [length_bitsOf, List.length_append, List.length_replicate] at hlen
  refine ⟨bytes, hout.symm, by omega, ?_⟩
  rw [hbits, show n = 8 * ((codes.length + 7) / 8) - codes.length by omega]

end Sys2Proof
end

section
/-! BUILD's lengths meet Kraft's condition (60_exceptions.md R301), so ASSIGN finds a code for every
symbol that occurs, and ENCSYM packs it (43_bit_packer.md R206). -/

namespace Sys2Proof.Machine

open Sys2Proof.Safety

variable {f : Table Word} {t : HTree} {y : Symbol}

/-! ### The leaves of a tree -/

namespace HTree

theorem depth_le_of_mem_leafDepths {t : HTree} {d e : Nat} (h : (y, e) ∈ t.leafDepths d) :
    d ≤ e := by
  induction t generalizing d with
  | leaf z w =>
    simp only [leafDepths, List.mem_singleton, Prod.mk.injEq] at h
    exact h.2.ge
  | node id w l r ihl ihr =>
    rcases List.mem_append.1 h with h | h
    · exact (Nat.le_succ d).trans (ihl h)
    · exact (Nat.le_succ d).trans (ihr h)

/-- Of two or more leaves none is the root. -/
theorem leafDepth_pos {t : HTree} {e : Nat} (h2 : 2 ≤ t.symbols.length)
    (h : (y, e) ∈ t.leafDepths 0) : 0 < e := by
  cases t with
  | leaf z w => simp [symbols] at h2
  | node id w l r =>
    rcases List.mem_append.1 h with h | h <;> exact depth_le_of_mem_leafDepths h

/-- Of the bit strings of length m that begin with a node's own, each leaf below it takes those that
begin with the leaf's; together the leaves take them all. -/
theorem sum_leafDepths {t : HTree} {d m : Nat} (h : d + t.symbols.length ≤ m + 1) :
    ((t.leafDepths d).map fun p => 2 ^ (m - p.2)).sum = 2 ^ (m - d) := by
  induction t generalizing d with
  | leaf z w => simp [leafDepths]
  | node id w l r ihl ihr =>
    have hl := l.symbols_length_pos
    have hr := r.symbols_length_pos
    rw [symbols, List.length_append] at h
    rw [leafDepths, List.map_append, List.sum_append, ihl (by omega), ihr (by omega), ← Nat.two_mul,
      ← Nat.pow_succ']
    congr 1
    omega

end HTree

/-! ### The Kraft sum of BUILD's lengths (R301) -/

/-- Every symbol that occurs has a length (R144). -/
theorem buildLength_pos (h : Table.get f y ≠ 0#32) : 0 < buildLength f y := by
  have hm := (mem_presentSymbols f y).2 h
  match hp : presentSymbols f with
  | [] => simp [hp] at hm
  | [z] =>
    obtain rfl : y = z := by simpa [hp] using hm
    simp [buildLength_single hp]
  | _ :: _ :: _ =>
    have h2 : 2 ≤ (presentSymbols f).length := by simp [hp]
    obtain ⟨t, ht⟩ := exists_huffmanTree h2
    exact HTree.leafDepth_pos ((huffmanTree_symbols ht).length_eq ▸ h2)
      ((mem_leafDepths_iff h2 ht y _).2 ⟨h, rfl⟩)

theorem buildLength_eq_zero_iff : buildLength f y = 0 ↔ Table.get f y = 0#32 :=
  ⟨fun h => not_not.1 fun hy => (buildLength_pos hy).ne' h, buildLength_absent⟩

/-- Only the symbols present take codes. -/
theorem kraft_buildTable (f : Table Word) :
    kraft (buildTable f) = ((presentSymbols f).map fun y => 2 ^ (255 - buildLength f y)).sum := by
  simp only [kraft, buildTable_toNat, buildLength_eq_zero_iff]
  rw [List.sum_map_ite, List.map_const', List.sum_replicate, smul_zero, zero_add, presentSymbols_eq]
  simp [bne, beq_eq_decide]

/-- The leaves of the tree take all the codes there are (R301). -/
theorem kraft_buildTable_of_two (h2 : 2 ≤ (presentSymbols f).length) :
    kraft (buildTable f) = 2 ^ 255 := by
  obtain ⟨t, ht⟩ := exists_huffmanTree h2
  have hdepth : ∀ p ∈ t.leafDepths 0, buildLength f p.1 = p.2 := fun p hp =>
    ((mem_leafDepths_iff h2 ht p.1 p.2).1 hp).2
  have hsize : 0 + t.symbols.length ≤ 255 + 1 := by
    rw [(huffmanTree_symbols ht).length_eq, Nat.zero_add]
    exact length_presentSymbols_le f
  calc kraft (buildTable f)
      = (t.symbols.map fun y => 2 ^ (255 - buildLength f y)).sum := by
        rw [kraft_buildTable, ((huffmanTree_symbols ht).map _).sum_eq]
    _ = ((t.leafDepths 0).map fun p => 2 ^ (255 - p.2)).sum := by
        rw [← t.leafDepths_symbols 0, List.map_map]
        exact congrArg List.sum (List.map_congr_left fun p hp => by simp [hdepth p hp])
    _ = 2 ^ 255 := HTree.sum_leafDepths hsize

theorem kraft_buildTable_le (f : Table Word) : kraft (buildTable f) ≤ 2 ^ 255 := by
  match hp : presentSymbols f with
  | [] => simp [kraft_buildTable, hp]
  | [z] => simp [kraft_buildTable, hp, buildLength_single hp]
  | _ :: _ :: _ => exact (kraft_buildTable_of_two (by simp [hp])).le

/-! ### BUILD, then ASSIGN (R206) -/

/-- ASSIGN finds room for the lengths BUILD wrote, and keeps them. -/
theorem execAll_build_assign (c : Channel) (s : State) :
    ∃ t, execAll [.build c, .assign c] s = .next t ∧ t.errCode = s.errCode ∧
      t.cvalidAt c = true ∧ ∀ y, t.lenNat c y = buildLength (s.freq.get c) y := by
  have htable : (afterBuild c s).len.get c = buildTable (s.freq.get c) :=
    PerChannel.get_set_self ..
  obtain ⟨codes, hcodes⟩ := Option.isSome_iff_exists.1
    ((canonicalTable_isSome_iff _).2 (kraft_buildTable_le (s.freq.get c)))
  have hassign := exec_assign_of_codes (htable ▸ hcodes)
  refine ⟨afterAssign c codes (afterBuild c s), ?_, rfl, by simp [afterAssign_cvalidAt],
    afterBuild_lenNat c s⟩
  rw [execAll_cons_of_next (exec_build c s), execAll_cons_of_next hassign, execAll]

end Sys2Proof.Machine

namespace Sys2Proof

open Machine Safety

/-- Settles O33: the lengths of BUILD leave ASSIGN room for a code of each symbol that occurs. -/
theorem encodingHasNoInputDependentFailure : Obligations.EncodingHasNoInputDependentFailure := by
  intro s c y h0 hy
  obtain ⟨t, hx, herr, hvalid, hlength⟩ := execAll_build_assign c s
  have hlen : 0 < t.lenNat c y := hlength y ▸ buildLength_pos hy
  have hp := afterEncsym_packed c y t
  exact ⟨t, _, hx, hvalid, hlen, exec_encsym_of_code hvalid hlen.ne',
    hp.errCode.trans (herr.trans h0), hp.packedBits_eq⟩

end Sys2Proof
end

section
/-! The walk of the bit reader (44_bit_reader.md R221 to R225): the reader past a bit string, the nodes
of the decode tree as the codes that begin with their bit strings, and where a walk ends on an input
that begins with a code, stops inside one, or leaves them all. -/

namespace Sys2Proof.Machine

open Sys2Proof.Safety

variable {s t u : State} {c : Channel} {y : Symbol} {bits more rest : List Bool} {k p n : Nat}

/-! ### Bits read -/

/-- From s to t these bits were read, and nothing but the reader has moved. -/
structure ReadPast (s : State) (bits : List Bool) (t : State) : Prop where
  frame : t = { s with inptr := t.inptr, inbit := t.inbit }
  unreadBits_eq : unreadBits s = bits ++ unreadBits t

namespace ReadPast

theorem refl (s : State) : ReadPast s [] s := ⟨rfl, rfl⟩

theorem trans (h1 : ReadPast s bits t) (h2 : ReadPast t more u) : ReadPast s (bits ++ more) u := by
  obtain ⟨e1, b1⟩ := h1
  obtain ⟨e2, b2⟩ := h2
  rw [e1] at e2
  exact ⟨e2, by rw [b1, b2, List.append_assoc]⟩

theorem unreadBits_rest (h : ReadPast s bits t) (hread : unreadBits s = bits ++ rest) :
    unreadBits t = rest :=
  List.append_cancel_left (h.unreadBits_eq.symm.trans hread)

theorem len (h : ReadPast s bits t) : t.len = s.len := by rw [h.frame]

theorem code (h : ReadPast s bits t) : t.code = s.code := by rw [h.frame]

theorem lenNat (h : ReadPast s bits t) (c : Channel) (y : Symbol) : t.lenNat c y = s.lenNat c y := by
  rw [h.frame]; rfl

theorem codeString (h : ReadPast s bits t) (c : Channel) (y : Symbol) :
    codeString t c y = codeString s c y := by
  rw [h.frame]; rfl

theorem walkOutOfInput (h : ReadPast s bits t) : walkOutOfInput t = walkOutOfInput s := by
  rw [h.frame]; rfl

end ReadPast

theorem nextBit_readPast {b : Bool} (h : nextBit s = some (b, t)) : ReadPast s [b] t :=
  ⟨(nextBit_eq_some h).2, (nextBit_eq_some h).1⟩

/-- An unread bit is there to be read. -/
theorem exists_nextBit {b : Bool} (h : unreadBits s = b :: rest) :
    ∃ t, nextBit s = some (b, t) ∧ ReadPast s [b] t ∧ unreadBits t = rest := by
  cases hb : nextBit s with
  | none => simp [(nextBit_eq_none s).1 hb] at h
  | some bt =>
    obtain ⟨d, t⟩ := bt
    have hpast := nextBit_readPast hb
    obtain ⟨rfl, hrest⟩ := List.cons_eq_cons.1 (hpast.unreadBits_eq.symm.trans h)
    exact ⟨t, rfl, hpast, hrest⟩

/-! ### The bit string of a node -/

/-- A value without its low bits spells the beginning of what it spells with them. -/
theorem lowBits_shiftRight_prefix (v : Nat) {k l : Nat} (h : k ≤ l) :
    lowBits (v >>> (l - k)) k <+: lowBits v l := by
  obtain ⟨n, rfl⟩ := Nat.exists_eq_add_of_le h
  rw [Nat.add_sub_cancel_left, Nat.shiftRight_eq_div_pow, ← take_lowBits]
  exact List.take_prefix ..

/-- Conversely, the beginning of a bit string spells its value without the low bits. -/
theorem shiftRight_of_lowBits_prefix {v l : Nat} (hp : p < 2 ^ k) (hv : v < 2 ^ l) (hk : k ≤ l)
    (h : lowBits p k <+: lowBits v l) : v >>> (l - k) = p := by
  have hlt : v >>> (l - k) < 2 ^ k := by
    rw [Nat.shiftRight_eq_div_pow]
    exact Nat.div_lt_of_lt_mul (by rwa [← Nat.pow_add, Nat.sub_add_cancel hk])
  refine lowBits_inj hlt hp (List.IsPrefix.eq_of_length ?_ (by simp))
  exact List.prefix_of_prefix_length_le (lowBits_shiftRight_prefix v hk) h (by simp)

/-- One bit further down the tree. -/
theorem child_lt (hp : p < 2 ^ k) (b : Bool) : 2 * p + b.toNat < 2 ^ (k + 1) := by
  have := b.toNat_le
  omega

/-! ### The nodes of the decode tree (R185) -/

@[simp] theorem length_codeString (s : State) (c : Channel) (y : Symbol) :
    (codeString s c y).length = s.lenNat c y := length_lowBits ..

theorem lenNat_le (s : State) (c : Channel) (y : Symbol) : s.lenNat c y ≤ 255 :=
  Nat.le_of_lt_succ (s.lenAt c y).isLt

/-- The node a turn of the walk looks at; the root takes a bit as an internal node does (R222). -/
def nodeAt (s : State) (c : Channel) (k p : Nat) : NodeKind :=
  if k = 0 then .internal else nodeKind s c k p

/-- A leaf stands at the code of its symbol. -/
theorem codeString_of_leaf (h : nodeAt s c k p = .leaf y) :
    s.lenNat c y ≠ 0 ∧ codeString s c y = lowBits p k := by
  unfold nodeAt nodeKind at h
  split at h
  · cases h
  · next hk =>
    split at h
    · next z hz =>
      obtain rfl : z = y := NodeKind.leaf.inj h
      obtain ⟨rfl, rfl⟩ := leafAt_some hz
      exact ⟨hk, rfl⟩
    · split at h <;> cases h

/-- An internal node other than the root is a proper beginning of a code. -/
theorem exists_longer_code (h : nodeKind s c k p = .internal) :
    ∃ y, k < s.lenNat c y ∧ s.codeNat c y >>> (s.lenNat c y - k) = p := by
  unfold nodeKind at h
  split at h
  · cases h
  · split at h
    · next hin => exact (internalAt_iff s c k p).1 hin
    · cases h

/-- An internal node begins a code, where there is a code at all. -/
theorem exists_code_of_internal (h : nodeAt s c k p = .internal) (hne : ∃ y, s.lenNat c y ≠ 0) :
    ∃ y, s.lenNat c y ≠ 0 ∧ lowBits p k <+: codeString s c y := by
  by_cases hk : k = 0
  · obtain ⟨y, hy⟩ := hne
    exact ⟨y, hy, by simp [hk]⟩
  · rw [nodeAt, if_neg hk] at h
    obtain ⟨y, hlt, rfl⟩ := exists_longer_code h
    exact ⟨y, Nat.ne_zero_of_lt hlt, lowBits_shiftRight_prefix _ hlt.le⟩

/-- No code is longer than 255 bits, so no node of that depth begins one (R223). -/
theorem nodeKind_ne_internal (s : State) (c : Channel) (p : Nat) :
    nodeKind s c 255 p ≠ .internal := fun h => by
  obtain ⟨y, hlt, -⟩ := exists_longer_code h
  exact absurd (lenNat_le s c y) (not_le.2 hlt)

/-- The codes of the channel are the canonical ones of its lengths, as CVALID = 1 says in every state
of the invariant (10_state.md R53). -/
def CodesCanonical (s : State) (c : Channel) : Prop :=
  canonicalTable (s.len.get c) = some (s.code.get c)

theorem ReadPast.codesCanonical (h : ReadPast s bits t) (hc : CodesCanonical s c) :
    CodesCanonical t c := by
  rwa [CodesCanonical, h.len, h.code]

/-- Of two canonical codes one begins the other only where they are one symbol's (R166). -/
theorem CodesCanonical.eq_of_prefix (hc : CodesCanonical s c) {z : Symbol} (hy : s.lenNat c y ≠ 0)
    (hz : s.lenNat c z ≠ 0) (h : codeString s c z <+: codeString s c y) : z = y :=
  by_contra fun hzy => (canonical_codes_prefixFree hc).1 z y hzy hz hy h

/-- The node at a canonical code is the leaf of its symbol. -/
theorem nodeAt_of_code (hc : CodesCanonical s c) (hp : p < 2 ^ k) (hy : s.lenNat c y ≠ 0)
    (hcode : codeString s c y = lowBits p k) : nodeAt s c k p = .leaf y := by
  obtain rfl : s.lenNat c y = k := by simpa using congrArg List.length hcode
  obtain rfl : s.codeNat c y = p := lowBits_inj (canonicalTable_fits hc y) hp hcode
  rw [nodeAt, if_neg hy, nodeKind]
  cases hleaf : leafAt s c (s.lenNat c y) (s.codeNat c y) with
  | none => exact absurd ⟨rfl, rfl⟩ (leafAt_none hleaf y)
  | some z =>
    obtain ⟨hlen, hval⟩ := leafAt_some hleaf
    have hsame : codeString s c z = codeString s c y := by rw [codeString, hlen, hval]; rfl
    obtain rfl : z = y := hc.eq_of_prefix hy (hlen ▸ hy) (hsame ▸ List.prefix_refl _)
    rfl

/-- The node at a proper beginning of a canonical code is internal. -/
theorem nodeAt_of_partial (hc : CodesCanonical s c) (hp : p < 2 ^ k) (hmore : more ≠ [])
    (hcode : codeString s c y = lowBits p k ++ more) : nodeAt s c k p = .internal := by
  have hlen : s.lenNat c y = k + more.length := by
    simpa using congrArg List.length hcode
  have hpos := List.length_pos_iff.2 hmore
  have hpre : lowBits p k <+: codeString s c y := hcode ▸ List.prefix_append ..
  by_cases hk : k = 0
  · exact if_pos hk
  rw [nodeAt, if_neg hk, nodeKind]
  cases hleaf : leafAt s c k p with
  | none =>
    refine if_pos ((internalAt_iff s c k p).2 ⟨y, by omega, ?_⟩)
    exact shiftRight_of_lowBits_prefix hp (canonicalTable_fits hc y) (by omega) hpre
  | some z =>
    obtain ⟨rfl, rfl⟩ := leafAt_some hleaf
    obtain rfl : z = y := hc.eq_of_prefix (by omega) hk hpre
    omega

/-! ### The turns of a walk (R222) -/

theorem walkFrom_leaf (h : nodeAt s c k p = .leaf y) : walkFrom c (n + 1) k p s = .sym y s := by
  by_cases hk : k = 0
  · simp [nodeAt, hk] at h
  · rw [nodeAt, if_neg hk] at h
    rw [walkFrom_node c n p hk, h]

theorem walkFrom_unpopulated (h : nodeAt s c k p = .unpopulated) :
    walkFrom c (n + 1) k p s = .err .corruptTree := by
  by_cases hk : k = 0
  · simp [nodeAt, hk] at h
  · rw [nodeAt, if_neg hk] at h
    rw [walkFrom_node c n p hk, h]

/-- At an internal node with no bit to read. -/
theorem walkFrom_internal_none (h : nodeAt s c k p = .internal) (hb : nextBit s = none) :
    walkFrom c (n + 1) k p s = walkOutOfInput s := by
  by_cases hk : k = 0
  · rw [hk, walkFrom_root, hb]
  · rw [nodeAt, if_neg hk] at h
    rw [walkFrom_node c n p hk, h, hb]

/-- At an internal node the next bit takes the walk to a child. -/
theorem walkFrom_internal_some (h : nodeAt s c k p = .internal) (hp : p < 2 ^ k) {b : Bool}
    (hb : nextBit s = some (b, t)) :
    walkFrom c (n + 1) k p s = walkFrom c n (k + 1) (2 * p + b.toNat) t := by
  by_cases hk : k = 0
  · subst hk
    obtain rfl : p = 0 := by simpa using hp
    simp [walkFrom_root, hb]
  · rw [nodeAt, if_neg hk] at h
    rw [walkFrom_node c n p hk, h, hb]

/-- A walk reaches a symbol at its leaf, or after one more bit (R222). -/
theorem walkFrom_sym_cases (hp : p < 2 ^ k) (h : walkFrom c (n + 1) k p s = .sym y t) :
    (nodeAt s c k p = .leaf y ∧ t = s) ∨ ∃ b u, nodeAt s c k p = .internal ∧
      nextBit s = some (b, u) ∧ walkFrom c n (k + 1) (2 * p + b.toNat) u = .sym y t := by
  cases hnode : nodeAt s c k p with
  | leaf z =>
    obtain ⟨rfl, rfl⟩ := WalkResult.sym.inj ((walkFrom_leaf hnode).symm.trans h)
    exact .inl ⟨rfl, rfl⟩
  | unpopulated => cases (walkFrom_unpopulated hnode).symm.trans h
  | internal =>
    cases hb : nextBit s with
    | none =>
      rw [walkFrom_internal_none hnode hb, walkOutOfInput] at h
      split at h <;> cases h
    | some bu =>
      exact .inr ⟨bu.1, bu.2, rfl, rfl, (walkFrom_internal_some hnode hp hb).symm.trans h⟩

/-- A walk that reaches a symbol has read the rest of its code (R222, R223). -/
theorem walkFrom_sym (hp : p < 2 ^ k) (h : walkFrom c n k p s = .sym y t) :
    ∃ bits, codeString s c y = lowBits p k ++ bits ∧ ReadPast s bits t := by
  induction n generalizing k p s with
  | zero => cases h
  | succ n ih =>
    rcases walkFrom_sym_cases hp h with ⟨hnode, rfl⟩ | ⟨b, u, -, hb, hnext⟩
    · exact ⟨[], by simp [(codeString_of_leaf hnode).2], .refl _⟩
    · have hone := nextBit_readPast hb
      obtain ⟨bits, hcode, hread⟩ := ih (child_lt hp b) hnext
      rw [hone.codeString, lowBits_append_bit, List.append_assoc] at hcode
      exact ⟨[b] ++ bits, hcode, hone.trans hread⟩

/-- A walk with a turn for every depth down to 255 goes no further with more turns (R223). -/
theorem walkFrom_more_turns (more : Nat) (hp : p < 2 ^ k) (hk : k + n = 255) :
    walkFrom c (n + 1 + more) k p s = walkFrom c (n + 1) k p s := by
  rw [Nat.add_right_comm]
  induction n generalizing k p s with
  | zero =>
    obtain rfl : k = 255 := hk
    cases hnode : nodeAt s c 255 p with
    | leaf y => rw [walkFrom_leaf hnode, walkFrom_leaf hnode]
    | unpopulated => rw [walkFrom_unpopulated hnode, walkFrom_unpopulated hnode]
    | internal => exact absurd hnode (nodeKind_ne_internal s c p)
  | succ n ih =>
    cases hnode : nodeAt s c k p with
    | leaf y => rw [walkFrom_leaf hnode, walkFrom_leaf hnode]
    | unpopulated => rw [walkFrom_unpopulated hnode, walkFrom_unpopulated hnode]
    | internal =>
      cases hb : nextBit s with
      | none => rw [walkFrom_internal_none hnode hb, walkFrom_internal_none hnode hb]
      | some bt =>
        rw [walkFrom_internal_some hnode hp hb, walkFrom_internal_some hnode hp hb,
          Nat.add_right_comm]
        exact ih (child_lt hp _) (by omega)

/-- A walk that reads on along a code comes to the node its bits spell (R222). -/
theorem walkFrom_along (hc : CodesCanonical s c) (hp : p < 2 ^ k)
    (hcode : codeString s c y = lowBits p k ++ (bits ++ more)) (hread : unreadBits s = bits ++ rest) :
    ∃ q t, q < 2 ^ (k + bits.length) ∧ lowBits q (k + bits.length) = lowBits p k ++ bits ∧
      ReadPast s bits t ∧
      walkFrom c (n + bits.length) k p s = walkFrom c n (k + bits.length) q t := by
  induction bits generalizing k p s with
  | nil => exact ⟨p, s, hp, by simp, .refl s, rfl⟩
  | cons b bits ih =>
    obtain ⟨u, hb, hone, hrest⟩ := exists_nextBit hread
    have hstep := walkFrom_internal_some (n := n + bits.length)
      (nodeAt_of_partial hc hp (List.cons_ne_nil b (bits ++ more)) hcode) hp hb
    obtain ⟨q, t, hq, hspell, hpast, hwalk⟩ := ih (hone.codesCanonical hc) (child_lt hp b)
      (by rw [hone.codeString, hcode, lowBits_append_bit]; simp) hrest
    rw [lowBits_append_bit, List.append_assoc] at hspell
    rw [Nat.add_right_comm, Nat.add_assoc k] at hq hspell hwalk
    exact ⟨q, t, hq, hspell, hone.trans hpast, hstep.trans hwalk⟩

/-- A walk on bits that neither begin a code nor have one as their beginning leaves the tree (R224). -/
theorem walkFrom_corrupt (hp : p < 2 ^ k) (hne : ∃ y, s.lenNat c y ≠ 0)
    (hread : unreadBits s = bits ++ rest)
    (hbits : ∀ y, s.lenNat c y ≠ 0 → ¬ lowBits p k ++ bits <+: codeString s c y ∧
      ¬ codeString s c y <+: lowBits p k ++ bits) :
    walkFrom c n k p s = .err .corruptTree := by
  induction n generalizing k p s bits with
  | zero => rfl -- out of turns, which no walk from the root is (log entry 8)
  | succ n ih =>
    cases hnode : nodeAt s c k p with
    | leaf y =>
      obtain ⟨hy, hcode⟩ := codeString_of_leaf hnode
      exact absurd (hcode ▸ List.prefix_append ..) (hbits y hy).2
    | unpopulated => exact walkFrom_unpopulated hnode
    | internal =>
      obtain ⟨y, hy, hpre⟩ := exists_code_of_internal hnode hne
      cases bits with
      | nil => exact absurd (by simpa using hpre) (hbits y hy).1
      | cons b bits =>
        obtain ⟨u, hb, hone, hrest⟩ := exists_nextBit hread
        rw [walkFrom_internal_some hnode hp hb]
        refine ih (child_lt hp b) (by simpa [hone.lenNat] using hne) hrest fun z hz => ?_
        rw [hone.codeString, lowBits_append_bit, List.append_assoc]
        exact hbits z (hone.lenNat c z ▸ hz)

/-! ### The walk from the root -/

theorem walk_eq_walkFrom (hne : s.lenNat c y ≠ 0) : walk c s = walkFrom c 256 0 0 s := by
  have hempty : emptyTree s c ≠ true := fun h => hne ((emptyTree_iff s c).1 h y)
  rw [walk, if_neg hempty]

/-- The root is the node of the empty bit string. -/
theorem zero_lt_root : 0 < 2 ^ 0 := Nat.one_pos

theorem walk_sym (h : walk c s = .sym y t) : ReadPast s (codeString s c y) t := by
  unfold walk at h
  split at h
  · cases h
  · obtain ⟨bits, hcode, hread⟩ := walkFrom_sym zero_lt_root h
    rwa [hcode]

/-- Where the unread input begins with the beginning of a code, the walk comes to its node. -/
theorem walk_along (hc : CodesCanonical s c) (hy : s.lenNat c y ≠ 0)
    (hcode : codeString s c y = bits ++ more) (hread : unreadBits s = bits ++ rest) :
    ∃ n q t, q < 2 ^ bits.length ∧ lowBits q bits.length = bits ∧ ReadPast s bits t ∧
      walk c s = walkFrom c (n + 1) bits.length q t := by
  obtain ⟨n, hn⟩ : ∃ n, 256 = n + 1 + bits.length := by
    have hlen := congrArg List.length hcode
    have hle := lenNat_le s c y
    rw [length_codeString, List.length_append] at hlen
    exact ⟨255 - bits.length, by omega⟩
  obtain ⟨q, t, hq, hspell, hpast, hwalk⟩ :=
    walkFrom_along (n := n + 1) hc zero_lt_root hcode hread
  rw [Nat.zero_add] at hq hspell hwalk
  exact ⟨n, q, t, hq, hspell, hpast, by rw [walk_eq_walkFrom hy, hn, hwalk]⟩

/-- Where the unread input begins with a code, the walk reaches its symbol. -/
theorem walk_of_whole_code (hc : CodesCanonical s c) (hy : s.lenNat c y ≠ 0)
    (hread : unreadBits s = codeString s c y ++ rest) :
    ∃ t, walk c s = .sym y t ∧ ReadPast s (codeString s c y) t ∧ unreadBits t = rest := by
  obtain ⟨n, q, t, hq, hspell, hpast, hwalk⟩ :=
    walk_along hc hy (List.append_nil _).symm hread
  refine ⟨t, ?_, hpast, hpast.unreadBits_rest hread⟩
  rw [hwalk, walkFrom_leaf]
  exact nodeAt_of_code (hpast.codesCanonical hc) hq (hpast.lenNat c y ▸ hy)
    (by rw [hpast.codeString, hspell])

/-- Where the unread input is a proper beginning of a code, the walk runs out of input (R225). -/
theorem walk_of_partial_code (hc : CodesCanonical s c) (hy : s.lenNat c y ≠ 0) (hmore : more ≠ [])
    (hcode : codeString s c y = unreadBits s ++ more) : walk c s = walkOutOfInput s := by
  obtain ⟨n, q, t, hq, hspell, hpast, hwalk⟩ :=
    walk_along hc hy hcode (List.append_nil _).symm
  have hend : nextBit t = none :=
    (nextBit_eq_none t).2 (hpast.unreadBits_rest (List.append_nil _).symm)
  rw [hwalk, walkFrom_internal_none _ hend, hpast.walkOutOfInput]
  exact nodeAt_of_partial (hpast.codesCanonical hc) hq hmore (by rw [hpast.codeString, hspell, hcode])

/-- Where the unread input begins with bits that leave all codes, or there is no code, the tree is
corrupt (R188, R224). -/
theorem walk_of_no_code (hread : unreadBits s = bits ++ rest)
    (hbits : ∀ y, s.lenNat c y ≠ 0 → ¬ bits <+: codeString s c y ∧ ¬ codeString s c y <+: bits) :
    walk c s = .err .corruptTree := by
  by_cases hne : ∃ y, s.lenNat c y ≠ 0
  · obtain ⟨y, hy⟩ := hne
    rw [walk_eq_walkFrom hy]
    exact walkFrom_corrupt zero_lt_root ⟨y, hy⟩ hread hbits
  · rw [walk, if_pos ((emptyTree_iff s c).2 (by simpa using hne))]

end Sys2Proof.Machine

namespace Sys2Proof

open Machine Safety

/-- Settles O43: the nodes a walk passes spell the bits it reads, down to the leaf of its symbol. -/
theorem walkConsumesTheCode : Obligations.WalkConsumesTheCode := by
  refine ⟨fun s t c y h => ?_, nodeKind_ne_internal, fun s c more =>
    walkFrom_more_turns more zero_lt_root rfl⟩
  obtain ⟨hframe, hread⟩ := walk_sym h
  exact ⟨hread, length_codeString s c y, lenNat_le s c y, hframe⟩

end Sys2Proof
end

section
/-! DECSYM and DECPX (44_bit_reader.md R226 to R230): their walks one after another, and what they leave
where the walks reach symbols and where one does not. -/

namespace Sys2Proof.Machine

open Sys2Proof.Safety

variable {s t : State} {c : Channel} {y : Symbol} {bits more rest tail : List Bool}

/-! ### Walks one after another -/

/-- What a command does with a walk (R226, R228): it goes on where the walk reached a symbol, and
fails or holds with it otherwise. -/
def WalkResult.andThen (next : Symbol → State → CmdResult) : WalkResult → CmdResult
  | .sym y t => next y t
  | .err e => .err e
  | .hold => .hold

/-- The walk that has no bit left fails or holds as any command does that lacks input (20_memory.md
R87). -/
theorem andThen_walkOutOfInput (next : Symbol → State → CmdResult) (s : State) :
    (walkOutOfInput s).andThen next = whenInputShort s .unexpectedEndOfStream := by
  unfold walkOutOfInput whenInputShort
  cases s.eos <;> rfl

theorem andThen_eq_ok {w : WalkResult} {next : Symbol → State → CmdResult}
    (h : w.andThen next = .ok t) : ∃ y u, w = .sym y u ∧ next y u = .ok t := by
  cases w with
  | sym y u => exact ⟨y, u, rfl, h⟩
  | err | hold => cases h

/-- The end of the input at a completion step: a hold before it, an error after it (R225). -/
theorem complete_inputShort (s : State) :
    (s.eos = false → complete s (whenInputShort s .unexpectedEndOfStream) = .next s) ∧
    (s.eos = true →
      complete s (whenInputShort s .unexpectedEndOfStream) = .next (failedState 3#4 s)) := by
  refine ⟨fun h => ?_, fun h => ?_⟩ <;> rw [whenInputShort, h]
  · rfl
  · exact complete_err s .unexpectedEndOfStream

/-! ### DECSYM (R226) -/

theorem exec_decsym_of_valid (hv : s.cvalidAt c = true) :
    exec (.decsym c) s = complete s
      ((walk c s).andThen fun y t => .ok { t with result := BitVec.setWidth 24 y }) := by
  rw [exec_eq_complete, resultOf, cmdDecsym, hv]
  cases walk c s <;> rfl

theorem exec_decsym_not_ready (hv : s.cvalidAt c = false) :
    exec (.decsym c) s = .next (failedState 7#4 s) := by
  rw [exec_eq_complete, resultOf, cmdDecsym, hv]
  exact complete_err s .codesNotReady

/-- What a DECSYM leaves that reaches y with the reader at t. -/
def returning (y : Symbol) (t : State) : State :=
  { t with result := BitVec.setWidth 24 y, busy := false }

/-- A symbol that DECSYM returned, as the low byte of RESULT. -/
theorem extractLsb'_result_returning (y : Symbol) (t : State) :
    (returning y t).result.extractLsb' 0 8 = y := by
  ext i hi
  have hlt : i < 24 := by omega
  simp [returning, hi, hlt]

theorem exec_decsym_of_sym (hv : s.cvalidAt c = true) (hw : walk c s = .sym y t) :
    exec (.decsym c) s = .next (returning y t) := by
  rw [exec_decsym_of_valid hv, hw]
  rfl

theorem exec_decsym_corrupt (hv : s.cvalidAt c = true) (hw : walk c s = .err .corruptTree) :
    exec (.decsym c) s = .next (failedState 4#4 s) := by
  rw [exec_decsym_of_valid hv, hw]
  exact complete_err s .corruptTree

/-- DECSYM on an input that begins with a code (R226). -/
theorem exec_decsym_of_code (hv : s.cvalidAt c = true) (hc : CodesCanonical s c)
    (hy : s.lenNat c y ≠ 0) (hread : unreadBits s = codeString s c y ++ rest) :
    ∃ t, exec (.decsym c) s = .next (returning y t) ∧ ReadPast s (codeString s c y) t ∧
      unreadBits t = rest := by
  obtain ⟨t, hw, hpast, hrest⟩ := walk_of_whole_code hc hy hread
  exact ⟨t, exec_decsym_of_sym hv hw, hpast, hrest⟩

/-! ### DECPX (R228) -/

theorem exec_decpx_not_ready (hv : ¬ ∀ c, s.cvalidAt c = true) :
    exec .decpx s = .next (failedState 7#4 s) := by
  rw [exec_eq_complete, resultOf, cmdDecpx, eq_false_of_ne_true (mt allCodesReady_iff.1 hv)]
  exact complete_err s .codesNotReady

/-- What DECPX leaves after its three walks. -/
def pixelAt (yr yg yb : Symbol) (t : State) : State := { t with result := yr ++ yg ++ yb }

/-- The rule of R228 once all channels are ready. -/
theorem cmdDecpx_of_valid (hv : ∀ c, s.cvalidAt c = true) : cmdDecpx s =
    (walk .r s).andThen fun yr s1 => (walk .g s1).andThen fun yg s2 =>
      (walk .b s2).andThen fun yb s3 => .ok (pixelAt yr yg yb s3) := by
  rw [cmdDecpx, allCodesReady_iff.2 hv]
  cases walk .r s with
  | err | hold => rfl
  | sym yr s1 =>
    simp only [WalkResult.andThen]
    cases walk .g s1 with
    | err | hold => rfl
    | sym yg s2 =>
      dsimp only
      cases walk .b s2 <;> rfl

/-- A pixel as the number RESULT holds. -/
theorem toNat_pixel (pr pg pb : Symbol) :
    (pr ++ pg ++ pb : BitVec 24).toNat = pr.toNat * 65536 + pg.toNat * 256 + pb.toNat := by
  rw [BitVec.toNat_append, BitVec.toNat_append, ← Nat.shiftLeft_add_eq_or_of_lt pb.isLt,
    ← Nat.shiftLeft_add_eq_or_of_lt pg.isLt, Nat.shiftLeft_eq, Nat.shiftLeft_eq]
  omega

/-- The codes in the input before the walk of channel c. -/
def codesBefore (s : State) (pr pg : Symbol) : Channel → List Bool
  | .r => []
  | .g => codeString s .r pr
  | .b => codeString s .r pr ++ codeString s .g pg

variable {pr pg : Symbol}

/-- With the R and the G code at the beginning of the input, DECPX comes to the B walk. -/
theorem cmdDecpx_at_blue (hv : ∀ c, s.cvalidAt c = true) (hc : ∀ c, CodesCanonical s c)
    (hr : s.lenNat .r pr ≠ 0) (hg : s.lenNat .g pg ≠ 0)
    (hread : unreadBits s = codesBefore s pr pg .b ++ tail) :
    ∃ t, ReadPast s (codesBefore s pr pg .b) t ∧ unreadBits t = tail ∧
      cmdDecpx s = (walk .b t).andThen fun yb u => .ok (pixelAt pr pg yb u) := by
  rw [codesBefore, List.append_assoc] at hread
  obtain ⟨t, hwr, hpast, hrest⟩ := walk_of_whole_code (hc .r) hr hread
  obtain ⟨u, hwg, hpast', hrest'⟩ := walk_of_whole_code (hpast.codesCanonical (hc .g))
    (hpast.lenNat .g pg ▸ hg) (hpast.codeString .g pg ▸ hrest)
  refine ⟨u, hpast.trans (hpast.codeString .g pg ▸ hpast'), hrest', ?_⟩
  rw [cmdDecpx_of_valid hv, hwr, WalkResult.andThen, hwg, WalkResult.andThen]

/-- With the codes before channel c at the beginning of the input, DECPX comes to the walk of c. -/
theorem cmdDecpx_at (hv : ∀ c, s.cvalidAt c = true) (hc : ∀ c, CodesCanonical s c)
    (hr : c ≠ .r → s.lenNat .r pr ≠ 0) (hg : c = .b → s.lenNat .g pg ≠ 0)
    (hread : unreadBits s = codesBefore s pr pg c ++ tail) :
    ∃ t next, ReadPast s (codesBefore s pr pg c) t ∧ unreadBits t = tail ∧
      cmdDecpx s = (walk c t).andThen next := by
  cases c with
  | r => exact ⟨s, _, .refl s, hread, cmdDecpx_of_valid hv⟩
  | g =>
    obtain ⟨t, hw, hpast, hrest⟩ := walk_of_whole_code (hc .r) (hr nofun) hread
    exact ⟨t, _, hpast, hrest, by rw [cmdDecpx_of_valid hv, hw]; rfl⟩
  | b =>
    obtain ⟨t, ht⟩ := cmdDecpx_at_blue hv hc (hr nofun) (hg rfl) hread
    exact ⟨t, _, ht⟩

/-- A DECPX that leaves no error latched and does not hold has reached three symbols. -/
theorem exec_decpx_ok (hbusy : s.busy = true) (hx : exec .decpx s = .next t)
    (hdone : t.busy = false) (ht : t.errCode = 0#4) :
    (∀ c, s.cvalidAt c = true) ∧ ∃ yr yg yb s1 s2 s3, walk .r s = .sym yr s1 ∧
      walk .g s1 = .sym yg s2 ∧ walk .b s2 = .sym yb s3 ∧ t = idle (pixelAt yr yg yb s3) := by
  by_cases hv : ∀ c, s.cvalidAt c = true
  · rcases exec_cases hx with ⟨u, hu, rfl⟩ | ⟨e, -, rfl⟩ | ⟨-, rfl⟩
    · rw [resultOf, cmdDecpx_of_valid hv] at hu
      obtain ⟨yr, s1, hwr, hu⟩ := andThen_eq_ok hu
      obtain ⟨yg, s2, hwg, hu⟩ := andThen_eq_ok hu
      obtain ⟨yb, s3, hwb, hu⟩ := andThen_eq_ok hu
      exact ⟨hv, yr, yg, yb, s1, s2, s3, hwr, hwg, hwb, by rw [← CmdResult.ok.inj hu]; rfl⟩
    · exact absurd ht (errCode_ne_zero_of_failed (errorNumber_ne_zero e) hx hx)
    · simp [hbusy] at hdone
  · exact absurd ht (errCode_ne_zero_of_failed (by decide) (exec_decpx_not_ready hv) hx)

/-! ### A walk does not read RESULT or BUSY (R229) -/

/-- f changes nothing that a walk reads: the same bits come next, and the nodes are the same. -/
structure KeepsWalks (f : State → State) : Prop where
  nextBit_eq : ∀ s, nextBit (f s) = (nextBit s).map fun r => (r.1, f r.2)
  nodeAt_eq : ∀ s c k p, nodeAt (f s) c k p = nodeAt s c k p
  emptyTree_eq : ∀ s c, emptyTree (f s) c = emptyTree s c

/-- A walk that reaches a symbol reaches it after such a change as well. -/
theorem KeepsWalks.walkFrom_sym {f : State → State} (hf : KeepsWalks f) {k p n : Nat}
    (hp : p < 2 ^ k) (h : walkFrom c n k p s = .sym y t) :
    walkFrom c n k p (f s) = .sym y (f t) := by
  induction n generalizing k p s with
  | zero => cases h
  | succ n ih =>
    rcases walkFrom_sym_cases hp h with ⟨hnode, rfl⟩ | ⟨b, u, hnode, hb, hnext⟩
    · exact walkFrom_leaf ((hf.nodeAt_eq ..).trans hnode)
    · have hb' : nextBit (f s) = some (b, f u) := by rw [hf.nextBit_eq, hb]; rfl
      rw [walkFrom_internal_some ((hf.nodeAt_eq ..).trans hnode) hp hb']
      exact ih (child_lt hp b) hnext

theorem KeepsWalks.walk_sym {f : State → State} (hf : KeepsWalks f) (h : walk c s = .sym y t) :
    walk c (f s) = .sym y (f t) := by
  rw [walk, hf.emptyTree_eq]
  unfold walk at h
  split at h
  · cases h
  · next hne => rw [if_neg hne, hf.walkFrom_sym zero_lt_root h]

theorem keepsWalks_returning (y : Symbol) : KeepsWalks (returning y) where
  nextBit_eq s := by
    have hadvance : advanceBit (returning y s) = returning y (advanceBit s) := by
      by_cases h : s.inbit = 7#3 <;> simp [advanceBit, returning, h]
    rw [nextBit, nextBit, hadvance, show (returning y s).inbuf[(returning y s).inptr]? =
      s.inbuf[s.inptr]? from rfl]
    cases s.inbuf[s.inptr]? <;> rfl
  nodeAt_eq _ _ _ _ := rfl
  emptyTree_eq _ _ := rfl

end Sys2Proof.Machine

namespace Sys2Proof

open Machine Safety

/-- Settles O44: a walk along the code of y ends at its leaf. -/
theorem decsymReturnsTheNextSymbol : Obligations.DecsymReturnsTheNextSymbol := by
  intro s c y rest hv hc hy hread
  obtain ⟨t, hx, hpast, hrest⟩ := exec_decsym_of_code hv hc hy hread
  exact ⟨_, hx, congrArg (returning y) hpast.frame, hrest⟩

/-- Settles O45: the bits ENCSYM packed are the code, which is the same in both machines. -/
theorem decsymInvertsEncsym : Obligations.DecsymInvertsEncsym := by
  intro e e' d c y bits rest hve hvd hlen hcode hc hy hx hbits hread
  have hsame : e.lenNat c y = d.lenNat c y ∧ e.codeNat c y = d.codeNat c y := by
    simp only [State.lenNat, State.lenAt, State.codeNat, State.codeAt, hlen, hcode, and_self]
  obtain rfl : afterEncsym c y e = e' :=
    Host.Outcome.next.inj ((exec_encsym_of_code hve hy).symm.trans hx)
  obtain rfl : codeString d c y = bits := by
    rw [codeString, ← hsame.1, ← hsame.2]
    exact List.append_cancel_left ((afterEncsym_packed c y e).packedBits_eq.symm.trans hbits)
  obtain ⟨t, hxd, -, hrest⟩ := exec_decsym_of_code hvd hc (hsame.1 ▸ hy) hread
  exact ⟨_, hxd, rfl, hrest⟩

/-- Settles O46: the walk runs out of input at an internal node, or at the root. -/
theorem decsymAtTheEndOfInput : Obligations.DecsymAtTheEndOfInput := by
  intro s c y missing hv hc hy hmore hcode
  rw [exec_decsym_of_valid hv, walk_of_partial_code hc hy hmore hcode, andThen_walkOutOfInput]
  exact complete_inputShort s

/-- Settles O47: the walk leaves the tree, which with no code it does before the first bit. -/
theorem decsymCorruptTree : Obligations.DecsymCorruptTree := by
  refine fun s c => ⟨fun bits rest hv _ hread hbits => ?_, fun hv hnone => ?_,
    exec_decsym_not_ready⟩
  · exact exec_decsym_corrupt hv (walk_of_no_code hread hbits)
  · exact exec_decsym_corrupt hv
      (walk_of_no_code (List.nil_append _).symm fun y hy => absurd (hnone y) hy)

/-- Settles O48: three walks along the three codes. -/
theorem decpxReturnsThePixel : Obligations.DecpxReturnsThePixel := by
  refine fun s => ⟨fun pr pg pb rest hv hc hr hg hb hread => ?_, fun ⟨c, hvc⟩ =>
    exec_decpx_not_ready fun hv => absurd (hv c) (by simp [hvc])⟩
  rw [List.append_assoc] at hread
  obtain ⟨t, hpast, hrest, hcmd⟩ := cmdDecpx_at_blue hv hc hr hg hread
  obtain ⟨u, hwb, hpast', hrest'⟩ := walk_of_whole_code (hpast.codesCanonical (hc .b))
    (hpast.lenNat .b pb ▸ hb) (hpast.codeString .b pb ▸ hrest)
  refine ⟨idle (pixelAt pr pg pb u), ?_, ?_, toNat_pixel pr pg pb, hrest'⟩
  · rw [exec_eq_complete, resultOf, hcmd, hwb]
    rfl
  · exact congrArg (idle ∘ pixelAt pr pg pb) (hpast.trans hpast').frame

/-- Settles O60: the walk of channel c starts right after the codes before it, and stops. -/
theorem decpxStopsWhereAWalkStops : Obligations.DecpxStopsWhereAWalkStops := by
  intro s c pr pg tail hv hc hr hg hread
  obtain ⟨t, next, hpast, hrest, hcmd⟩ := cmdDecpx_at hv hc hr hg hread
  rw [exec_eq_complete, resultOf, hcmd]
  refine ⟨fun y missing hy hmore hcode => ?_, fun bits rest htail hbits => ?_⟩
  · rw [← hrest, ← hpast.codeString] at hcode
    rw [walk_of_partial_code (hpast.codesCanonical (hc c)) (hpast.lenNat c y ▸ hy) hmore hcode,
      hpast.walkOutOfInput, andThen_walkOutOfInput]
    exact complete_inputShort s
  · simp only [← hpast.lenNat, ← hpast.codeString] at hbits
    rw [walk_of_no_code (hrest.trans htail) hbits]
    exact complete_err s .corruptTree

/-- Settles O49: each walk of DECPX is the one DECSYM makes from where the DECSYM before it stopped,
which has written RESULT and BUSY alone. -/
theorem decpxIsThreeDecsym : Obligations.DecpxIsThreeDecsym := by
  intro s t hbusy _ hx hdone ht
  obtain ⟨hv, yr, yg, yb, s1, s2, s3, hwr, hwg, hwb, rfl⟩ := exec_decpx_ok hbusy hx hdone ht
  have hv1 : ∀ c, s1.cvalidAt c = true := fun c => by rw [(walk_sym hwr).frame]; exact hv c
  have hv2 : ∀ c, s2.cvalidAt c = true := fun c => by rw [(walk_sym hwg).frame]; exact hv1 c
  refine ⟨_, _, _, exec_decsym_of_sym (hv .r) hwr,
    exec_decsym_of_sym (hv1 .g) ((keepsWalks_returning yr).walk_sym hwg),
    exec_decsym_of_sym (hv2 .b) ((keepsWalks_returning yg).walk_sym
      ((keepsWalks_returning yr).walk_sym hwb)), ?_⟩
  simp only [extractLsb'_result_returning]
  rfl

end Sys2Proof
end

section
/-! The container header (45_container.md R244, R245): what HDRW and HDRR leave, and 16-bit values as two
bytes, high byte first (20_memory.md R89). -/

namespace Sys2Proof.Machine

open Sys2Proof.Safety

variable {s : State}

/-! ### Two bytes, high byte first (R89) -/

theorem toNat_append_byte (high low : Byte) :
    (high ++ low : BitVec 16).toNat = 256 * high.toNat + low.toNat := by
  rw [BitVec.toNat_append, ← Nat.shiftLeft_add_eq_or_of_lt low.isLt, Nat.shiftLeft_eq, Nat.mul_comm]

/-- The bytes of a 16-bit value are its two digits in base 256, the high one first. -/
theorem bigEndian_eq (v : BitVec 16) :
    ∃ high low, bigEndian v = [high, low] ∧ v.toNat = 256 * high.toNat + low.toNat := by
  refine ⟨_, _, rfl, ?_⟩
  rw [← toNat_append_byte]
  exact congrArg BitVec.toNat (eq_append_iff (m := 8) (n := 8).2 ⟨rfl, rfl⟩)

/-! ### HDRW (R244) -/

/-- What an HDRW with no partial byte pending leaves. -/
def afterHdrw (s : State) : State :=
  { s with out := s.out ++ headerBytes s.width s.height, busy := false }

theorem exec_hdrw_of_aligned (h : s.cnt = 0#3) : exec .hdrw s = .next (afterHdrw s) := by
  rw [exec_eq_complete, resultOf, cmdHdrw, if_neg (not_not.2 h), emitAll_eq]
  rfl

theorem exec_hdrw_of_misaligned (h : s.cnt ≠ 0#3) :
    exec .hdrw s = .next (failedState 8#4 s) := by
  rw [exec_eq_complete, resultOf, cmdHdrw, if_pos h]
  exact complete_err s .streamNotAligned

/-! ### HDRR (R245) -/

/-- What an HDRR leaves that finds the bytes of the two values w and h. -/
def afterHdrr (w h : BitVec 16) (s : State) : State :=
  { s with width := w, height := h, inptr := s.inptr + 4, busy := false }

theorem exec_hdrr_of_misaligned (h : s.inbit ≠ 0#3) :
    exec .hdrr s = .next (failedState 8#4 s) := by
  rw [exec_eq_complete, resultOf, cmdHdrr, if_pos h]
  exact complete_err s .streamNotAligned

/-- With four bytes unread, HDRR takes the first two as WIDTH and the other two as HEIGHT. -/
theorem exec_hdrr_of_header {w1 w0 h1 h0 : Byte} {rest : List Byte} (hbit : s.inbit = 0#3)
    (hin : s.inbuf.drop s.inptr = w1 :: w0 :: h1 :: h0 :: rest) :
    exec .hdrr s = .next (afterHdrr (w1 ++ w0) (h1 ++ h0) s) := by
  have hav : ¬ inAvail s < 4 := by
    rw [inAvail, ← List.length_drop, hin]
    simp
  have hbyte (i : Nat) {x : Byte} (hx : (w1 :: w0 :: h1 :: h0 :: rest)[i]? = some x) :
      inByte s (s.inptr + i) = x :=
    inByte_eq (by rw [← List.getElem?_drop, hin, hx])
  have hw1 : inByte s s.inptr = w1 := hbyte 0 rfl
  rw [exec_eq_complete, resultOf, cmdHdrr, if_neg (not_not.2 hbit), if_neg hav, hw1, hbyte 1 rfl,
    hbyte 2 rfl, hbyte 3 rfl]
  rfl

/-- With fewer than four bytes unread the answer is that of the short-input rule (R87). -/
theorem exec_hdrr_of_short (hbit : s.inbit = 0#3) (h : s.inbuf.length < s.inptr + 4) :
    exec .hdrr s = complete s (whenInputShort s .invalidHeader) := by
  rw [exec_eq_complete, resultOf, cmdHdrr, if_neg (not_not.2 hbit),
    if_pos ((inAvail_lt_iff (by decide)).2 h)]

theorem exec_hdrr_holds (hbit : s.inbit = 0#3) (h : s.inbuf.length < s.inptr + 4)
    (heos : s.eos = false) : exec .hdrr s = .next s := by
  rw [exec_hdrr_of_short hbit h, whenInputShort, heos]
  exact complete_hold s

theorem exec_hdrr_invalid (hbit : s.inbit = 0#3) (h : s.inbuf.length < s.inptr + 4)
    (heos : s.eos = true) : exec .hdrr s = .next (failedState 1#4 s) := by
  rw [exec_hdrr_of_short hbit h, whenInputShort, heos]
  exact complete_err s .invalidHeader

end Sys2Proof.Machine

namespace Sys2Proof

open Machine

/-- Settles O50: an aligned HDRW appends the two bytes of WIDTH and then the two of HEIGHT. -/
theorem hdrwEmitsTheHeader : Obligations.HdrwEmitsTheHeader := by
  refine fun s => ⟨fun h => ⟨afterHdrw s, exec_hdrw_of_aligned h, rfl, ?_⟩, exec_hdrw_of_misaligned⟩
  obtain ⟨w1, w0, hw, hwidth⟩ := bigEndian_eq s.width
  obtain ⟨h1, h0, hh, hheight⟩ := bigEndian_eq s.height
  exact ⟨w1, w0, h1, h0, by rw [afterHdrw, headerBytes, hw, hh]; rfl, hwidth, hheight⟩

/-- Settles O51, by the three tests of R245 in their order: alignment, the bytes there, the end of the
input. -/
theorem hdrrReadsTheHeader : Obligations.HdrrReadsTheHeader :=
  fun s => ⟨fun w1 w0 h1 h0 _ hbit hin => ⟨afterHdrr (w1 ++ w0) (h1 ++ h0) s,
    exec_hdrr_of_header hbit hin, rfl, toNat_append_byte w1 w0, toNat_append_byte h1 h0⟩,
    exec_hdrr_holds, exec_hdrr_invalid, exec_hdrr_of_misaligned⟩

end Sys2Proof
end

section
/-! The control commands NOP and CLRERR (46_control.md R270, R272), which complete from every state. -/

namespace Sys2Proof.Machine

theorem exec_nop (s : State) : exec .nop s = .next { s with busy := false } := by
  rw [exec_eq_complete, resultOf]
  exact complete_ok s s

theorem exec_clrerr (s : State) :
    exec .clrerr s = .next { clearLatch s with busy := false } := by
  rw [exec_eq_complete, resultOf]
  exact complete_ok s (clearLatch s)

end Sys2Proof.Machine

namespace Sys2Proof

open Machine

/-- Settles O19: the rule of either command answers ok in every state, NOP's with the state itself,
CLRERR's with the latch cleared. -/
theorem nopAndClrerrComplete : Obligations.NopAndClrerrComplete :=
  fun s => ⟨exec_nop s, exec_clrerr s⟩

end Sys2Proof
end

section
/-! The latch (60_exceptions.md R282 to R286): where it is free, only a step that fails puts an error in
it, and such a step leaves all else as it was; where it is taken, no word but SRESET and CLRERR gets into
PEND. -/

namespace Sys2Proof.Machine

open Sys2Proof.Safety

variable {i : Instr} {s t : State}

theorem failedState_of_free {code : BitVec 4} (h0 : s.errCode = 0#4) :
    failedState code s =
      { s with errCode := code, errCmd := s.pend, errAddr := 0#16, busy := false } :=
  if_pos h0

/-! ### The core's turn (R282, R283) -/

/-- A command that returns ok leaves a free latch free. -/
theorem OkEffect.errCode (he : OkEffect s t i) (h0 : s.errCode = 0#4) : t.errCode = 0#4 := by
  cases i with
  | nop => cases he; exact h0
  | sreset => cases he; rfl
  | clrerr => cases he; rfl
  | build c => cases he; exact h0
  | assign c => obtain ⟨codes, -, rfl⟩ := he; exact h0
  | rdlt c => obtain ⟨lens, -, -, rfl⟩ := he; exact h0
  | wrlt c => obtain ⟨xs, rfl⟩ := he; exact h0
  | hdrw => obtain ⟨xs, rfl⟩ := he; exact h0
  | hdrr => obtain ⟨-, -, e⟩ := he; rw [e]; exact h0
  | flush => obtain ⟨e, -⟩ := he; rw [e]; exact h0
  | encsym c y => obtain ⟨e, -⟩ := he; rw [e]; exact h0
  | encpx pr pg pb => obtain ⟨e, -⟩ := he; rw [e]; exact h0
  | decsym c => obtain ⟨e, -⟩ := he; rw [e]; exact h0
  | decpx => obtain ⟨e, -⟩ := he; rw [e]; exact h0

/-- A command that has put an error in a free latch has failed, with an error listed for it. -/
theorem exec_latched (h0 : s.errCode = 0#4) (hx : exec i s = .next t) (ht : t.errCode ≠ 0#4) :
    t.errCode ∈ listedErrors i ∧ t = failedState t.errCode s := by
  rcases exec_answers hx with ⟨u, he, rfl⟩ | ⟨e, hl, rfl⟩ | ⟨rfl, -⟩
  · exact absurd (he.errCode h0) ht
  · rw [failedState_errCode h0]
    exact ⟨hl, rfl⟩
  · exact absurd h0 ht

/-- The same of the core's turn, where the word in flight may be no command. -/
theorem coreStep_latched (h0 : s.errCode = 0#4) (hx : coreStep s = .next t)
    (ht : t.errCode ≠ 0#4) : t = failedState t.errCode s := by
  cases hbusy : s.busy with
  | false =>
    cases (coreStep_idle hbusy).symm.trans hx
    exact absurd h0 ht
  | true =>
    cases hlegal : WellFormed.legal s.pend with
    | true =>
      obtain ⟨i, hdec⟩ := exists_decode_eq_ok_iff.2 hlegal
      exact (exec_latched h0 ((coreStep_command hbusy hdec).symm.trans hx) ht).2
    | false =>
      cases (coreStep_illegal hbusy hlegal).symm.trans hx
      rw [failedState_errCode h0]

/-! ### The host's writes (R284, R285) -/

theorem accept_errCode (w : Word) (s : State) : (accept w s).errCode = s.errCode := by
  unfold accept
  split <;> rfl

/-- A write to an idle block raises nothing (20_memory.md R84). -/
theorem hostWrite_errCode_of_idle (hs : s.busy = false) (wa : WordAddr) (v : Word) :
    (hostWrite wa v s).errCode = s.errCode := by
  rw [hostWrite, if_neg (by simp [hs])]
  cases busTarget wa with
  | cmd => exact accept_errCode v s
  | _ => rfl

theorem overrunState_of_free (a : ByteAddr) (h0 : s.errCode = 0#4) :
    overrunState a s = { s with errCode := 10#4, errCmd := 0#32, errAddr := a } :=
  if_pos h0

theorem overrunState_of_latched (a : ByteAddr) (h : s.errCode ≠ 0#4) : overrunState a s = s :=
  if_neg h

/-- A write that has put an error in a free latch came while BUSY = 1. -/
theorem hostWrite_latched {wa : WordAddr} {v : Word} (h0 : s.errCode = 0#4)
    (h : (hostWrite wa v s).errCode ≠ 0#4) : hostWrite wa v s = overrunState (byteAddr wa) s := by
  cases hbusy : s.busy with
  | false => exact absurd ((hostWrite_errCode_of_idle hbusy wa v).trans h0) h
  | true => exact hostWrite_busy hbusy wa v

end Sys2Proof.Machine

namespace Sys2Proof

open Machine Safety

/-- Settles O52: with the latch free, a step that latches an error leaves the error state of R283, and a
host write that does, the one of R84. -/
theorem failedCommandHasNoEffect : Obligations.FailedCommandHasNoEffect :=
  ⟨fun _ _ _ h0 hx ht => (exec_latched h0 hx ht).2.trans (failedState_of_free h0),
    fun _ _ h0 hx ht => (coreStep_latched h0 hx ht).trans (failedState_of_free h0),
    fun _ wa _ h0 h => (hostWrite_latched h0 h).trans (overrunState_of_free (byteAddr wa) h0)⟩

/-- Settles O53: a command answers with no error but those listed, and a word of ENCPX's format has
neither a channel nor reserved bits. -/
theorem commandErrorsAreListed : Obligations.CommandErrorsAreListed := by
  refine ⟨fun _ _ _ h0 hx ht => (exec_latched h0 hx ht).1, fun w hop => ?_⟩
  have hencpx : w.extractLsb' 24 8 = opcodeOf (.encpx 0#8 0#8 0#8) := hop
  exact (legal_iff hencpx).2 ⟨(channelLegal_iff hencpx).2 trivial, trivial⟩

/-- Settles O9: a busy block drops the word and keeps the error it holds, and an idle one discards
it. -/
theorem errorsAreSticky : Obligations.ErrorsAreSticky := by
  intro s w he hsreset hclrerr
  obtain ⟨hbusy, hdiscarded, -⟩ := commandAcceptance s w
  cases hs : s.busy with
  | true => exact (hbusy hs).trans (overrunState_of_latched _ he)
  | false => exact hdiscarded hs he hsreset hclrerr

end Sys2Proof
end

section
/-! The Kraft sum of the lengths BUILD writes, by the number of symbols present (60_exceptions.md
R301). -/

namespace Sys2Proof.Machine

open Sys2Proof.Safety

variable {f : Table Word}

theorem kraft_buildTable_of_none (h : presentSymbols f = []) : kraft (buildTable f) = 0 := by
  simp [kraft_buildTable, h]

/-- A symbol alone has length 1 (40_tree_builder.md R144), and so half of the codes. -/
theorem kraft_buildTable_of_one {y : Symbol} (h : presentSymbols f = [y]) :
    kraft (buildTable f) = 2 ^ 254 := by
  simp [kraft_buildTable, h, buildLength_single h]

theorem afterBuild_lenTable (c : Channel) (s : State) :
    (afterBuild c s).len.get c = buildTable (s.freq.get c) := PerChannel.get_set_self ..

end Sys2Proof.Machine

namespace Sys2Proof

open Machine Safety

/-- Settles O26: no symbol takes no code, one takes half of them, and the leaves of a tree take them
all. -/
theorem buildTablesAreComplete : Obligations.BuildTablesAreComplete := by
  intro s t c hx
  cases (exec_build c s).symm.trans hx
  rw [afterBuild_lenTable]
  match hp : presentSymbols (s.freq.get c) with
  | [] => exact kraft_buildTable_of_none hp
  | [_] => exact kraft_buildTable_of_one hp
  | _ :: _ :: _ => simpa using kraft_buildTable_of_two (by simp [hp])

end Sys2Proof
end

section
/-! The reset (70_reset_and_hazards.md R310 to R313): SRESET and power-on reset leave one state, and
from it BUILD gives no symbol a length and ASSIGN none a code but 0. -/

namespace Sys2Proof.Machine

open Sys2Proof.Safety

variable {s : State} {c : Channel}

/-! ### The arrays after reset (R310) -/

@[simp] theorem cvalidAt_reset (c : Channel) : State.reset.cvalidAt c = false :=
  PerChannel.get_all false c

@[simp] theorem freqAt_reset (c : Channel) (y : Symbol) : State.reset.freqAt c y = 0#32 := by
  simp [State.freqAt, State.reset]

@[simp] theorem lenAt_reset (c : Channel) (y : Symbol) : State.reset.lenAt c y = 0#8 := by
  simp [State.lenAt, State.reset]

@[simp] theorem codeAt_reset (c : Channel) (y : Symbol) : State.reset.codeAt c y = 0#255 := by
  simp [State.codeAt, State.reset]

/-! ### The two ways to reset (R310, R311) -/

theorem powerOnReset_eq (s : State) :
    powerOnReset s = { State.reset with host := { s.host with taken := 0 } } := rfl

theorem exec_sreset (s : State) : exec .sreset s = .next (powerOnReset s) := by
  rw [exec_eq_complete, resultOf]
  exact complete_ok s (resetBlock s)

theorem step_powerOnReset {rest : List Event} (h : s.host.pending = .powerOnReset :: rest) :
    step s = .next (powerOnReset (consumeEvent s rest)) := by rw [step, h]

theorem busValue_id (s : State) : busValue s 11#14 = 0x50494601#32 := rfl

/-! ### A channel without counts, and one without lengths (R313) -/

theorem afterBuild_lenAt_of_absent {y : Symbol} (h : s.freqAt c y = 0#32) :
    (afterBuild c s).lenAt c y = 0#8 :=
  BitVec.eq_of_toNat_eq ((afterBuild_lenNat c s y).trans (buildLength_absent h))

/-- Lengths that are all 0 take none of the codes, so they are never oversubscribed
(41_canonical.md R163), and the code of each symbol is 0 (R164). -/
theorem exists_canonicalTable_of_no_lengths {lens : Table (BitVec 8)}
    (h : ∀ y, codeLength lens y = 0) :
    ∃ codes, canonicalTable lens = some codes ∧ ∀ y, Table.get codes y = 0#255 := by
  have hkraft : kraft lens = 0 := List.sum_eq_zero fun n hn => by
    obtain ⟨y, -, rfl⟩ := List.mem_map.1 hn
    exact if_pos (h y)
  obtain ⟨codes, hc⟩ := Option.isSome_iff_exists.1
    ((canonicalTable_isSome_iff lens).2 (hkraft ▸ Nat.zero_le _))
  exact ⟨codes, hc, fun y => BitVec.eq_of_toNat_eq ((canonicalTable_codes hc).1 y (h y))⟩

/-- ASSIGN of such a channel completes, and leaves the decode tree its root alone
(42_length_table.md R188). -/
theorem exec_assign_of_no_lengths (h : ∀ y, s.lenNat c y = 0) :
    ∃ codes, exec (.assign c) s = .next (afterAssign c codes s) ∧
      (∀ y, (afterAssign c codes s).codeAt c y = 0#255) ∧
      emptyTree (afterAssign c codes s) c = true := by
  obtain ⟨codes, hc, hzero⟩ := exists_canonicalTable_of_no_lengths (lens := s.len.get c) h
  exact ⟨codes, exec_assign_of_codes hc, fun y => (afterAssign_codeAt c codes s y).trans (hzero y),
    (emptyTree_iff _ c).2 h⟩

end Sys2Proof.Machine

namespace Sys2Proof

open Machine Safety

/-- Settles O20: SRESET completes with the state of power-on reset, whose elements are those of
`State.reset`; ID is read from no element. -/
theorem resetState : Obligations.ResetState := by
  refine ⟨fun s => ⟨powerOnReset s, exec_sreset s, rfl, ?_⟩, powerOnReset_eq, busValue_id⟩
  rw [powerOnReset_eq]
  exact ⟨rfl, rfl, rfl, rfl, rfl, rfl, rfl, rfl, rfl, rfl, rfl, rfl, cvalidAt_reset,
    fun c y => ⟨freqAt_reset c y, lenAt_reset c y, codeAt_reset c y⟩, rfl, rfl, rfl, rfl⟩

/-- Settles O21: the step looks at the event alone, and the reset at the host's side alone. -/
theorem powerOnResetAtAnyTime : Obligations.PowerOnResetAtAnyTime :=
  fun s rest h =>
    (step_powerOnReset h).trans (congrArg _ (powerOnReset_eq (consumeEvent s rest)))

/-- Settles O22: BUILD gives a symbol that does not occur the length 0, and ASSIGN one without a
length the code 0. -/
theorem untouchedChannelAfterReset : Obligations.UntouchedChannelAfterReset := by
  intro c
  have hlen : ∀ y, State.reset.lenNat c y = 0 := fun y => by simp [State.lenNat]
  obtain ⟨codes, hassign, hcode, htree⟩ := exec_assign_of_no_lengths hlen
  exact ⟨fun y => ⟨freqAt_reset c y, lenAt_reset c y, codeAt_reset c y⟩,
    ⟨afterBuild c State.reset, exec_build c State.reset, rfl, rfl,
      fun y => afterBuild_lenAt_of_absent (freqAt_reset c y)⟩,
    ⟨afterAssign c codes State.reset, hassign, rfl, rfl, by simp [afterAssign_cvalidAt], hcode,
      htree⟩⟩

/-- Settles O56: the reset of the reset state is that state. -/
theorem resetMeetsTheInvariant : Obligations.ResetMeetsTheInvariant := inv_resetBlock State.reset

end Sys2Proof
end
